-- ==== Sys2Proof/Word.lean ====
section
/-! DEFINITION. The widths the spec fixes: a word is 64 bits and a byte 8 (00_scope R6, R8), a BCD or
hexadecimal digit is one 4-bit nibble (43_bcd R150). All values are unsigned (R8). -/

namespace Sys2Proof

/-- One storage word of a register, bit 0 least significant (00_scope R8). -/
abbrev Word := BitVec 64

/-- One byte of the register-file byte space, or one character code of TXT. -/
abbrev Byte := BitVec 8

/-- One hexadecimal or decimal digit (43_bcd R150, 44_text_output R160). -/
abbrev Nibble := BitVec 4

end Sys2Proof
end

