-- ==== Sys2Proof/Syntax.lean ====
section
/-! DEFINITION. The commands of the engine, one constructor for each row of the opcode table (30_encoding R72, R75), and
the names of the faults a command word can raise (60_exceptions R182). -/

namespace Sys2Proof

/-- A command with its operands as numbers. `rd`, `rs1`, `rs2` are register numbers; `pd` and `ps1` are the first
register of a register-pair (30_encoding R72, R74). The scalar operand OPA is state, not part of a command. -/
inductive Instr where
  /-- SET rd, byteValue (40_storage R101). -/
  | set (rd : Nat) (byteValue : Byte)
  /-- MOV rd, rs1 (40_storage R102). -/
  | mov (rd rs1 : Nat)
  /-- GETB rs1, idx (40_storage R103). -/
  | getb (rs1 idx : Nat)
  /-- SETB rd, idx (40_storage R104). -/
  | setb (rd idx : Nat)
  /-- SHW rd, rs1, n with n the signed word count (41_carry_primitives R111). -/
  | shw (rd rs1 : Nat) (n : Int)
  /-- ADD rd, rs1, L (41_carry_primitives R112). -/
  | add (rd rs1 len : Nat)
  /-- ADC rd, rs1, L (41_carry_primitives R113). -/
  | adc (rd rs1 len : Nat)
  /-- SUB rd, rs1, L (41_carry_primitives R114). -/
  | sub (rd rs1 len : Nat)
  /-- SBB rd, rs1, L (41_carry_primitives R115). -/
  | sbb (rd rs1 len : Nat)
  /-- ADDS rd, idx (41_carry_primitives R116). -/
  | adds (rd idx : Nat)
  /-- CMPGE rs1, rs2 (41_carry_primitives R117). -/
  | cmpge (rs1 rs2 : Nat)
  /-- MULS rd, L (42_multiply_divide R131). -/
  | muls (rd len : Nat)
  /-- MUL pd, rs1, rs2 (42_multiply_divide R132). -/
  | mul (pd rs1 rs2 : Nat)
  /-- DIVS rd, L (42_multiply_divide R134). -/
  | divs (rd len : Nat)
  /-- DIV pd, rs1, rs2 (42_multiply_divide R136). -/
  | div (pd rs1 rs2 : Nat)
  /-- I2BCD pd, rs1 (43_bcd R151). -/
  | i2bcd (pd rs1 : Nat)
  /-- F2BCD pd, rs1 (43_bcd R153). -/
  | f2bcd (pd rs1 : Nat)
  /-- PRHEX rs1, lenBytes (44_text_output R161). -/
  | prhex (rs1 lenBytes : Nat)
  /-- PRHEXZ rs1, lenBytes (44_text_output R162). -/
  | prhexz (rs1 lenBytes : Nat)
  /-- PRDIG (44_text_output R163). -/
  | prdig
  /-- PRBCDI ps1 (44_text_output R164). -/
  | prbcdi (ps1 : Nat)
  /-- PRBCDF ps1 (44_text_output R165). -/
  | prbcdf (ps1 : Nat)
deriving DecidableEq, Repr

/-- The engine's faults, in the order their checks are made (60_exceptions R182). -/
inductive FaultCode where
  /-- Check 1: OP is none of the 22 opcodes. -/
  | illegalOpcode
  /-- Check 2: a field the command does not use is not zero. -/
  | reservedNonzero
  /-- Check 3: N is outside the command's range. -/
  | badLength
  /-- Check 4: a register operand does not exist or runs past the register file. -/
  | badRegister
  /-- Check 5: destination and source partly overlap. -/
  | overlap
deriving DecidableEq, Repr

end Sys2Proof
end

