-- ==== Sys2Proof/Decode.lean ====
section
/-! DEFINITION. The command word: its fields (30_encoding R71), which fields a command uses (R72), the opcode map (R75),
the two decoding faults (R76, R77), the encoder (R82), and the opcode table's match and mask pairs (R76). -/

namespace Sys2Proof

/-- `v[hi:lo]`, "the unsigned integer formed by bits hi down to lo of v" (00_scope R8). -/
def bitField (v hi lo : Nat) : Nat := v / 2 ^ lo % 2 ^ (hi - lo + 1)

/-- The two's-complement reading of a 32-bit field, used only for SHW's count (00_scope R8, 30_encoding R73). -/
def sext32 (n : Nat) : Int := if n < 2 ^ 31 then (n : Int) else (n : Int) - 2 ^ 32

/-- The 32-bit field that holds a signed count, "with N taken modulo 2^32" (30_encoding R82). -/
def wrap32 (n : Int) : Nat := (n % 2 ^ 32).toNat

/-- The five fields of a command word (30_encoding R71). -/
structure Fields where
  op : Nat
  rd : Nat
  rs1 : Nat
  rs2 : Nat
  n : Nat
deriving DecidableEq, Repr

/-- Cut a command word into its fields: OP 7:0, RD 15:8, RS1 23:16, RS2 31:24, N 63:32 (30_encoding R71). -/
def fieldsOf (c : Word) : Fields :=
  { op := bitField c.toNat 7 0, rd := bitField c.toNat 15 8, rs1 := bitField c.toNat 23 16,
    rs2 := bitField c.toNat 31 24, n := bitField c.toNat 63 32 }

/-- Assemble a command word, `OP | RD << 8 | RS1 << 16 | RS2 << 24 | N << 32` (30_encoding R82). The fields do not
overlap, so the sum is that OR; each field is cut to its width. -/
def pack (f : Fields) : Word :=
  BitVec.ofNat 64 (f.op % 2 ^ 8 + f.rd % 2 ^ 8 * 2 ^ 8 + f.rs1 % 2 ^ 8 * 2 ^ 16 + f.rs2 % 2 ^ 8 * 2 ^ 24
    + f.n % 2 ^ 32 * 2 ^ 32)

/-- The sub-formats: which of RD, RS1, RS2, N a command uses (30_encoding R72). -/
inductive SubFormat where
  | c0 | cDN | cSN | cS | cDS | cDSN | cSS | cDSS
deriving DecidableEq, Repr

/-- Every field the sub-format marks 0 is zero (30_encoding R72, R76). -/
def unusedZero : SubFormat → Fields → Bool
  | .c0, f => f.rd == 0 && f.rs1 == 0 && f.rs2 == 0 && f.n == 0
  | .cDN, f => f.rs1 == 0 && f.rs2 == 0
  | .cSN, f => f.rd == 0 && f.rs2 == 0
  | .cS, f => f.rd == 0 && f.rs2 == 0 && f.n == 0
  | .cDS, f => f.rs2 == 0 && f.n == 0
  | .cDSN, f => f.rs2 == 0
  | .cSS, f => f.rd == 0 && f.n == 0
  | .cDSS, f => f.n == 0

/-- A word with an assigned opcode is its command if the reserved bits are zero, else RESERVED_NONZERO (30_encoding R76). -/
def ifReservedZero (reservedZero : Bool) (i : Instr) : Except FaultCode Instr :=
  if reservedZero then .ok i else .error .reservedNonzero

/-- The opcode map, one line a row (30_encoding R75); any other OP is ILLEGAL_OPCODE (R77). SET also reserves N[31:8]
(R73, R76). -/
def commandOf (f : Fields) : Except FaultCode Instr :=
  match f.op with
  | 0x01 => ifReservedZero (unusedZero .cDN f && bitField f.n 31 8 == 0) (.set f.rd (BitVec.ofNat 8 f.n))
  | 0x02 => ifReservedZero (unusedZero .cDS f) (.mov f.rd f.rs1)
  | 0x03 => ifReservedZero (unusedZero .cSN f) (.getb f.rs1 f.n)
  | 0x04 => ifReservedZero (unusedZero .cDN f) (.setb f.rd f.n)
  | 0x10 => ifReservedZero (unusedZero .cDSN f) (.shw f.rd f.rs1 (sext32 f.n))
  | 0x11 => ifReservedZero (unusedZero .cDSN f) (.add f.rd f.rs1 f.n)
  | 0x12 => ifReservedZero (unusedZero .cDSN f) (.adc f.rd f.rs1 f.n)
  | 0x13 => ifReservedZero (unusedZero .cDSN f) (.sub f.rd f.rs1 f.n)
  | 0x14 => ifReservedZero (unusedZero .cDSN f) (.sbb f.rd f.rs1 f.n)
  | 0x15 => ifReservedZero (unusedZero .cDN f) (.adds f.rd f.n)
  | 0x16 => ifReservedZero (unusedZero .cSS f) (.cmpge f.rs1 f.rs2)
  | 0x20 => ifReservedZero (unusedZero .cDN f) (.muls f.rd f.n)
  | 0x21 => ifReservedZero (unusedZero .cDSS f) (.mul f.rd f.rs1 f.rs2)
  | 0x22 => ifReservedZero (unusedZero .cDN f) (.divs f.rd f.n)
  | 0x23 => ifReservedZero (unusedZero .cDSS f) (.div f.rd f.rs1 f.rs2)
  | 0x30 => ifReservedZero (unusedZero .cDS f) (.i2bcd f.rd f.rs1)
  | 0x31 => ifReservedZero (unusedZero .cDS f) (.f2bcd f.rd f.rs1)
  | 0x32 => ifReservedZero (unusedZero .cSN f) (.prhex f.rs1 f.n)
  | 0x33 => ifReservedZero (unusedZero .cSN f) (.prhexz f.rs1 f.n)
  | 0x34 => ifReservedZero (unusedZero .c0 f) .prdig
  | 0x35 => ifReservedZero (unusedZero .cS f) (.prbcdi f.rs1)
  | 0x36 => ifReservedZero (unusedZero .cS f) (.prbcdf f.rs1)
  | _ => .error .illegalOpcode

/-- Decode a command word: total, and a word that is no command is rejected by the name of its fault (30_encoding R78). -/
def decode (c : Word) : Except FaultCode Instr := commandOf (fieldsOf c)

/-- The fields of a command, 0 in every field its sub-format does not use (30_encoding R72, R75). -/
def fieldsFor : Instr → Fields
  | .set rd b => ⟨0x01, rd, 0, 0, b.toNat⟩
  | .mov rd rs1 => ⟨0x02, rd, rs1, 0, 0⟩
  | .getb rs1 idx => ⟨0x03, 0, rs1, 0, idx⟩
  | .setb rd idx => ⟨0x04, rd, 0, 0, idx⟩
  | .shw rd rs1 n => ⟨0x10, rd, rs1, 0, wrap32 n⟩
  | .add rd rs1 len => ⟨0x11, rd, rs1, 0, len⟩
  | .adc rd rs1 len => ⟨0x12, rd, rs1, 0, len⟩
  | .sub rd rs1 len => ⟨0x13, rd, rs1, 0, len⟩
  | .sbb rd rs1 len => ⟨0x14, rd, rs1, 0, len⟩
  | .adds rd idx => ⟨0x15, rd, 0, 0, idx⟩
  | .cmpge rs1 rs2 => ⟨0x16, 0, rs1, rs2, 0⟩
  | .muls rd len => ⟨0x20, rd, 0, 0, len⟩
  | .mul pd rs1 rs2 => ⟨0x21, pd, rs1, rs2, 0⟩
  | .divs rd len => ⟨0x22, rd, 0, 0, len⟩
  | .div pd rs1 rs2 => ⟨0x23, pd, rs1, rs2, 0⟩
  | .i2bcd pd rs1 => ⟨0x30, pd, rs1, 0, 0⟩
  | .f2bcd pd rs1 => ⟨0x31, pd, rs1, 0, 0⟩
  | .prhex rs1 lenBytes => ⟨0x32, 0, rs1, 0, lenBytes⟩
  | .prhexz rs1 lenBytes => ⟨0x33, 0, rs1, 0, lenBytes⟩
  | .prdig => ⟨0x34, 0, 0, 0, 0⟩
  | .prbcdi ps1 => ⟨0x35, 0, ps1, 0, 0⟩
  | .prbcdf ps1 => ⟨0x36, 0, ps1, 0, 0⟩

/-- The command word of a command (30_encoding R82). -/
def encode (i : Instr) : Word := pack (fieldsFor i)

/-- A row of the opcode table: a word `c` is the row's command if and only if `c AND mask = pattern` (30_encoding R76). -/
structure OpcodeRow where
  mnemonic : String
  pattern : Nat
  mask : Nat
deriving DecidableEq, Repr

/-- The match and mask of every row of the opcode table (30_encoding R75, R76). -/
def opcodeTable : List OpcodeRow :=
  [⟨"SET", 0x0000000000000001, 0xFFFFFF00FFFF00FF⟩, ⟨"MOV", 0x0000000000000002, 0xFFFFFFFFFF0000FF⟩,
   ⟨"GETB", 0x0000000000000003, 0x00000000FF00FFFF⟩, ⟨"SETB", 0x0000000000000004, 0x00000000FFFF00FF⟩,
   ⟨"SHW", 0x0000000000000010, 0x00000000FF0000FF⟩, ⟨"ADD", 0x0000000000000011, 0x00000000FF0000FF⟩,
   ⟨"ADC", 0x0000000000000012, 0x00000000FF0000FF⟩, ⟨"SUB", 0x0000000000000013, 0x00000000FF0000FF⟩,
   ⟨"SBB", 0x0000000000000014, 0x00000000FF0000FF⟩, ⟨"ADDS", 0x0000000000000015, 0x00000000FFFF00FF⟩,
   ⟨"CMPGE", 0x0000000000000016, 0xFFFFFFFF0000FFFF⟩, ⟨"MULS", 0x0000000000000020, 0x00000000FFFF00FF⟩,
   ⟨"MUL", 0x0000000000000021, 0xFFFFFFFF000000FF⟩, ⟨"DIVS", 0x0000000000000022, 0x00000000FFFF00FF⟩,
   ⟨"DIV", 0x0000000000000023, 0xFFFFFFFF000000FF⟩, ⟨"I2BCD", 0x0000000000000030, 0xFFFFFFFFFF0000FF⟩,
   ⟨"F2BCD", 0x0000000000000031, 0xFFFFFFFFFF0000FF⟩, ⟨"PRHEX", 0x0000000000000032, 0x00000000FF00FFFF⟩,
   ⟨"PRHEXZ", 0x0000000000000033, 0x00000000FF00FFFF⟩, ⟨"PRDIG", 0x0000000000000034, 0xFFFFFFFFFFFFFFFF⟩,
   ⟨"PRBCDI", 0x0000000000000035, 0xFFFFFFFFFF00FFFF⟩, ⟨"PRBCDF", 0x0000000000000036, 0xFFFFFFFFFF00FFFF⟩]

/-- The mnemonic of a command (30_encoding R75, R79). -/
def mnemonicOf : Instr → String
  | .set _ _ => "SET"
  | .mov _ _ => "MOV"
  | .getb _ _ => "GETB"
  | .setb _ _ => "SETB"
  | .shw _ _ _ => "SHW"
  | .add _ _ _ => "ADD"
  | .adc _ _ _ => "ADC"
  | .sub _ _ _ => "SUB"
  | .sbb _ _ _ => "SBB"
  | .adds _ _ => "ADDS"
  | .cmpge _ _ => "CMPGE"
  | .muls _ _ => "MULS"
  | .mul _ _ _ => "MUL"
  | .divs _ _ => "DIVS"
  | .div _ _ _ => "DIV"
  | .i2bcd _ _ => "I2BCD"
  | .f2bcd _ _ => "F2BCD"
  | .prhex _ _ => "PRHEX"
  | .prhexz _ _ => "PRHEXZ"
  | .prdig => "PRDIG"
  | .prbcdi _ => "PRBCDI"
  | .prbcdf _ => "PRBCDF"

/-- The 64-bit word an opcode-table row's first `nbits` bits stand for; a command word is taken by value, so no byte
order enters (20_memory R66). -/
def tableWord (nbits w : Nat) : Word := BitVec.ofNat 64 (w % 2 ^ nbits)

/-- The command this decoder reads from the bits `w`, none where it refuses. -/
def decodeTableWord (nbits w : Nat) : Option Instr :=
  match decode (tableWord nbits w) with
  | .ok i => some i
  | .error _ => none

end Sys2Proof
end

