-- ==== Sys2Proof/Config.lean ====
section
/-! DEFINITION. What an engine instance fixes for its whole life (00_scope R6, 10_state R41), and the one source of
free values for what the spec calls unspecified (93_implementation_defined U5). -/

namespace Sys2Proof

/-- The parameters of an engine (00_scope R6): "compile-time constants of the implementation". The model takes
them as arguments (93 U13); log entry 4 says where they are held. -/
structure Config where
  /-- W: 64-bit words in a single-width register. -/
  w : Nat
  /-- NREG: single-width registers in the register file. -/
  nreg : Nat
  /-- HEX_LINE_BYTES: bytes per output line of PRHEX and PRHEXZ, 0 for no wrapping. -/
  hexLineBytes : Nat
  /-- DEC_LINE_DIGITS: digits per output line of PRDIG, PRBCDI and PRBCDF, 0 for no wrapping. -/
  decLineDigits : Nat
deriving DecidableEq, Repr

/-- The ranges of the parameters (92_eei_decisions, table of open parameters; D3, D4, D27). -/
abbrev Config.valid (cfg : Config) : Prop :=
  (1 ≤ cfg.w ∧ cfg.w ≤ 2 ^ 24) ∧ (2 ≤ cfg.nreg ∧ cfg.nreg ≤ 256) ∧
    cfg.hexLineBytes < 2 ^ 32 ∧ cfg.decLineDigits < 2 ^ 32

/-- The reference values of W and NREG (00_scope R6). The two line widths have no reference value: 0, no wrapping,
is a DESIGN CHOICE (log entry 4). -/
def Config.reference : Config := { w := 2048, nreg := 8, hexLineBytes := 0, decLineDigits := 0 }

/-- A word the spec calls unspecified: "any value" (93 U5). It has no body, so nothing can be proved of it; each
use takes a fresh `draw` (the counter `State.draws`) and `index` tells the words of one use apart (log entry 3). -/
opaque Config.unspecifiedWord (draw index : Nat) : Word

end Sys2Proof
end

