-- ==== Sys2Proof/Machine/State.lean ====
section
/-! DEFINITION. The state of the engine and of its host interface, as plain data, and the state after reset
(10_state, 70_reset_and_hazards R200). -/

namespace Sys2Proof.Machine

/-- The register file as bytes at physical byte addresses (20_memory R50, R51): the addresses strictly rise and no entry
holds what an unlisted address reads as (log entry 8). -/
abbrev Memory := List Host.Cell

/-- What the host may do to the engine, one indivisible step each (00_scope R7, 20_memory R60). -/
inductive HostTransaction where
  /-- Write control register `n` (10_state R34); a write to register 0, CMD, runs a command (R35). -/
  | writeControl (n : Nat) (v : Word)
  /-- Read control register `n` (10_state R34). -/
  | readControl (n : Nat)
  /-- HostWriteWord (20_memory R56). -/
  | writeWord (a : Nat) (v : Word)
  /-- HostReadWord (20_memory R56). -/
  | readWord (a : Nat)
  /-- HostWriteByte at a physical byte address (20_memory R57). -/
  | writeByte (p : Nat) (b : Byte)
  /-- HostReadByte at a physical byte address (20_memory R57). -/
  | readByte (p : Nat)
  /-- The platform's reset event (70_reset_and_hazards R200). -/
  | reset
deriving DecidableEq, Repr

/-- What a read returned to the host. -/
inductive Reply where
  /-- From a control register or the word window. -/
  | word (v : Word)
  /-- From the byte window. -/
  | byte (b : Byte)
deriving DecidableEq, Repr

/-- Everything the spec gives the machine (10_state R20 to R42), the parameters, and the model's own three fields. -/
structure State where
  /-- The parameters W, NREG, HEX_LINE_BYTES, DEC_LINE_DIGITS; no step changes them (00_scope R6, log entry 4). -/
  cfg : Config
  /-- RF, the register file, byte by byte (10_state R20, 20_memory R51). -/
  rf : Memory
  /-- S, the hidden scratch register of W words (10_state R26). -/
  scratch : List Word
  /-- OPA, the scalar operand (10_state R28). -/
  opa : Word
  /-- RES, the scalar result (10_state R29). -/
  res : Word
  /-- CF, carry and borrow (10_state R30, R31). -/
  cf : Bool
  /-- ZF, quotient zero (10_state R30, R32). -/
  zf : Bool
  /-- GE, greater or equal (10_state R30, R33). -/
  ge : Bool
  /-- STATUS.FAULT (10_state R36). -/
  fault : Bool
  /-- STATUS.FCODE, 0 while FAULT is 0 (10_state R36). -/
  fcode : Byte
  /-- FCMD, the command word that faulted, 0 while FAULT is 0 (10_state R37). -/
  fcmd : Word
  /-- COL, the output column counter (10_state R39). -/
  col : BitVec 32
  /-- TXT, every character code emitted since reset, first one first (10_state R40). -/
  txt : List Byte
  /-- MODEL's own: the host's transactions still to be performed, first one first (log entry 5). -/
  pending : List HostTransaction
  /-- MODEL's own: what the host's reads have returned, oldest first (log entry 6). -/
  replies : List Reply
  /-- MODEL's own: how many free values have been drawn (log entry 3). -/
  draws : Nat
deriving DecidableEq, Repr

/-- Why the model stops. The ENGINE's own faults are no stop: they are taken, as a next state (60_exceptions R181). -/
inductive Fault where
  /-- Raised by a host access of the word or byte window outside the register file, which the spec's interface does not
  contain (93 U6, 20_memory R60). Safe: nothing is claimed of the machine there (log entry 7). -/
  | noSuchWindowAddress
  /-- Raised by a host access to a control register numbered 8 or more, which does not exist (10_state R34, 93 U6).
  Safe, for the same reason (log entry 7). -/
  | noSuchControlRegister
deriving DecidableEq, Repr

/-- Instructions without a meaning. -/
inductive Refusal where
  /-- Raised by an arm of exec whose instruction has no meaning yet; no arm raises it. Safe. -/
  | notModelled (mnemonic : String)
deriving DecidableEq, Repr

/-- The state after reset of an engine with the given parameters (10_state R42, 70_reset_and_hazards R200). The register
file and S are unspecified there; that they hold 0 is a DESIGN CHOICE (log entries 1 and 2). -/
def State.resetOf (cfg : Config) : State :=
  { cfg := cfg, rf := [], scratch := List.replicate cfg.w 0, opa := 0, res := 0, cf := false, zf := false, ge := false,
    fault := false, fcode := 0, fcmd := 0, col := 0, txt := [], pending := [], replies := [], draws := 0 }

/-- The machine right after reset, in the reference configuration (00_scope R6, 10_state R42). -/
def State.reset : State := State.resetOf Config.reference

end Sys2Proof.Machine
end

