-- ==== Sys2Proof/Machine/Ops.lean ====
section
/-! DEFINITION. The operations shared by the commands and the host transactions: the register file as bytes, words, buffers
and values (00_scope R9, R10; 20_memory R51, R52), the output stream (10_state R40), the scratch register (R26), and taking
an engine fault and returning from one (60_exceptions R181, R187). -/

namespace Sys2Proof.Machine

/-- What a byte of the register file that nothing has written reads as: a DESIGN CHOICE, the spec leaves it unspecified
(10_state R42, log entry 1). -/
def unlistedByte : Byte := 0

/-- `Mem[p]`, the byte at physical address p (20_memory R51). -/
def readByte : Memory → Nat → Byte
  | [], _ => unlistedByte
  | c :: m, p => if p < c.1 then unlistedByte else if c.1 = p then c.2 else readByte m p

/-- The n bytes from physical address p on, lowest address first, in one pass over the list. -/
def readRange : Memory → Nat → Nat → List Byte
  | [], _, n => List.replicate n unlistedByte
  | c :: m, p, n =>
    if c.1 < p then readRange m p n
    else if n ≤ c.1 - p then List.replicate n unlistedByte
    else List.replicate (c.1 - p) unlistedByte ++ c.2 :: readRange m (c.1 + 1) (n - (c.1 - p) - 1)

/-- The entries of the bytes `bs` laid from address p on, less those equal to what an unlisted address reads as. -/
def cellsFrom : Nat → List Byte → Memory
  | _, [] => []
  | p, b :: bs => if b = unlistedByte then cellsFrom (p + 1) bs else (p, b) :: cellsFrom (p + 1) bs

/-- Write the bytes `bs` from physical address p on, keeping the canonical form (log entry 8): a byte equal to what an
unlisted address reads as leaves no entry. -/
def writeRange (m : Memory) (p : Nat) (bs : List Byte) : Memory :=
  m.takeWhile (fun c => decide (c.1 < p)) ++ cellsFrom p bs ++ m.dropWhile (fun c => decide (c.1 < p + bs.length))

/-- `Mem[p] <- b` (20_memory R57). -/
def writeByte (m : Memory) (p : Nat) (b : Byte) : Memory := writeRange m p [b]

/-- The canonical form: addresses strictly rise and no entry equals what an unlisted address reads as. -/
abbrev Memory.wf (m : Memory) : Prop :=
  m.Pairwise (fun c d => c.1 < d.1) ∧ ∀ c ∈ m, c.2 ≠ unlistedByte

/-- The number a run of bytes holds, the least significant byte first (20_memory R51). -/
def bytesValue : List Byte → Nat
  | [] => 0
  | b :: bs => b.toNat + 256 * bytesValue bs

/-- The n bytes of a number, the least significant byte first (20_memory R51). -/
def valueBytes : Nat → Nat → List Byte
  | 0, _ => []
  | n + 1, v => BitVec.ofNat 8 v :: valueBytes n (v / 256)

/-- `MemRead(p, n)`: n bytes, the least significant at the lowest address (00_scope R10). -/
def memRead (m : Memory) (p n : Nat) : Nat := bytesValue (readRange m p n)

/-- `MemWrite(p, n, v)`, the inverse of `MemRead` (00_scope R10, 20_memory R51). -/
def memWrite (m : Memory) (p n v : Nat) : Memory := writeRange m p (valueBytes n v)

/-- `RF[a] = MemRead(8a, 8)`: the word at flat word index a (20_memory R51). -/
def readWord (m : Memory) (a : Nat) : Word := BitVec.ofNat 64 (memRead m (8 * a) 8)

/-- `RF[a] <- v`, that is `MemWrite(8a, 8, v)` (20_memory R51). -/
def writeWord (m : Memory) (a : Nat) (v : Word) : Memory := memWrite m (8 * a) 8 v.toNat

/-- Cut bytes in physical order into L words. -/
def wordsFromBytes : Nat → List Byte → List Word
  | 0, _ => []
  | L + 1, bs => BitVec.ofNat 64 (bytesValue (bs.take 8)) :: wordsFromBytes L (bs.drop 8)

/-- Cut bytes in LOGICAL order, the most significant byte of each word first (20_memory R52, R53), into L words. -/
def wordsFromLogical : Nat → List Byte → List Word
  | 0, _ => []
  | L + 1, bs => BitVec.ofNat 64 (bytesValue (bs.take 8).reverse) :: wordsFromLogical L (bs.drop 8)

/-- The L words from flat word index a on. -/
def readWords (m : Memory) (a L : Nat) : List Word := wordsFromBytes L (readRange m (8 * a) (8 * L))

/-- Write words from flat word index a on. -/
def writeWords (m : Memory) (a : Nat) (ws : List Word) : Memory :=
  writeRange m (8 * a) (ws.flatMap (fun w => valueBytes 8 w.toNat))

/-- The integer a list of words holds, word 0 most significant (00_scope R9). -/
def wordsValue (ws : List Word) : Nat := ws.foldl (fun v w => v * 2 ^ 64 + w.toNat) 0

/-- The L words of an integer: word k is `(v >> (64 * (L - 1 - k)))[63:0]` (00_scope R9). -/
def valueWords (L v : Nat) : List Word :=
  (List.range L).map fun k => BitVec.ofNat 64 (v >>> (64 * (L - 1 - k)))

/-- `phys(r, i)`: the physical address of logical byte i of the buffer at register r (20_memory R52). -/
def physAddr (w r i : Nat) : Nat := r * (8 * w) + (i ^^^ 7)

/-- The flat index of the first word of register r (00_scope R9). -/
def State.base (s : State) (r : Nat) : Nat := r * s.cfg.w

/-- `RF[r*W + k]`, word k of the buffer at register r. -/
def State.word (s : State) (r k : Nat) : Word := readWord s.rf (s.base r + k)

/-- The L words of the buffer at register r (10_state R21 to R23). -/
def State.words (s : State) (r L : Nat) : List Word := readWords s.rf (s.base r) L

/-- `val(r, L)` (00_scope R9); `x[r]` is `val(r, W)` and `xp[r]` is `val(r, 2W)`. -/
def State.val (s : State) (r L : Nat) : Nat := wordsValue (s.words r L)

/-- Write words 0, 1, ... of the buffer at register r. -/
def State.setWords (s : State) (r : Nat) (ws : List Word) : State := { s with rf := writeWords s.rf (s.base r) ws }

/-- `setval(r, L, v)` (00_scope R9). -/
def State.setVal (s : State) (r L v : Nat) : State := s.setWords r (valueWords L v)

/-- `byte(r, i)`, logical byte i of the buffer at register r (00_scope R10, 20_memory R52). -/
def State.byte (s : State) (r i : Nat) : Byte := readByte s.rf (physAddr s.cfg.w r i)

/-- `setbyte(r, i, b)` (00_scope R10). -/
def State.setByte (s : State) (r i : Nat) (b : Byte) : State :=
  { s with rf := writeByte s.rf (physAddr s.cfg.w r i) b }

/-- Logical bytes 0 .. n-1 of the buffer at register r, most significant first (20_memory R53, R54). -/
def State.bytes (s : State) (r n : Nat) : List Byte :=
  ((s.words r ((n + 7) / 8)).flatMap (fun w => (valueBytes 8 w.toNat).reverse)).take n

/-- Write the logical bytes 0, 1, ... of L words of the buffer at register r (20_memory R53, R68). -/
def State.setBytes (s : State) (r L : Nat) (bs : List Byte) : State := s.setWords r (wordsFromLogical L bs)

/-- The all-one-bits word a division by zero writes (42_multiply_divide R134, R138). -/
def sentinel : Word := BitVec.allOnes 64

/-- `emit(c)` for each code of the list, in order (10_state R40). -/
def State.emit (s : State) (cs : List Byte) : State := { s with txt := s.txt ++ cs }

/-- `S <- unspecified`: W free words, drawn afresh (10_state R26, 93 U5, log entry 3). -/
def State.clobberScratch (s : State) : State :=
  { s with scratch := (List.range s.cfg.w).map (Config.unspecifiedWord s.draws), draws := s.draws + 1 }

/-- The code FCODE holds for a fault (60_exceptions R182). -/
def faultByte : FaultCode → Byte
  | .illegalOpcode => 1
  | .reservedNonzero => 2
  | .badLength => 3
  | .badRegister => 4
  | .overlap => 5

/-- Fault entry, `raise Fault(code)` for the command word c: these three fields and nothing else (60_exceptions R181). -/
def raiseFault (code : FaultCode) (c : Word) (s : State) : State :=
  { s with fault := true, fcode := faultByte code, fcmd := c }

/-- Fault return: clears the fault record, and does nothing when FAULT is already 0 (60_exceptions R187). -/
def faultReturn (s : State) : State :=
  if s.fault then { s with fault := false, fcode := 0, fcmd := 0 } else s

/-- The reset event between two transactions (70_reset_and_hazards R200). The register file and S become unspecified, that
is, free values (93 U5, log entry 3); what the host still has to do and what it has read are the host's. -/
def resetEvent (s : State) : State :=
  { State.resetOf s.cfg with
    rf := writeWords [] 0 ((List.range (s.cfg.nreg * s.cfg.w)).map (Config.unspecifiedWord s.draws)),
    scratch := (List.range s.cfg.w).map (fun k => Config.unspecifiedWord s.draws (s.cfg.nreg * s.cfg.w + k)),
    pending := s.pending, replies := s.replies, draws := s.draws + 1 }

end Sys2Proof.Machine
end

