-- ==== Sys2Proof/Machine/Operands.lean ====
section
/-! DEFINITION. The checks every command makes before it runs: the range of N (30_encoding R73), the extents of its register
operands and their overlap (60_exceptions R183, R184), in the order of R182; and the frame every command shares (40_storage
R100). -/

namespace Sys2Proof.Machine

/-- A register operand: its number and its extent E in words (60_exceptions R183). -/
structure Operand where
  reg : Nat
  extent : Nat
deriving DecidableEq, Repr

/-- N is in the command's range, else BAD_LENGTH (30_encoding R73, 60_exceptions R183). -/
def countInRange (cfg : Config) : Instr → Bool
  | .set _ _ => true
  | .mov _ _ => true
  | .getb _ idx => decide (idx < 16 * cfg.w)
  | .setb _ idx => decide (idx < 16 * cfg.w)
  | .shw _ _ _ => true
  | .add _ _ len => decide (len ≤ 2 * cfg.w)
  | .adc _ _ len => decide (len ≤ 2 * cfg.w)
  | .sub _ _ len => decide (len ≤ 2 * cfg.w)
  | .sbb _ _ len => decide (len ≤ 2 * cfg.w)
  | .adds _ idx => decide (idx < 2 * cfg.w)
  | .cmpge _ _ => true
  | .muls _ len => decide (len ≤ 2 * cfg.w)
  | .mul _ _ _ => true
  | .divs _ len => decide (len ≤ 2 * cfg.w)
  | .div _ _ _ => true
  | .i2bcd _ _ => true
  | .f2bcd _ _ => true
  | .prhex _ lenBytes => decide (lenBytes ≤ 16 * cfg.w)
  | .prhexz _ lenBytes => decide (lenBytes ≤ 16 * cfg.w)
  | .prdig => true
  | .prbcdi _ => true
  | .prbcdf _ => true

/-- The table of extents (60_exceptions R183). `ceil(lenBytes / 8)` is `(lenBytes + 7) / 8`. -/
def operandsOf (cfg : Config) : Instr → List Operand
  | .set rd _ => [⟨rd, cfg.w⟩]
  | .mov rd rs1 => [⟨rd, cfg.w⟩, ⟨rs1, cfg.w⟩]
  | .getb rs1 idx => [⟨rs1, idx / 8 + 1⟩]
  | .setb rd idx => [⟨rd, idx / 8 + 1⟩]
  | .shw rd rs1 _ => [⟨rd, cfg.w⟩, ⟨rs1, cfg.w⟩]
  | .add rd rs1 len => [⟨rd, len⟩, ⟨rs1, len⟩]
  | .adc rd rs1 len => [⟨rd, len⟩, ⟨rs1, len⟩]
  | .sub rd rs1 len => [⟨rd, len⟩, ⟨rs1, len⟩]
  | .sbb rd rs1 len => [⟨rd, len⟩, ⟨rs1, len⟩]
  | .adds rd idx => [⟨rd, idx + 1⟩]
  | .cmpge rs1 rs2 => [⟨rs1, cfg.w⟩, ⟨rs2, cfg.w⟩]
  | .muls rd len => [⟨rd, len⟩]
  | .mul pd rs1 rs2 => [⟨pd, 2 * cfg.w⟩, ⟨rs1, cfg.w⟩, ⟨rs2, cfg.w⟩]
  | .divs rd len => [⟨rd, len⟩]
  | .div pd rs1 rs2 => [⟨pd, 2 * cfg.w⟩, ⟨rs1, cfg.w⟩, ⟨rs2, cfg.w⟩]
  | .i2bcd pd rs1 => [⟨pd, 2 * cfg.w⟩, ⟨rs1, cfg.w⟩]
  | .f2bcd pd rs1 => [⟨pd, 2 * cfg.w⟩, ⟨rs1, cfg.w⟩]
  | .prhex rs1 lenBytes => [⟨rs1, (lenBytes + 7) / 8⟩]
  | .prhexz rs1 lenBytes => [⟨rs1, (lenBytes + 7) / 8⟩]
  | .prdig => []
  | .prbcdi ps1 => [⟨ps1, 2 * cfg.w⟩]
  | .prbcdf ps1 => [⟨ps1, 2 * cfg.w⟩]

/-- `r < NREG and r*W + E <= NREG*W` (60_exceptions R183). -/
def operandExists (cfg : Config) (o : Operand) : Bool :=
  decide (o.reg < cfg.nreg ∧ o.reg * cfg.w + o.extent ≤ cfg.nreg * cfg.w)

/-- The word ranges `[a, a + L)` and `[b, b + L)` have a word in common (60_exceptions R184). -/
def rangesMeet (a b L : Nat) : Bool := decide (0 < L ∧ a < b + L ∧ b < a + L)

/-- Destination and source of an in-place command differ and their L-word ranges meet (60_exceptions R184). -/
def prefixesClash (cfg : Config) (rd rs1 L : Nat) : Bool :=
  decide (rd ≠ rs1) && rangesMeet (rd * cfg.w) (rs1 * cfg.w) L

/-- A source register is one of the two registers of the destination pair (60_exceptions R184). -/
def insidePair (pd r : Nat) : Bool := decide (r = pd ∨ r = pd + 1)

/-- The overlap check; commands with no such check never overlap (60_exceptions R184). -/
def operandsClash (cfg : Config) : Instr → Bool
  | .set _ _ => false
  | .mov _ _ => false
  | .getb _ _ => false
  | .setb _ _ => false
  | .shw _ _ _ => false
  | .add rd rs1 len => prefixesClash cfg rd rs1 len
  | .adc rd rs1 len => prefixesClash cfg rd rs1 len
  | .sub rd rs1 len => prefixesClash cfg rd rs1 len
  | .sbb rd rs1 len => prefixesClash cfg rd rs1 len
  | .adds _ _ => false
  | .cmpge _ _ => false
  | .muls _ _ => false
  | .mul pd rs1 rs2 => insidePair pd rs1 || insidePair pd rs2
  | .divs _ _ => false
  | .div pd rs1 rs2 => insidePair pd rs1 || insidePair pd rs2
  | .i2bcd pd rs1 => insidePair pd rs1
  | .f2bcd pd rs1 => insidePair pd rs1
  | .prhex _ _ => false
  | .prhexz _ _ => false
  | .prdig => false
  | .prbcdi _ => false
  | .prbcdf _ => false

/-- Checks 3, 4 and 5, the first that fails (60_exceptions R182); checks 1 and 2 are the decoder's. They read the command
and the parameters only (R180). -/
def operandFault (cfg : Config) (i : Instr) : Option FaultCode :=
  if !countInRange cfg i then some .badLength
  else if !(operandsOf cfg i).all (operandExists cfg) then some .badRegister
  else if operandsClash cfg i then some .overlap
  else none

/-- The fault a command word raises when it is written to CMD with FAULT = 0: the first of checks 1 to 5 that fails, none if
all pass (60_exceptions R182). -/
def wordFault (cfg : Config) (c : Word) : Option FaultCode :=
  match decode c with
  | .error code => some code
  | .ok i => operandFault cfg i

/-- The frame of every command (40_storage R100): if a check fails, take the fault and perform nothing of the command; else
perform it on the state before the command. FCMD is the whole command word (60_exceptions R185, log entry 11). -/
def perform (i : Instr) (s : State) (effect : State → State) : Host.Outcome State Fault Refusal :=
  match operandFault s.cfg i with
  | some code => .next (raiseFault code (encode i) s)
  | none => .next (effect s)

end Sys2Proof.Machine
end

