-- ==== Sys2Proof/Machine/Bcd.lean ====
section
/-! DEFINITION. The BCD encoder: I2BCD, F2BCD (43_bcd). -/

namespace Sys2Proof.Machine

/-- Two decimal digits in one byte, the more significant one in the high nibble (43_bcd R150). -/
def bcdByte (hi lo : Nat) : Byte := BitVec.ofNat 8 (16 * hi + lo)

/-- `B = 8W + floor(80W / 49)`, the bytes F2BCD writes (43_bcd R153, 00_scope R6). -/
def fracBytes (w : Nat) : Nat := 8 * w + 80 * w / 49

/-- The decimal digits of n, two a byte, the LEAST significant byte first: "repeatedly divides a working copy of `src` by
10", one digit a division (43_bcd R151). -/
def intBcd : Nat → Nat → List Byte
  | 0, _ => []
  | count + 1, n => bcdByte (n / 10 % 10) (n % 10) :: intBcd count (n / 10 / 10)

/-- The decimal digits of the fraction `f / 2^(64W)`, two a byte, the MOST significant byte first: "repeatedly multiplies
a working copy of `src` by 10", each overflow being the next digit (43_bcd R153). -/
def fracBcd (w : Nat) : Nat → Nat → List Byte
  | 0, _ => []
  | count + 1, f =>
    let f' := f * 10 % 2 ^ (64 * w)
    bcdByte (f * 10 / 2 ^ (64 * w)) (f' * 10 / 2 ^ (64 * w)) :: fracBcd w count (f' * 10 % 2 ^ (64 * w))

/-- I2BCD pd, rs1: the decimal digits of register rs1, ending in the last byte of the pair, every byte above them 0; S is
unspecified afterwards (43_bcd R151). -/
def execI2bcd (pd rs1 : Nat) (s : State) : Host.Outcome State Fault Refusal :=
  perform (.i2bcd pd rs1) s fun s =>
    (s.setBytes pd (2 * s.cfg.w) (intBcd (16 * s.cfg.w) (s.val rs1 s.cfg.w)).reverse).clobberScratch

/-- F2BCD pd, rs1: the first 2B decimal digits of the binary fraction in rs1 from the first byte of the pair on, every byte
from B on 0; S is unspecified afterwards (43_bcd R153). -/
def execF2bcd (pd rs1 : Nat) (s : State) : Host.Outcome State Fault Refusal :=
  perform (.f2bcd pd rs1) s fun s =>
    (s.setBytes pd (2 * s.cfg.w)
      (fracBcd s.cfg.w (fracBytes s.cfg.w) (s.val rs1 s.cfg.w)
        ++ List.replicate (16 * s.cfg.w - fracBytes s.cfg.w) 0)).clobberScratch

end Sys2Proof.Machine
end

