-- ==== Sys2Proof/Machine/Flags.lean ====
section
/-! DEFINITION. The flags CF, ZF, GE and the control registers that show state as a 64-bit word (10_state R30 to R39). -/

namespace Sys2Proof.Machine

/-- `floor(T / 2^(64L))` as a bit: the carry out of word 0 of an L-word sum (41_carry_primitives R112, R113, R116). -/
def carryOut (T L : Nat) : Bool := decide (T / 2 ^ (64 * L) ≠ 0)

/-- `1 if T < 0 else 0`: the borrow out of an L-word difference (41_carry_primitives R114, R115). -/
def borrowOut (T : Int) : Bool := decide (T < 0)

/-- `1 if q == 0 else 0` (42_multiply_divide R134, 10_state R32). -/
def quotientZero (q : Nat) : Bool := decide (q = 0)

/-- `1 if a >= b else 0` (41_carry_primitives R117, 10_state R33). -/
def greaterOrEqual (a b : Nat) : Bool := decide (b ≤ a)

/-- FLAGS as the host reads it: bit 0 CF, bit 1 ZF, bit 2 GE, the rest 0 (10_state R30). -/
def flagsWord (s : State) : Word := BitVec.ofNat 64 (s.cf.toNat + 2 * s.zf.toNat + 4 * s.ge.toNat)

/-- A host write of FLAGS sets the three flags from bits 0, 1, 2 (10_state R30). -/
def setFlags (v : Word) (s : State) : State :=
  { s with cf := v.getLsbD 0, zf := v.getLsbD 1, ge := v.getLsbD 2 }

/-- STATUS as the host reads it: FAULT in bit 0, FCODE in bits 15:8, the rest 0 (10_state R36). -/
def statusWord (s : State) : Word := BitVec.ofNat 64 (s.fault.toNat + 2 ^ 8 * s.fcode.toNat)

/-- CONFIG: W in bits 31:0, NREG in bits 47:32, the rest 0 (10_state R38). -/
def configWord (cfg : Config) : Word := BitVec.ofNat 64 (cfg.w % 2 ^ 32 + 2 ^ 32 * (cfg.nreg % 2 ^ 16))

end Sys2Proof.Machine
end

