-- ==== Sys2Proof/Machine/Carry.lean ====
section
/-! DEFINITION. Carry-propagating primitives: SHW, ADD, ADC, SUB, SBB, ADDS, CMPGE (41_carry_primitives). Each rule is the
integer equation on `val`; the word-by-word procedures are in Machine/Procedures.lean. -/

namespace Sys2Proof.Machine

/-- The words of a register shifted right by n whole words (toward higher index, less significant), or left by -n words;
vacated words are 0 and words shifted out are lost (41_carry_primitives R111). -/
def shiftWords (old : List Word) (n : Int) : List Word :=
  if 0 ≤ n then List.replicate (min n.toNat old.length) 0 ++ old.take (old.length - n.toNat)
  else old.drop (-n).toNat ++ List.replicate (min (-n).toNat old.length) 0

/-- SHW rd, rs1, n: register rs1 shifted by whole words into register rd (41_carry_primitives R111). -/
def execShw (rd rs1 : Nat) (n : Int) (s : State) : Host.Outcome State Fault Refusal :=
  perform (.shw rd rs1 n) s fun s => s.setWords rd (shiftWords (s.words rs1 s.cfg.w) n)

/-- The L-word sum of the buffers at rd and rs1 with a carry in, into rd, and its carry out into CF
(41_carry_primitives R112, R113). -/
def addInto (s : State) (rd rs1 L carryIn : Nat) : State :=
  let T := s.val rd L + s.val rs1 L + carryIn
  { s.setVal rd L (T % 2 ^ (64 * L)) with cf := carryOut T L }

/-- ADD rd, rs1, L: carry in 0 (41_carry_primitives R112). -/
def execAdd (rd rs1 L : Nat) (s : State) : Host.Outcome State Fault Refusal :=
  perform (.add rd rs1 L) s fun s => addInto s rd rs1 L 0

/-- ADC rd, rs1, L: carry in from CF (41_carry_primitives R113). -/
def execAdc (rd rs1 L : Nat) (s : State) : Host.Outcome State Fault Refusal :=
  perform (.adc rd rs1 L) s fun s => addInto s rd rs1 L s.cf.toNat

/-- The L-word difference of the buffers at rd and rs1 with a borrow in, modulo 2^(64L), into rd, and its borrow out into
CF (41_carry_primitives R114, R115). -/
def subInto (s : State) (rd rs1 L borrowIn : Nat) : State :=
  let T : Int := (s.val rd L : Int) - (s.val rs1 L : Int) - (borrowIn : Int)
  { s.setVal rd L (T % 2 ^ (64 * L)).toNat with cf := borrowOut T }

/-- SUB rd, rs1, L: borrow in 0 (41_carry_primitives R114). -/
def execSub (rd rs1 L : Nat) (s : State) : Host.Outcome State Fault Refusal :=
  perform (.sub rd rs1 L) s fun s => subInto s rd rs1 L 0

/-- SBB rd, rs1, L: borrow in from CF (41_carry_primitives R115). -/
def execSbb (rd rs1 L : Nat) (s : State) : Host.Outcome State Fault Refusal :=
  perform (.sbb rd rs1 L) s fun s => subInto s rd rs1 L s.cf.toNat

/-- ADDS rd, idx: OPA added into word idx of the buffer at rd, the carry running toward word 0 and past it into CF
(41_carry_primitives R116). -/
def execAdds (rd idx : Nat) (s : State) : Host.Outcome State Fault Refusal :=
  perform (.adds rd idx) s fun s =>
    let T := s.val rd (idx + 1) + s.opa.toNat
    { s.setVal rd (idx + 1) (T % 2 ^ (64 * (idx + 1))) with cf := carryOut T (idx + 1) }

/-- CMPGE rs1, rs2: GE becomes whether `x[rs1] >= x[rs2]` (41_carry_primitives R117). -/
def execCmpge (rs1 rs2 : Nat) (s : State) : Host.Outcome State Fault Refusal :=
  perform (.cmpge rs1 rs2) s fun s => { s with ge := greaterOrEqual (s.val rs1 s.cfg.w) (s.val rs2 s.cfg.w) }

end Sys2Proof.Machine
end

