-- ==== Sys2Proof/Machine/MulDiv.lean ====
section
/-! DEFINITION. Multiply and divide: MULS, MUL, DIVS, DIV (42_multiply_divide). Each rule is the integer equation on `val`
(R130); the source's procedures are in Machine/Procedures.lean. -/

namespace Sys2Proof.Machine

/-- MULS rd, L: the L-word prefix times OPA, the 64 bits above it into RES (42_multiply_divide R131). -/
def execMuls (rd L : Nat) (s : State) : Host.Outcome State Fault Refusal :=
  perform (.muls rd L) s fun s =>
    let T := s.val rd L * s.opa.toNat
    { s.setVal rd L (T % 2 ^ (64 * L)) with res := BitVec.ofNat 64 (T / 2 ^ (64 * L)) }

/-- MUL pd, rs1, rs2: the full product into the pair (42_multiply_divide R132). -/
def execMul (pd rs1 rs2 : Nat) (s : State) : Host.Outcome State Fault Refusal :=
  perform (.mul pd rs1 rs2) s fun s =>
    s.setVal pd (2 * s.cfg.w) (s.val rs1 s.cfg.w * s.val rs2 s.cfg.w)

/-- DIVS rd, L: quotient by OPA in place, remainder into RES, ZF; for OPA = 0 the sentinel, ZF 0 and RES unchanged
(42_multiply_divide R134). -/
def execDivs (rd L : Nat) (s : State) : Host.Outcome State Fault Refusal :=
  perform (.divs rd L) s fun s =>
    if s.opa = 0 then { s.setWords rd (List.replicate L sentinel) with zf := false }
    else
      let V := s.val rd L
      let q := V / s.opa.toNat
      { s.setVal rd L q with res := BitVec.ofNat 64 (V % s.opa.toNat), zf := quotientZero q }

/-- The 2W words of `floor(N * 2^(64W) / D)`, integer half first; for D = 0 the sentinel (42_multiply_divide R136, R138). -/
def quotientWords (w N D : Nat) : List Word :=
  if D = 0 then List.replicate (2 * w) sentinel else valueWords (2 * w) (N * 2 ^ (64 * w) / D)

/-- DIV pd, rs1, rs2: integer and fractional quotient into the pair; S is unspecified afterwards
(42_multiply_divide R136, R138). -/
def execDiv (pd rs1 rs2 : Nat) (s : State) : Host.Outcome State Fault Refusal :=
  perform (.div pd rs1 rs2) s fun s =>
    (s.setWords pd (quotientWords s.cfg.w (s.val rs1 s.cfg.w) (s.val rs2 s.cfg.w))).clobberScratch

end Sys2Proof.Machine
end

