-- ==== Sys2Proof/Machine/Storage.lean ====
section
/-! DEFINITION. Storage and byte access: SET, MOV, GETB, SETB (40_storage). -/

namespace Sys2Proof.Machine

/-- SET rd, byteValue: every byte of register rd becomes b, each word being `b * 0x0101010101010101` (40_storage R101). -/
def execSet (rd : Nat) (b : Byte) (s : State) : Host.Outcome State Fault Refusal :=
  perform (.set rd b) s fun s =>
    s.setWords rd (List.replicate s.cfg.w (BitVec.ofNat 64 (b.toNat * 0x0101010101010101)))

/-- MOV rd, rs1: register rd becomes a copy of register rs1 (40_storage R102). -/
def execMov (rd rs1 : Nat) (s : State) : Host.Outcome State Fault Refusal :=
  perform (.mov rd rs1) s fun s => s.setWords rd (s.words rs1 s.cfg.w)

/-- GETB rs1, idx: RES becomes logical byte idx of the buffer at rs1, zero-extended (40_storage R103). -/
def execGetb (rs1 idx : Nat) (s : State) : Host.Outcome State Fault Refusal :=
  perform (.getb rs1 idx) s fun s => { s with res := (s.byte rs1 idx).setWidth 64 }

/-- SETB rd, idx: logical byte idx of the buffer at rd becomes OPA[7:0] (40_storage R104). -/
def execSetb (rd idx : Nat) (s : State) : Host.Outcome State Fault Refusal :=
  perform (.setb rd idx) s fun s => s.setByte rd idx (s.opa.setWidth 8)

end Sys2Proof.Machine
end

