-- ==== Sys2Proof/Machine/Text.lean ====
section
/-! DEFINITION. Text output: PRHEX, PRHEXZ, PRDIG, PRBCDI, PRBCDF (44_text_output). -/

namespace Sys2Proof.Machine

/-- The line break, `NL = 0x0A` (44_text_output R160). -/
def newline : Byte := 0x0A

/-- `hexchar`: `0`..`9`, `A`..`F` (44_text_output R160). -/
def hexChar (v : Nibble) : Byte :=
  if v.toNat < 10 then BitVec.ofNat 8 (0x30 + v.toNat) else BitVec.ofNat 8 (0x41 + (v.toNat - 10))

/-- `decchar`: 0x30 + v for every v in 0 .. 15 (44_text_output R160). -/
def decChar (v : Nibble) : Byte := BitVec.ofNat 8 (0x30 + v.toNat)

/-- `b[7:4]`. -/
def highNibble (b : Byte) : Nibble := b.extractLsb' 4 4

/-- `b[3:0]`. -/
def lowNibble (b : Byte) : Nibble := b.extractLsb' 0 4

/-- `hexdump`: two characters a byte and NL after every `width` bytes, none if `width` is 0; `cnt` is the number of bytes
already on the line (44_text_output R161). -/
def hexDump (width : Nat) : Nat → List Byte → List Byte
  | _, [] => []
  | cnt, b :: bs =>
    hexChar (highNibble b) :: hexChar (lowNibble b) ::
      (if width ≠ 0 ∧ cnt + 1 = width then newline :: hexDump width 0 bs else hexDump width (cnt + 1) bs)

/-- The bytes from the first one that is not 0x00; none if all are (44_text_output R162, R164). -/
def dropLeadingZeros : List Byte → List Byte
  | [] => []
  | b :: bs => if b = 0#8 then dropLeadingZeros bs else b :: bs

/-- The bytes up to the last one that is not 0x00; none if all are (44_text_output R165). -/
def dropTrailingZeros : List Byte → List Byte
  | [] => []
  | b :: bs =>
    match dropTrailingZeros bs with
    | [] => if b = 0#8 then [] else [b]
    | c :: cs => b :: c :: cs

/-- `printdigit` of each digit in turn (44_text_output R163): the characters, with NL after the digit that fills a line of
`width` digits (none if `width` is 0), and the column counter afterwards, which counts modulo 2^32. -/
def printedDigits (width : Nat) : BitVec 32 → List Nibble → List Byte × BitVec 32
  | col, [] => ([], col)
  | col, d :: ds =>
    if width ≠ 0 ∧ width ≤ (col + 1).toNat then
      let rest := printedDigits width 0 ds
      (decChar d :: newline :: rest.1, rest.2)
    else
      let rest := printedDigits width (col + 1) ds
      (decChar d :: rest.1, rest.2)

/-- Print digits: TXT and COL (44_text_output R163). -/
def printDigits (s : State) (ds : List Nibble) : State :=
  let printed := printedDigits s.cfg.decLineDigits s.col ds
  { s.emit printed.1 with col := printed.2 }

/-- The two digits of each byte, high nibble first (44_text_output R164). -/
def nibbles : List Byte → List Nibble
  | [] => []
  | b :: bs => highNibble b :: lowNibble b :: nibbles bs

/-- The digits PRBCDI prints: from the first non-zero byte, less its high nibble if that is zero (44_text_output R164). -/
def integerDigits (bytes : List Byte) : List Nibble :=
  match dropLeadingZeros bytes with
  | [] => []
  | b :: bs => if highNibble b = 0#4 then lowNibble b :: nibbles bs else nibbles (b :: bs)

/-- The digits PRBCDF prints: both digits of every byte up to the last non-zero one, at least byte 0 (44_text_output R165). -/
def fractionDigits (bytes : List Byte) : List Nibble :=
  match dropTrailingZeros bytes with
  | [] => nibbles (bytes.take 1)
  | b :: bs => nibbles (b :: bs)

/-- PRHEX rs1, lenBytes (44_text_output R161). -/
def execPrhex (rs1 lenBytes : Nat) (s : State) : Host.Outcome State Fault Refusal :=
  perform (.prhex rs1 lenBytes) s fun s => s.emit (hexDump s.cfg.hexLineBytes 0 (s.bytes rs1 lenBytes))

/-- PRHEXZ rs1, lenBytes: PRHEX from the first non-zero byte (44_text_output R162). -/
def execPrhexz (rs1 lenBytes : Nat) (s : State) : Host.Outcome State Fault Refusal :=
  perform (.prhexz rs1 lenBytes) s fun s =>
    s.emit (hexDump s.cfg.hexLineBytes 0 (dropLeadingZeros (s.bytes rs1 lenBytes)))

/-- PRDIG: prints the digit OPA[3:0] (44_text_output R163). -/
def execPrdig (s : State) : Host.Outcome State Fault Refusal :=
  perform .prdig s fun s => printDigits s [s.opa.setWidth 4]

/-- PRBCDI ps1: prints the pair as a decimal integer (44_text_output R164). -/
def execPrbcdi (ps1 : Nat) (s : State) : Host.Outcome State Fault Refusal :=
  perform (.prbcdi ps1) s fun s => printDigits s (integerDigits (s.bytes ps1 (16 * s.cfg.w)))

/-- PRBCDF ps1: prints the pair as a decimal fraction (44_text_output R165). -/
def execPrbcdf (ps1 : Nat) (s : State) : Host.Outcome State Fault Refusal :=
  perform (.prbcdf ps1) s fun s => printDigits s (fractionDigits (s.bytes ps1 (16 * s.cfg.w)))

end Sys2Proof.Machine
end

