-- ==== Sys2Proof/Machine/Dispatch.lean ====
section
/-! DEFINITION. The meaning of each command, one arm each, in the order of the opcode map (30_encoding R75). -/

namespace Sys2Proof.Machine

def exec (i : Instr) (s : State) : Host.Outcome State Fault Refusal :=
  match i with
  | .set rd b => Sys2Proof.Machine.execSet rd b s
  | .mov rd rs1 => Sys2Proof.Machine.execMov rd rs1 s
  | .getb rs1 idx => Sys2Proof.Machine.execGetb rs1 idx s
  | .setb rd idx => Sys2Proof.Machine.execSetb rd idx s
  | .shw rd rs1 n => Sys2Proof.Machine.execShw rd rs1 n s
  | .add rd rs1 len => Sys2Proof.Machine.execAdd rd rs1 len s
  | .adc rd rs1 len => Sys2Proof.Machine.execAdc rd rs1 len s
  | .sub rd rs1 len => Sys2Proof.Machine.execSub rd rs1 len s
  | .sbb rd rs1 len => Sys2Proof.Machine.execSbb rd rs1 len s
  | .adds rd idx => Sys2Proof.Machine.execAdds rd idx s
  | .cmpge rs1 rs2 => Sys2Proof.Machine.execCmpge rs1 rs2 s
  | .muls rd len => Sys2Proof.Machine.execMuls rd len s
  | .mul pd rs1 rs2 => Sys2Proof.Machine.execMul pd rs1 rs2 s
  | .divs rd len => Sys2Proof.Machine.execDivs rd len s
  | .div pd rs1 rs2 => Sys2Proof.Machine.execDiv pd rs1 rs2 s
  | .i2bcd pd rs1 => Sys2Proof.Machine.execI2bcd pd rs1 s
  | .f2bcd pd rs1 => Sys2Proof.Machine.execF2bcd pd rs1 s
  | .prhex rs1 lenBytes => Sys2Proof.Machine.execPrhex rs1 lenBytes s
  | .prhexz rs1 lenBytes => Sys2Proof.Machine.execPrhexz rs1 lenBytes s
  | .prdig => Sys2Proof.Machine.execPrdig s
  | .prbcdi ps1 => Sys2Proof.Machine.execPrbcdi ps1 s
  | .prbcdf ps1 => Sys2Proof.Machine.execPrbcdf ps1 s

end Sys2Proof.Machine
end

