-- ==== Sys2Proof/Machine/HostPort.lean ====
section
/-! DEFINITION. The host interface: control registers (10_state R34 to R39), the word and byte windows (20_memory R56, R57),
the write to CMD (10_state R35) and the reset event (70_reset_and_hazards R200). -/

namespace Sys2Proof.Machine

/-- A host write of the command word c to CMD (10_state R35): ignored entirely while FAULT is 1 (60_exceptions R186), else
decoded, and either faulted or performed. -/
def issueCommand (c : Word) (s : State) : Host.Outcome State Fault Refusal :=
  if s.fault then .next s
  else
    match decode c with
    | .error code => .next (raiseFault code c s)
    | .ok i => exec i s

/-- What a host read of control register n returns; none for a number that does not exist (10_state R34). -/
def controlValue (n : Nat) (s : State) : Option Word :=
  match n with
  | 0 => some 0
  | 1 => some s.opa
  | 2 => some s.res
  | 3 => some (flagsWord s)
  | 4 => some (statusWord s)
  | 5 => some s.fcmd
  | 6 => some (configWord s.cfg)
  | 7 => some (s.col.setWidth 64)
  | _ => none

/-- A host write of control register n (10_state R34): RES, FCMD and CONFIG are read-only, STATUS is cleared by writing 1 to
bit 0 (R36), COL keeps 32 bits (R39). -/
def writeControl (n : Nat) (v : Word) (s : State) : Host.Outcome State Fault Refusal :=
  match n with
  | 0 => issueCommand v s
  | 1 => .next { s with opa := v }
  | 2 => .next s
  | 3 => .next (setFlags v s)
  | 4 => .next (if v.getLsbD 0 then faultReturn s else s)
  | 5 => .next s
  | 6 => .next s
  | 7 => .next { s with col := v.setWidth 32 }
  | _ => .fault .noSuchControlRegister

/-- The flat word index a is in the word window (20_memory R56). -/
def wordInWindow (cfg : Config) (a : Nat) : Bool := decide (a < cfg.nreg * cfg.w)

/-- The physical byte address p is in the byte window (20_memory R57). -/
def byteInWindow (cfg : Config) (p : Nat) : Bool := decide (p < cfg.nreg * (8 * cfg.w))

/-- A read's value goes to the host; the engine is unchanged (10_state R34, 20_memory R60, log entry 6). -/
def reply (r : Reply) (s : State) : State := { s with replies := s.replies ++ [r] }

/-- One host transaction, one indivisible step (20_memory R60). -/
def transact (t : HostTransaction) (s : State) : Host.Outcome State Fault Refusal :=
  match t with
  | .writeControl n v => writeControl n v s
  | .readControl n =>
    match controlValue n s with
    | some v => .next (reply (.word v) s)
    | none => .fault .noSuchControlRegister
  | .writeWord a v =>
    if wordInWindow s.cfg a then .next { s with rf := writeWord s.rf a v } else .fault .noSuchWindowAddress
  | .readWord a =>
    if wordInWindow s.cfg a then .next (reply (.word (readWord s.rf a)) s) else .fault .noSuchWindowAddress
  | .writeByte p b =>
    if byteInWindow s.cfg p then .next { s with rf := writeByte s.rf p b } else .fault .noSuchWindowAddress
  | .readByte p =>
    if byteInWindow s.cfg p then .next (reply (.byte (readByte s.rf p)) s) else .fault .noSuchWindowAddress
  | .reset => .next (resetEvent s)

/-- The host's next transaction is a write of c to CMD, which the engine will run: a pending fault, which would make it
ignore the write (60_exceptions R186), is cleared (log entry 10). -/
def withCommandNext (c : Word) (s : State) : State :=
  { faultReturn s with pending := .writeControl 0 c :: s.pending }

end Sys2Proof.Machine
end

