-- ==== Sys2Proof/Machine/Step.lean ====
section
/-! DEFINITION. One step: the host's next transaction (00_scope R7, 20_memory R63; log entry 5). -/

namespace Sys2Proof.Machine

/-- Perform the first of the host's transactions. With none left nothing happens: the engine takes no step of its own
(00_scope R7, 70_reset_and_hazards R212). -/
def step (s : State) : Host.Outcome State Fault Refusal :=
  match s.pending with
  | [] => .next s
  | t :: rest => transact t { s with pending := rest }

/-- `s` with the command word of an opcode-table row as the host's next write to CMD (log entries 5 and 10). -/
def State.withFetchWord (s : State) (nbits w : Nat) : State := withCommandNext (tableWord nbits w) s

end Sys2Proof.Machine
end

