-- ==== Sys2Proof/Machine/Procedures.lean ====
section
/-! DEFINITION. The word-level primitives (00_scope R11) and the word-by-word procedures the spec gives beside the integer
equations: they produce the same words (42_multiply_divide R130), which the obligations state. A buffer is its list of words,
word 0 (most significant) first, so the tail of a list is its less significant part. No meaning calls them. -/

namespace Sys2Proof.Machine

/-- `adc64(a, b, c)`: sum and carry out (00_scope R11). -/
def adc64 (a b : Word) (c : Bool) : Word × Bool :=
  let t := a.toNat + b.toNat + c.toNat
  (BitVec.ofNat 64 (t % 2 ^ 64), decide (t / 2 ^ 64 ≠ 0))

/-- `sbb64(a, b, c)`: difference modulo 2^64 and borrow out (00_scope R11). -/
def sbb64 (a b : Word) (c : Bool) : Word × Bool :=
  let t : Int := (a.toNat : Int) - (b.toNat : Int) - (c.toNat : Int)
  (BitVec.ofInt 64 (t % 2 ^ 64), decide (t < 0))

/-- `mul64(a, b)`: high and low word of the product (00_scope R11). -/
def mul64 (a b : Word) : Word × Word :=
  let t := a.toNat * b.toNat
  (BitVec.ofNat 64 (t / 2 ^ 64), BitVec.ofNat 64 (t % 2 ^ 64))

/-- `div128(hi, lo, d)`: quotient and remainder of the two-word number by d, for hi < d (00_scope R11). -/
def div128 (hi lo d : Word) : Word × Word :=
  let t := hi.toNat * 2 ^ 64 + lo.toNat
  (BitVec.ofNat 64 (t / d.toNat), BitVec.ofNat 64 (t % d.toNat))

/-- `for k = L-1 downto 0: (x[k], c) <- adc64(x[k], y[k], c)` (41_carry_primitives R112, R113). -/
def addChain : List Word → List Word → Bool → List Word × Bool
  | x :: xs, y :: ys, c =>
    let low := addChain xs ys c
    let r := adc64 x y low.2
    (r.1 :: low.1, r.2)
  | _, _, c => ([], c)

/-- `for k = L-1 downto 0: (x[k], c) <- sbb64(x[k], y[k], c)` (41_carry_primitives R114, R115). -/
def subChain : List Word → List Word → Bool → List Word × Bool
  | x :: xs, y :: ys, c =>
    let low := subChain xs ys c
    let r := sbb64 x y low.2
    (r.1 :: low.1, r.2)
  | _, _, c => ([], c)

/-- ADDS word by word: v into the last word, then the carry toward word 0, where adding 0 "changes nothing once c = 0"
(41_carry_primitives R116). -/
def addScalarChain (xs : List Word) (v : Word) : List Word × Bool :=
  addChain xs (List.replicate (xs.length - 1) 0 ++ [v]) false

/-- MULS word by word, from the least significant word, with a 64-bit carry word (42_multiply_divide R131). -/
def mulScalarChain (v : Word) : List Word → List Word × Word
  | [] => ([], 0)
  | x :: xs =>
    let low := mulScalarChain v xs
    let p := mul64 x v
    let r := adc64 p.2 low.2 false
    (r.1 :: low.1, p.1 + BitVec.ofNat 64 r.2.toNat)

/-- DIVS word by word for a divisor other than 0, from the most significant word, with the running remainder r and z for
"every quotient word so far is zero" (42_multiply_divide R134). -/
def divScalarChain (d : Word) : Word → Bool → List Word → List Word × Word × Bool
  | r, z, [] => ([], r, z)
  | r, z, x :: xs =>
    let qr := div128 r x d
    let low := divScalarChain d qr.2 (z && decide (qr.1 = 0)) xs
    (qr.1 :: low.1, low.2)

/-- Add v into word idx of the accumulator, the carry propagating toward word 0 (42_multiply_divide R133). -/
def accumulate (acc : List Word) (idx : Nat) (v : Word) : List Word :=
  (addScalarChain (acc.take (idx + 1)) v).1 ++ acc.drop (idx + 1)

/-- The inner loop of the schoolbook product for word i of x: `for j = W-1 downto 0` (42_multiply_divide R133). -/
def schoolbookRow (x : Word) (ys : List Word) (i : Nat) (acc : List Word) : List Word :=
  (List.range ys.length).reverse.foldl
    (fun acc j =>
      let p := mul64 x (ys.getD j 0)
      accumulate (accumulate acc (i + j + 1) p.2) (i + j) p.1)
    acc

/-- MUL by the source's procedure: "for each word of x from least to most significant, for each word of y from least to
most significant" (42_multiply_divide R133). -/
def schoolbook (xs ys : List Word) : List Word :=
  (List.range xs.length).reverse.foldl
    (fun acc i => schoolbookRow (xs.getD i 0) ys i acc)
    (List.replicate (xs.length + ys.length) 0)

/-- One step of the restoring division: shift R left, inject bit b, and subtract D if it fits, giving the new R and the
quotient bit. `2*R + b` is formed exactly (42_multiply_divide R137). -/
def restoringStep (D R b : Nat) : Nat × Nat :=
  if D ≤ 2 * R + b then (2 * R + b - D, 1) else (2 * R + b, 0)

/-- DIV by the source's procedure: the quotient after 128W steps, most significant bit first, over the numerator's bits and
then over 0-bits (42_multiply_divide R137). -/
def restoringQuotient (w N D : Nat) : Nat :=
  ((List.range (128 * w)).foldl
    (fun (RQ : Nat × Nat) t =>
      let b := if t < 64 * w then N / 2 ^ (64 * w - 1 - t) % 2 else 0
      let r := restoringStep D RQ.1 b
      (r.1, RQ.2 + r.2 * 2 ^ (128 * w - 1 - t)))
    (0, 0)).2

/-- The loop of I2BCD over a working copy S of the source: one scalar division by 10 a digit, until S is zero; `low` says
that the next digit goes into a low nibble. The pair is its 16W logical bytes (43_bcd R152). The first argument bounds the
number of digits. -/
def intBcdLoop : Nat → List Word → Nat → Bool → List Byte → List Byte
  | 0, _, _, _, pair => pair
  | fuel + 1, S, i, low, pair =>
    let r := divScalarChain 10 0 true S
    let digit := r.2.1.toNat
    let pair' :=
      if low then pair.set i (bcdByte 0 digit)
      else pair.set i (BitVec.ofNat 8 ((pair.getD i 0).toNat + 16 * digit))
    if r.2.2 then pair' else intBcdLoop fuel r.1 (if low then i else i - 1) (!low) pair'

/-- I2BCD by the source's procedure on the W words of the source register; a pair holds 32W digits (43_bcd R152). -/
def intBcdProcedure (w : Nat) (S : List Word) : List Byte :=
  intBcdLoop (32 * w) S (16 * w - 1) true (List.replicate (16 * w) 0)

/-- The loop of F2BCD: two scalar multiplications by 10 of the working copy S a byte (43_bcd R154). -/
def fracBcdLoop : Nat → List Word → List Byte
  | 0, _ => []
  | count + 1, S =>
    let hi := mulScalarChain 10 S
    let lo := mulScalarChain 10 hi.1
    bcdByte hi.2.toNat lo.2.toNat :: fracBcdLoop count lo.1

/-- F2BCD by the source's procedure: B bytes of digits, then zeros to the end of the pair (43_bcd R154). -/
def fracBcdProcedure (w : Nat) (S : List Word) : List Byte :=
  fracBcdLoop (fracBytes w) S ++ List.replicate (16 * w - fracBytes w) 0

end Sys2Proof.Machine
end

