-- ==== Sys2Proof/WellFormed.lean ====
section
/-! DEFINITION. Which commands a command word can hold: each operand in the range of its field (30_encoding R71, R73). Whether
the operands are legal for a configuration is checked by the engine, which faults (Machine/Operands.lean). -/

namespace Sys2Proof

/-- A register number fits its 8-bit field (30_encoding R74). -/
def registerFits (r : Nat) : Bool := decide (r < 2 ^ 8)

/-- A length, index or byte count fits the 32-bit field N (30_encoding R73). -/
def countFits (n : Nat) : Bool := decide (n < 2 ^ 32)

/-- SHW's count is a 32-bit two's-complement number (30_encoding R73). -/
def shiftFits (n : Int) : Bool := decide (-2 ^ 31 ≤ n ∧ n < 2 ^ 31)

/-- Every operand of the command fits the field that holds it. -/
def wellFormed : Instr → Bool
  | .set rd _ => registerFits rd
  | .mov rd rs1 => registerFits rd && registerFits rs1
  | .getb rs1 idx => registerFits rs1 && countFits idx
  | .setb rd idx => registerFits rd && countFits idx
  | .shw rd rs1 n => registerFits rd && registerFits rs1 && shiftFits n
  | .add rd rs1 len => registerFits rd && registerFits rs1 && countFits len
  | .adc rd rs1 len => registerFits rd && registerFits rs1 && countFits len
  | .sub rd rs1 len => registerFits rd && registerFits rs1 && countFits len
  | .sbb rd rs1 len => registerFits rd && registerFits rs1 && countFits len
  | .adds rd idx => registerFits rd && countFits idx
  | .cmpge rs1 rs2 => registerFits rs1 && registerFits rs2
  | .muls rd len => registerFits rd && countFits len
  | .mul pd rs1 rs2 => registerFits pd && registerFits rs1 && registerFits rs2
  | .divs rd len => registerFits rd && countFits len
  | .div pd rs1 rs2 => registerFits pd && registerFits rs1 && registerFits rs2
  | .i2bcd pd rs1 => registerFits pd && registerFits rs1
  | .f2bcd pd rs1 => registerFits pd && registerFits rs1
  | .prhex rs1 lenBytes => registerFits rs1 && countFits lenBytes
  | .prhexz rs1 lenBytes => registerFits rs1 && countFits lenBytes
  | .prdig => true
  | .prbcdi ps1 => registerFits ps1
  | .prbcdf ps1 => registerFits ps1

end Sys2Proof
end

