-- ==== Sys2Proof/Safety.lean ====
section
/-! DEFINITION. The terms claims are stated in: when an operand exists, what a transition leaves alone, which commands write
which state (10_state R28 to R30, R39, R40), and the invariant of the machine. -/

namespace Sys2Proof.Machine

/-- Register r exists and the E words from its first one lie in the register file (60_exceptions R183). -/
abbrev State.holds (s : State) (r E : Nat) : Prop :=
  r < s.cfg.nreg ∧ r * s.cfg.w + E ≤ s.cfg.nreg * s.cfg.w

/-- The L-word buffers at two registers are the same one or have no word in common (60_exceptions R184). -/
abbrev State.sameOrApart (s : State) (rd rs1 L : Nat) : Prop :=
  rd = rs1 ∨ rd * s.cfg.w + L ≤ rs1 * s.cfg.w ∨ rs1 * s.cfg.w + L ≤ rd * s.cfg.w

/-- Register r is not one of the two registers of the pair at pd (60_exceptions R184). -/
abbrev outsidePair (pd r : Nat) : Prop := r ≠ pd ∧ r ≠ pd + 1

/-- Every byte of the register file outside the L words from register r's first one reads as before. -/
def State.sameOutside (s t : State) (r L : Nat) : Prop :=
  ∀ q, (q < r * (8 * s.cfg.w) ∨ r * (8 * s.cfg.w) + 8 * L ≤ q) → readByte t.rf q = readByte s.rf q

/-- The command takes the engine fault: FAULT, FCODE and FCMD and nothing else (60_exceptions R181). -/
def State.faults (s : State) (i : Instr) (code : FaultCode) : Prop :=
  exec i s = .next { s with fault := true, fcode := faultByte code, fcmd := encode i }

/-- `hexchar(v)` by its code (44_text_output R160). -/
def hexCode (v : Nat) : Byte := BitVec.ofNat 8 (if v < 10 then 0x30 + v else 0x41 + (v - 10))

/-- `out` is the dump of n bytes in lines of `width` bytes, of any length if `width` is 0 (44_text_output R161): two hexadecimal
characters a byte, the line break 0x0A after every `width` bytes, and nothing else. Byte i stands after i other bytes and
`i / width` line breaks, and `i / 0` is 0. -/
def isHexDump (width n : Nat) (byte : Nat → Byte) (out : List Byte) : Prop :=
  out.length = 2 * n + n / width ∧
    (∀ i < n, out[2 * i + i / width]? = some (hexCode ((byte i).toNat / 16)) ∧
      out[2 * i + i / width + 1]? = some (hexCode ((byte i).toNat % 16))) ∧
    ∀ j < n / width, out[2 * ((j + 1) * width) + j]? = some 0x0A#8

/-- The two decimal digits of each of the bytes `byte a`, `byte (a+1)`, ... (n of them), high nibble first (44_text_output
R164). -/
def digitPairs (byte : Nat → Byte) (a n : Nat) : List Nibble :=
  (List.range n).flatMap fun i => [(byte (a + i)).extractLsb' 4 4, (byte (a + i)).extractLsb' 0 4]

/-- The commands that write the register file (40_storage to 43_bcd). -/
def storesToRf : Instr → Bool
  | .set _ _ | .mov _ _ | .setb _ _ | .shw _ _ _ | .add _ _ _ | .adc _ _ _ | .sub _ _ _ | .sbb _ _ _ | .adds _ _ => true
  | .muls _ _ | .mul _ _ _ | .divs _ _ | .div _ _ _ | .i2bcd _ _ | .f2bcd _ _ => true
  | .getb _ _ | .cmpge _ _ | .prhex _ _ | .prhexz _ _ | .prdig | .prbcdi _ | .prbcdf _ => false

/-- "GETB writes the byte read; MULS writes the 64-bit carry-out; DIVS ...; no other command writes it" (10_state R29). -/
def writesRes : Instr → Bool
  | .getb _ _ | .muls _ _ | .divs _ _ => true
  | _ => false

/-- The commands that write CF (10_state R30). -/
def writesCf : Instr → Bool
  | .add _ _ _ | .adc _ _ _ | .sub _ _ _ | .sbb _ _ _ | .adds _ _ => true
  | _ => false

/-- The command that writes ZF (10_state R30). -/
def writesZf : Instr → Bool
  | .divs _ _ => true
  | _ => false

/-- The command that writes GE (10_state R30). -/
def writesGe : Instr → Bool
  | .cmpge _ _ => true
  | _ => false

/-- The commands that print (10_state R40, 44_text_output R160). -/
def printsText : Instr → Bool
  | .prhex _ _ | .prhexz _ _ | .prdig | .prbcdi _ | .prbcdf _ => true
  | _ => false

/-- The commands that count printed digits in COL (10_state R39). -/
def countsColumns : Instr → Bool
  | .prdig | .prbcdi _ | .prbcdf _ => true
  | _ => false

/-- The commands after which S is unspecified (10_state R26). -/
def usesScratch : Instr → Bool
  | .div _ _ _ | .i2bcd _ _ | .f2bcd _ _ => true
  | _ => false

/-- Two states that differ in nothing but the hidden scratch register (10_state R26). -/
def State.sameButScratch (s t : State) : Prop := t = { s with scratch := t.scratch }

/-- What holds of every state the machine can be in: the parameters are in range, the register file is in canonical form
and lists no address outside it, S has W words, and the fault record is empty while FAULT is 0 and otherwise the word
that faulted with the code it faulted with (10_state R36, R37, 60_exceptions R185). -/
def State.Inv (s : State) : Prop :=
  s.cfg.valid ∧ Memory.wf s.rf ∧ (∀ c ∈ s.rf, c.1 < s.cfg.nreg * (8 * s.cfg.w)) ∧ s.scratch.length = s.cfg.w ∧
    (s.fault = false → s.fcode = 0 ∧ s.fcmd = 0) ∧
    (s.fault = true → ∃ code, wordFault s.cfg s.fcmd = some code ∧ s.fcode = faultByte code)

end Sys2Proof.Machine
end

