-- ==== Sys2Proof/Certificates/Slice0/Obligations.lean ====
section
/-! DEFINITION. What is claimed of the machine, for the provers. Each statement names the rules of spec/ it formalises. -/

open Sys2Proof Sys2Proof.Machine

/-! ### Encoding -/

/-- 30_encoding R78: encoding then decoding a command gives it back, for every command and every operand value the
encoding admits. R78 is marked derived in the spec. -/
def Obligations.DecodeOfEncodeIsTheCommand : Prop :=
  ∀ i : Instr, wellFormed i = true → decode (encode i) = .ok i

/-- 30_encoding R78: a word that decodes is the word of the command it decodes to, so no two words are one command and no
word is two. R78 is marked derived in the spec. -/
def Obligations.EncodeOfDecodeIsTheWord : Prop :=
  ∀ (c : Word) (i : Instr), decode c = .ok i → wellFormed i = true ∧ encode i = c

/-- 30_encoding R76, R77: a word is a row's command if and only if `c AND mask = match`; with the row's opcode and another
reserved bit set it is RESERVED_NONZERO; with no row's opcode it is ILLEGAL_OPCODE whatever its other fields hold. -/
def Obligations.DecodeMatchesOpcodeTable : Prop :=
  ∀ c : Word,
    (∀ row ∈ opcodeTable,
      ((c.toNat &&& row.mask = row.pattern) ↔ ∃ i, decode c = .ok i ∧ mnemonicOf i = row.mnemonic) ∧
      (c.toNat % 256 = row.pattern → c.toNat &&& row.mask ≠ row.pattern → decode c = .error .reservedNonzero)) ∧
    ((∀ row ∈ opcodeTable, c.toNat % 256 ≠ row.pattern) → decode c = .error .illegalOpcode)

/-- 30_encoding R82 and 95_test_vectors section 3: worked encodings decode to the commands they stand for, and the all-zero
and all-one words are illegal (R77). A sanity statement on fixed words. -/
def Obligations.WorkedEncodingsDecode : Prop :=
  decode 0x000000A500000301#64 = .ok (.set 3 0xA5) ∧ decode 0x0000000900010003#64 = .ok (.getb 1 9) ∧
    decode 0xFFFFFFFF00000110#64 = .ok (.shw 1 0 (-1)) ∧ decode 0x0000000200020011#64 = .ok (.add 0 2 2) ∧
    decode 0x0000000001000421#64 = .ok (.mul 4 0 1) ∧ decode 0x0000100000000022#64 = .ok (.divs 0 4096) ∧
    decode 0x0000000000030431#64 = .ok (.f2bcd 4 3) ∧ decode 0x0000000000060035#64 = .ok (.prbcdi 6) ∧
    decode 0x0000000901000016#64 = .error .reservedNonzero ∧ decode 0#64 = .error .illegalOpcode ∧
    decode 0xFFFFFFFFFFFFFFFF#64 = .error .illegalOpcode

/-! ### The step, faults and control registers -/

/-- 10_state R35, 00_scope R7: when the host's next transaction writes a word to CMD, FAULT is 0 and the word decodes to a
command, the step is that command's transition on the state whose host has one transaction less to do; and the host's hook
withFetchWord makes the very next step run its word. The list of transactions and the hook are the model's (log entries 5,
10). -/
def Obligations.StepRunsTheDecodedCommand : Prop :=
  (∀ (s : State) (c : Word) (rest : List HostTransaction) (i : Instr),
    s.pending = .writeControl 0 c :: rest → s.fault = false → decode c = .ok i →
      step s = exec i { s with pending := rest }) ∧
  (∀ (s : State) (nbits w : Nat) (i : Instr), decodeTableWord nbits w = some i →
    step (s.withFetchWord nbits w) = exec i (faultReturn s))

/-- 60_exceptions R181: a word one of whose checks fails sets FAULT, FCODE and FCMD, the whole word, and changes nothing else. -/
def Obligations.FaultEntryChangesOnlyTheRecord : Prop :=
  ∀ (s : State) (c : Word) (code : FaultCode), s.fault = false → wordFault s.cfg c = some code →
    issueCommand c s = .next { s with fault := true, fcode := faultByte code, fcmd := c }

/-- 60_exceptions R182: "If all pass, the command is performed and cannot fault afterwards": a word that passes every check
decodes to a command that no operand check refuses, the write of it is that command's transition, and the fault record stays
as it was. -/
def Obligations.PassedChecksNeverFault : Prop :=
  ∀ (s : State) (c : Word), s.fault = false → wordFault s.cfg c = none →
    ∃ i t, decode c = .ok i ∧ operandFault s.cfg i = none ∧ issueCommand c s = exec i s ∧ exec i s = .next t ∧
      t.fault = false ∧ t.fcode = s.fcode ∧ t.fcmd = s.fcmd

/-- 60_exceptions R180: "no content of any register, and no value of OPA, ever makes a command fault": whether a word
faults, and with what record, is the same in any two states of one configuration. -/
def Obligations.FaultsDependOnWordAndParametersOnly : Prop :=
  ∀ (s u s' u' : State) (c : Word), s.cfg = u.cfg → s.fault = false → u.fault = false →
    issueCommand c s = .next s' → issueCommand c u = .next u' →
      s'.fault = u'.fault ∧ (s'.fault = true → s'.fcode = u'.fcode ∧ s'.fcmd = u'.fcmd)

/-- 60_exceptions R186: while FAULT is 1 a write to CMD changes nothing, no transaction but the fault return and reset changes
the recorded fault, and the other transactions work as usual: writes of OPA, FLAGS, COL and the read-only registers, reads of
every control register, and reads and writes of the word window and of the byte window. That what a read returns is appended
to State.replies is the model's (log entry 6). -/
def Obligations.FaultedEngineIgnoresCommands : Prop :=
  ∀ s : State, s.fault = true →
    (∀ c, transact (.writeControl 0 c) s = .next s) ∧
    (∀ tr u, transact tr s = .next u → tr ≠ .reset → (∀ v, tr = .writeControl 4 v → v.getLsbD 0 = false) →
      u.fault = true ∧ u.fcode = s.fcode ∧ u.fcmd = s.fcmd) ∧
    (∀ v, transact (.writeControl 1 v) s = .next { s with opa := v }) ∧
    (∀ v, transact (.writeControl 3 v) s =
      .next { s with cf := v.getLsbD 0, zf := v.getLsbD 1, ge := v.getLsbD 2 }) ∧
    (∀ v, transact (.writeControl 7 v) s = .next { s with col := v.setWidth 32 }) ∧
    (∀ a v, a < s.cfg.nreg * s.cfg.w →
      ∃ u, transact (.writeWord a v) s = .next u ∧ u = { s with rf := u.rf } ∧ readWord u.rf a = v ∧
        ∀ b, b ≠ a → readWord u.rf b = readWord s.rf b) ∧
    (∀ p b, p < s.cfg.nreg * (8 * s.cfg.w) →
      ∃ u, transact (.writeByte p b) s = .next u ∧ u = { s with rf := u.rf } ∧ readByte u.rf p = b ∧
        ∀ q, q ≠ p → readByte u.rf q = readByte s.rf q) ∧
    (∀ n v, n = 2 ∨ n = 5 ∨ n = 6 → transact (.writeControl n v) s = .next s) ∧
    (∀ n, n < 8 → ∃ x, controlValue n s = some x ∧
      transact (.readControl n) s = .next { s with replies := s.replies ++ [.word x] }) ∧
    (∀ a, a < s.cfg.nreg * s.cfg.w →
      transact (.readWord a) s = .next { s with replies := s.replies ++ [.word (readWord s.rf a)] }) ∧
    (∀ p, p < s.cfg.nreg * (8 * s.cfg.w) →
      transact (.readByte p) s = .next { s with replies := s.replies ++ [.byte (readByte s.rf p)] })

/-- 60_exceptions R187, 10_state R36: a host write to STATUS with bit 0 = 1 clears FAULT, FCODE and FCMD and changes nothing
else, and does nothing when FAULT is already 0; with bit 0 = 0 it does nothing. The list of transactions is the model's (log
entry 5). -/
def Obligations.FaultReturnClearsTheRecord : Prop :=
  ∀ (s : State) (v : Word) (rest : List HostTransaction), s.pending = .writeControl 4 v :: rest →
    (v.getLsbD 0 = true → s.fault = true →
      step s = .next { s with pending := rest, fault := false, fcode := 0, fcmd := 0 }) ∧
    (v.getLsbD 0 = true → s.fault = false → step s = .next { s with pending := rest }) ∧
    (v.getLsbD 0 = false → step s = .next { s with pending := rest })

/-- 60_exceptions R183, 30_encoding R73: N outside the command's range faults BAD_LENGTH, whatever the registers are. -/
def Obligations.CountsOutOfRangeFaultBadLength : Prop :=
  ∀ (s : State) (rd rs1 n : Nat),
    (2 * s.cfg.w < n → s.faults (.add rd rs1 n) .badLength ∧ s.faults (.adc rd rs1 n) .badLength ∧
      s.faults (.sub rd rs1 n) .badLength ∧ s.faults (.sbb rd rs1 n) .badLength ∧
      s.faults (.muls rd n) .badLength ∧ s.faults (.divs rd n) .badLength) ∧
    (16 * s.cfg.w ≤ n → s.faults (.getb rs1 n) .badLength ∧ s.faults (.setb rd n) .badLength) ∧
    (2 * s.cfg.w ≤ n → s.faults (.adds rd n) .badLength) ∧
    (16 * s.cfg.w < n → s.faults (.prhex rs1 n) .badLength ∧ s.faults (.prhexz rs1 n) .badLength)

/-- 60_exceptions R183: a register that does not exist, an extent that runs past the register file, and a pair at the last
register fault BAD_REGISTER when N is in range. -/
def Obligations.MissingOperandsFaultBadRegister : Prop :=
  ∀ (s : State) (r x y n : Nat) (b : Byte) (k : Int), 1 ≤ s.cfg.w →
    (s.cfg.nreg ≤ r → s.faults (.set r b) .badRegister ∧ s.faults (.mov r x) .badRegister ∧
      s.faults (.mov x r) .badRegister ∧ s.faults (.shw r x k) .badRegister ∧ s.faults (.shw x r k) .badRegister ∧
      s.faults (.cmpge r x) .badRegister ∧ s.faults (.cmpge x r) .badRegister ∧
      s.faults (.mul x r y) .badRegister ∧ s.faults (.mul x y r) .badRegister ∧
      s.faults (.div x r y) .badRegister ∧ s.faults (.div x y r) .badRegister ∧
      s.faults (.i2bcd x r) .badRegister ∧ s.faults (.f2bcd x r) .badRegister) ∧
    (s.cfg.nreg ≤ r + 1 → s.faults (.mul r x y) .badRegister ∧ s.faults (.div r x y) .badRegister ∧
      s.faults (.i2bcd r x) .badRegister ∧ s.faults (.f2bcd r x) .badRegister ∧
      s.faults (.prbcdi r) .badRegister ∧ s.faults (.prbcdf r) .badRegister) ∧
    (n ≤ 2 * s.cfg.w → ¬ s.holds r n → s.faults (.add r x n) .badRegister ∧ s.faults (.add x r n) .badRegister ∧
      s.faults (.adc r x n) .badRegister ∧ s.faults (.adc x r n) .badRegister ∧
      s.faults (.sub r x n) .badRegister ∧ s.faults (.sub x r n) .badRegister ∧
      s.faults (.sbb r x n) .badRegister ∧ s.faults (.sbb x r n) .badRegister ∧
      s.faults (.muls r n) .badRegister ∧ s.faults (.divs r n) .badRegister) ∧
    (n < 2 * s.cfg.w → ¬ s.holds r (n + 1) → s.faults (.adds r n) .badRegister) ∧
    (n < 16 * s.cfg.w → ¬ s.holds r (n / 8 + 1) →
      s.faults (.getb r n) .badRegister ∧ s.faults (.setb r n) .badRegister) ∧
    (n ≤ 16 * s.cfg.w → ¬ s.holds r ((n + 7) / 8) →
      s.faults (.prhex r n) .badRegister ∧ s.faults (.prhexz r n) .badRegister)

/-- 60_exceptions R184: the in-place commands fault OVERLAP exactly when the registers differ and `|rd - rs1| * W < L`, "that
is, when L > W and the registers are adjacent"; the pair commands exactly when a source is pd or pd + 1. -/
def Obligations.PartialOverlapFaults : Prop :=
  ∀ (s : State) (rd rs1 rs2 L : Nat), 1 ≤ s.cfg.w →
    (L ≤ 2 * s.cfg.w → s.holds rd L → s.holds rs1 L →
      (s.cfg.w < L ∧ (rd = rs1 + 1 ∨ rs1 = rd + 1)) →
        s.faults (.add rd rs1 L) .overlap ∧ s.faults (.adc rd rs1 L) .overlap ∧
        s.faults (.sub rd rs1 L) .overlap ∧ s.faults (.sbb rd rs1 L) .overlap) ∧
    (L ≤ 2 * s.cfg.w → s.holds rd L → s.holds rs1 L →
      ¬ (s.cfg.w < L ∧ (rd = rs1 + 1 ∨ rs1 = rd + 1)) → s.sameOrApart rd rs1 L ∧
        operandFault s.cfg (.add rd rs1 L) = none ∧ operandFault s.cfg (.adc rd rs1 L) = none ∧
        operandFault s.cfg (.sub rd rs1 L) = none ∧ operandFault s.cfg (.sbb rd rs1 L) = none) ∧
    (rd + 1 < s.cfg.nreg → rs1 < s.cfg.nreg → rs2 < s.cfg.nreg →
      ((¬ outsidePair rd rs1 ∨ ¬ outsidePair rd rs2) →
        s.faults (.mul rd rs1 rs2) .overlap ∧ s.faults (.div rd rs1 rs2) .overlap) ∧
      (¬ outsidePair rd rs1 → s.faults (.i2bcd rd rs1) .overlap ∧ s.faults (.f2bcd rd rs1) .overlap) ∧
      (outsidePair rd rs1 → outsidePair rd rs2 → operandFault s.cfg (.mul rd rs1 rs2) = none ∧
        operandFault s.cfg (.div rd rs1 rs2) = none) ∧
      (outsidePair rd rs1 → operandFault s.cfg (.i2bcd rd rs1) = none ∧ operandFault s.cfg (.f2bcd rd rs1) = none))

/-- 10_state R30, R34, R36, R38, R39: what the host reads back from a control register it wrote, the reserved bits that
stay 0, the read-only registers, and that a read has no side effect on the engine. That what a read returns is appended to
State.replies is the model's (log entry 6). -/
def Obligations.ControlRegistersReadAndWrite : Prop :=
  ∀ (s : State) (v : Word), s.cfg.valid →
    (∃ t, writeControl 1 v s = .next t ∧ controlValue 1 t = some v ∧ t = { s with opa := v }) ∧
    (∃ t, writeControl 3 v s = .next t ∧ controlValue 3 t = some (v &&& 7#64) ∧
      t = { s with cf := t.cf, zf := t.zf, ge := t.ge }) ∧
    (∃ t, writeControl 7 v s = .next t ∧ controlValue 7 t = some (v &&& 0xFFFFFFFF#64) ∧ t = { s with col := t.col }) ∧
    (writeControl 2 v s = .next s ∧ writeControl 5 v s = .next s ∧ writeControl 6 v s = .next s) ∧
    (controlValue 0 s = some 0 ∧ controlValue 2 s = some s.res ∧ controlValue 5 s = some s.fcmd) ∧
    (∃ x, controlValue 4 s = some x ∧ x.getLsbD 0 = s.fault ∧ x.extractLsb' 8 8 = s.fcode ∧
      x.extractLsb' 1 7 = 0 ∧ x.extractLsb' 16 48 = 0) ∧
    (∃ x, controlValue 6 s = some x ∧ (x.extractLsb' 0 32).toNat = s.cfg.w ∧ (x.extractLsb' 32 16).toNat = s.cfg.nreg ∧
      x.extractLsb' 48 16 = 0) ∧
    (∀ n, n < 8 → ∃ x, controlValue n s = some x ∧
      transact (.readControl n) s = .next { s with replies := s.replies ++ [.word x] })

/-- 20_memory R56, R57, R51: the word window reads and writes whole words and the byte window single bytes at physical
addresses, "changing only bits 8*(p&7)+7 : 8*(p&7) of RF[p >> 3]"; reads leave the engine as it is. That what a read returns is appended
to State.replies is the model's (log entry 6). -/
def Obligations.HostWindowsReadAndWrite : Prop :=
  ∀ s : State,
    (∀ a v, a < s.cfg.nreg * s.cfg.w →
      (∃ t, transact (.writeWord a v) s = .next t ∧ t = { s with rf := t.rf } ∧
        ∀ b, readWord t.rf b = if b = a then v else readWord s.rf b) ∧
      transact (.readWord a) s = .next { s with replies := s.replies ++ [.word (readWord s.rf a)] }) ∧
    (∀ p b, p < s.cfg.nreg * (8 * s.cfg.w) →
      (∃ t, transact (.writeByte p b) s = .next t ∧ t = { s with rf := t.rf } ∧
        (∀ a, a ≠ p / 8 → readWord t.rf a = readWord s.rf a) ∧
        ∀ j < 64, (readWord t.rf (p / 8)).getLsbD j =
          if j / 8 = p % 8 then b.getLsbD (j % 8) else (readWord s.rf (p / 8)).getLsbD j) ∧
      transact (.readByte p) s = .next { s with replies := s.replies ++ [.byte (readByte s.rf p)] }) ∧
    (∀ p, readByte s.rf p = (readWord s.rf (p / 8)).extractLsb' (8 * (p % 8)) 8)

/-- 70_reset_and_hazards R200, 10_state R42: what the reset event leaves, the register file and S being any value; the
parameters stay. That the parameters and the host's list are fields of State is the model's (log entries 4, 5). -/
def Obligations.ResetEventLeavesItsValues : Prop :=
  ∀ (s : State) (rest : List HostTransaction), s.pending = .reset :: rest →
    ∃ t, step s = .next t ∧ t.opa = 0 ∧ t.res = 0 ∧ t.cf = false ∧ t.zf = false ∧ t.ge = false ∧ t.fault = false ∧
      t.fcode = 0 ∧ t.fcmd = 0 ∧ t.col = 0 ∧ t.txt = [] ∧ t.cfg = s.cfg ∧ t.pending = rest

/-! ### Storage and byte access -/

/-- 20_memory R53 (an inference the spec marks as its own): logical byte i of a buffer is bits `63 - 8*(i & 7) : 56 - 8*(i & 7)`
of its word `i >> 3`, and the logical bytes are the base-256 digits of the buffer's value, most significant first. -/
def Obligations.LogicalBytesAreTheValuesDigits : Prop :=
  (∀ (s : State) (r i : Nat), s.byte r i = (s.word r (i / 8)).extractLsb' (56 - 8 * (i % 8)) 8) ∧
  (∀ (s : State) (r L : Nat),
    s.val r L = ∑ i ∈ Finset.range (8 * L), (s.byte r i).toNat * 256 ^ (8 * L - 1 - i))

/-- 40_storage R101: SET writes b into every byte of register rd, so that each word is `b * 0x0101010101010101`. -/
def Obligations.SetFillsTheRegister : Prop :=
  ∀ (s : State) (rd : Nat) (b : Byte), rd < s.cfg.nreg →
    ∃ t, exec (.set rd b) s = .next t ∧ t = { s with rf := t.rf } ∧
      (∀ k < s.cfg.w, (t.word rd k).toNat = b.toNat * 0x0101010101010101) ∧
      (∀ i < 8 * s.cfg.w, t.byte rd i = b) ∧ s.sameOutside t rd s.cfg.w

/-- 40_storage R102: MOV copies the W words of register rs1 into register rd; rd = rs1 changes nothing. -/
def Obligations.MovCopiesTheRegister : Prop :=
  ∀ (s : State) (rd rs1 : Nat), rd < s.cfg.nreg → rs1 < s.cfg.nreg →
    ∃ t, exec (.mov rd rs1) s = .next t ∧ t = { s with rf := t.rf } ∧
      (∀ k < s.cfg.w, t.word rd k = s.word rs1 k) ∧ s.sameOutside t rd s.cfg.w ∧
      (rd = rs1 → ∀ q, readByte t.rf q = readByte s.rf q)

/-- 40_storage R103: GETB writes the logical byte, zero-extended, into RES and nothing else; for a buffer of L words that
holds the byte it is the base-256 digit of the buffer's value. -/
def Obligations.GetbReadsTheLogicalByte : Prop :=
  ∀ (s : State) (rs1 idx : Nat), idx < 16 * s.cfg.w → s.holds rs1 (idx / 8 + 1) →
    ∃ t, exec (.getb rs1 idx) s = .next t ∧ t = { s with res := t.res } ∧ t.res.toNat = (s.byte rs1 idx).toNat ∧
      ∀ L, idx < 8 * L → t.res.toNat = s.val rs1 L / 256 ^ (8 * L - 1 - idx) % 256

/-- 40_storage R104: SETB replaces the eight bits `63 - 8*(idx & 7) : 56 - 8*(idx & 7)` of word `idx >> 3` of the buffer by
OPA[7:0] and changes nothing else. -/
def Obligations.SetbWritesEightBits : Prop :=
  ∀ (s : State) (rd idx : Nat), idx < 16 * s.cfg.w → s.holds rd (idx / 8 + 1) →
    ∃ t, exec (.setb rd idx) s = .next t ∧ t = { s with rf := t.rf } ∧
      (∀ j < 64, (t.word rd (idx / 8)).getLsbD j =
        if j / 8 = 7 - idx % 8 then s.opa.getLsbD (j % 8) else (s.word rd (idx / 8)).getLsbD j) ∧
      ∀ q, q ≠ physAddr s.cfg.w rd idx → readByte t.rf q = readByte s.rf q

/-- 40_storage R105: GETB, the host's copy of RES to OPA, and SETB at the same place leave the register file exactly as it was,
byte by byte; and GETB r, 0 to GETB r, 8L-1 read the base-256 digits of the buffer's value in order. -/
def Obligations.SetbOfGetbLeavesTheRegisterFile : Prop :=
  (∀ (s : State) (r idx : Nat), idx < 16 * s.cfg.w → s.holds r (idx / 8 + 1) →
    ∃ t u, exec (.getb r idx) s = .next t ∧ exec (.setb r idx) { t with opa := t.res } = .next u ∧
      ∀ q, readByte u.rf q = readByte s.rf q) ∧
  (∀ (s : State) (r L i : Nat), L ≤ 2 * s.cfg.w → s.holds r L → i < 8 * L →
    ∃ t, exec (.getb r i) s = .next t ∧ t.res.toNat = s.val r L / 256 ^ (8 * L - 1 - i) % 256)

/-! ### Carry-propagating primitives -/

/-- 41_carry_primitives R111: SHW shifts by whole words, right for n >= 0 and left for n < 0, filling with zero words; as
integers the division by 2^(64n), or the product with 2^(64m) modulo 2^(64W). -/
def Obligations.ShwShiftsWholeWords : Prop :=
  ∀ (s : State) (rd rs1 : Nat) (n : Int), rd < s.cfg.nreg → rs1 < s.cfg.nreg →
    ∃ t, exec (.shw rd rs1 n) s = .next t ∧ t = { s with rf := t.rf } ∧ s.sameOutside t rd s.cfg.w ∧
      (0 ≤ n → (∀ k < s.cfg.w, t.word rd k = if n ≤ k then s.word rs1 (k - n.toNat) else 0) ∧
        t.val rd s.cfg.w = s.val rs1 s.cfg.w / 2 ^ (64 * n.toNat)) ∧
      (n < 0 → (∀ k < s.cfg.w, t.word rd k = if (k : Int) - n < s.cfg.w then s.word rs1 (k + (-n).toNat) else 0) ∧
        t.val rd s.cfg.w = s.val rs1 s.cfg.w * 2 ^ (64 * (-n).toNat) % 2 ^ (64 * s.cfg.w))

/-- 41_carry_primitives R112, R113: ADD and ADC write the low 64L bits of the exact sum and the bit above them into CF. -/
def Obligations.AddAdcWriteSumAndCarry : Prop :=
  ∀ (s : State) (rd rs1 L : Nat), L ≤ 2 * s.cfg.w → s.holds rd L → s.holds rs1 L → s.sameOrApart rd rs1 L →
    (∃ t, exec (.add rd rs1 L) s = .next t ∧ t = { s with rf := t.rf, cf := t.cf } ∧ s.sameOutside t rd L ∧
      t.val rd L = (s.val rd L + s.val rs1 L) % 2 ^ (64 * L) ∧
      t.cf.toNat = (s.val rd L + s.val rs1 L) / 2 ^ (64 * L)) ∧
    (∃ t, exec (.adc rd rs1 L) s = .next t ∧ t = { s with rf := t.rf, cf := t.cf } ∧ s.sameOutside t rd L ∧
      t.val rd L = (s.val rd L + s.val rs1 L + s.cf.toNat) % 2 ^ (64 * L) ∧
      t.cf.toNat = (s.val rd L + s.val rs1 L + s.cf.toNat) / 2 ^ (64 * L))

/-- 41_carry_primitives R114, R115: SUB and SBB write the exact difference modulo 2^(64L) and the borrow into CF. -/
def Obligations.SubSbbWriteDifferenceAndBorrow : Prop :=
  ∀ (s : State) (rd rs1 L : Nat), L ≤ 2 * s.cfg.w → s.holds rd L → s.holds rs1 L → s.sameOrApart rd rs1 L →
    (∃ t, exec (.sub rd rs1 L) s = .next t ∧ t = { s with rf := t.rf, cf := t.cf } ∧ s.sameOutside t rd L ∧
      (t.val rd L : Int) = ((s.val rd L : Int) - s.val rs1 L) % 2 ^ (64 * L) ∧
      (t.cf = true ↔ s.val rd L < s.val rs1 L)) ∧
    (∃ t, exec (.sbb rd rs1 L) s = .next t ∧ t = { s with rf := t.rf, cf := t.cf } ∧ s.sameOutside t rd L ∧
      (t.val rd L : Int) = ((s.val rd L : Int) - s.val rs1 L - s.cf.toNat) % 2 ^ (64 * L) ∧
      (t.cf = true ↔ s.val rd L < s.val rs1 L + s.cf.toNat))

/-- 41_carry_primitives R116: ADDS adds OPA into word idx, the carry running through words idx-1 .. 0 and past them into CF. -/
def Obligations.AddsAddsAtTheWord : Prop :=
  ∀ (s : State) (rd idx : Nat), idx < 2 * s.cfg.w → s.holds rd (idx + 1) →
    ∃ t, exec (.adds rd idx) s = .next t ∧ t = { s with rf := t.rf, cf := t.cf } ∧ s.sameOutside t rd (idx + 1) ∧
      t.val rd (idx + 1) = (s.val rd (idx + 1) + s.opa.toNat) % 2 ^ (64 * (idx + 1)) ∧
      t.cf.toNat = (s.val rd (idx + 1) + s.opa.toNat) / 2 ^ (64 * (idx + 1)) ∧
      (s.opa = 0 → t.cf = false ∧ ∀ q, readByte t.rf q = readByte s.rf q)

/-- 41_carry_primitives R117: CMPGE writes GE only, with `x[rs1] >= x[rs2]`, which is the lexicographic compare from the
most significant word. -/
def Obligations.CmpgeComparesMagnitudes : Prop :=
  ∀ (s : State) (rs1 rs2 : Nat), rs1 < s.cfg.nreg → rs2 < s.cfg.nreg →
    ∃ t, exec (.cmpge rs1 rs2) s = .next t ∧ t = { s with ge := t.ge } ∧
      (t.ge = true ↔ s.val rs2 s.cfg.w ≤ s.val rs1 s.cfg.w) ∧
      (t.ge = true ↔ (∀ k < s.cfg.w, s.word rs1 k = s.word rs2 k) ∨
        ∃ k < s.cfg.w, (∀ j < k, s.word rs1 j = s.word rs2 j) ∧ (s.word rs2 k).toNat < (s.word rs1 k).toNat)

/-- 41_carry_primitives R118: SUB straight after ADD restores the words; CF ends 0 when the ADD ended with CF = 0 and 1 when it
ended with CF = 1 (the second half is an inference the spec marks as its own). -/
def Obligations.SubUndoesAdd : Prop :=
  ∀ (s : State) (rd rs1 L : Nat), L ≤ 2 * s.cfg.w → s.holds rd L → s.holds rs1 L → s.sameOrApart rd rs1 L → rd ≠ rs1 →
    ∃ t u, exec (.add rd rs1 L) s = .next t ∧ exec (.sub rd rs1 L) t = .next u ∧
      u.val rd L = s.val rd L ∧ (∀ k < L, u.word rd k = s.word rd k) ∧ u.cf = t.cf

/-- 41_carry_primitives R119: for different values exactly one of the two compares holds, for equal values both. -/
def Obligations.CompareIsTotal : Prop :=
  ∀ (s : State) (a b : Nat), a < s.cfg.nreg → b < s.cfg.nreg →
    ∃ t u, exec (.cmpge a b) s = .next t ∧ exec (.cmpge b a) s = .next u ∧
      (s.val a s.cfg.w ≠ s.val b s.cfg.w → t.ge = !u.ge) ∧
      (s.val a s.cfg.w = s.val b s.cfg.w → t.ge = true ∧ u.ge = true)

/-- 41_carry_primitives R113 (chaining, an inference the spec marks as its own): ADD on the less significant parts and then ADC
on the more significant ones leave the same register file and the same CF as one ADD on the joined buffers. -/
def Obligations.AddThenAdcIsOneAdd : Prop :=
  ∀ (s : State) (rd rs1 M : Nat), M ≤ s.cfg.w → rd + 1 < s.cfg.nreg → rs1 + 1 < s.cfg.nreg →
    (rd = rs1 ∨ rd + 2 ≤ rs1 ∨ rs1 + 2 ≤ rd) →
    ∃ t u v, exec (.add (rd + 1) (rs1 + 1) M) s = .next t ∧ exec (.adc rd rs1 s.cfg.w) t = .next u ∧
      exec (.add rd rs1 (s.cfg.w + M)) s = .next v ∧ u.cf = v.cf ∧ ∀ q, readByte u.rf q = readByte v.rf q

/-- 41_carry_primitives R112, R113, R116, 00_scope R11: the word-by-word procedures, chaining adc64 from the least significant
word, give the words and the CF of ADD, ADC and ADDS. -/
def Obligations.AddChainsAgree : Prop :=
  (∀ (s t u : State) (rd rs1 L : Nat), operandFault s.cfg (.add rd rs1 L) = none →
    exec (.add rd rs1 L) s = .next t → exec (.adc rd rs1 L) s = .next u →
      (t.words rd L, t.cf) = addChain (s.words rd L) (s.words rs1 L) false ∧
      (u.words rd L, u.cf) = addChain (s.words rd L) (s.words rs1 L) s.cf) ∧
  (∀ (s t : State) (rd idx : Nat), operandFault s.cfg (.adds rd idx) = none → exec (.adds rd idx) s = .next t →
    (t.words rd (idx + 1), t.cf) = addScalarChain (s.words rd (idx + 1)) s.opa)

/-- 41_carry_primitives R114, R115, 00_scope R11: chaining sbb64 from the least significant word gives the words and the CF of
SUB and SBB. -/
def Obligations.SubChainsAgree : Prop :=
  ∀ (s t u : State) (rd rs1 L : Nat), operandFault s.cfg (.sub rd rs1 L) = none →
    exec (.sub rd rs1 L) s = .next t → exec (.sbb rd rs1 L) s = .next u →
      (t.words rd L, t.cf) = subChain (s.words rd L) (s.words rs1 L) false ∧
      (u.words rd L, u.cf) = subChain (s.words rd L) (s.words rs1 L) s.cf

/-! ### Multiply and divide -/

/-- 42_multiply_divide R131: MULS writes the low 64L bits of the exact product and the 64 bits above them into RES. -/
def Obligations.MulsWritesProductAndHighWord : Prop :=
  ∀ (s : State) (rd L : Nat), L ≤ 2 * s.cfg.w → s.holds rd L →
    ∃ t, exec (.muls rd L) s = .next t ∧ t = { s with rf := t.rf, res := t.res } ∧ s.sameOutside t rd L ∧
      t.val rd L = s.val rd L * s.opa.toNat % 2 ^ (64 * L) ∧
      t.res.toNat = s.val rd L * s.opa.toNat / 2 ^ (64 * L)

/-- 42_multiply_divide R132: MUL writes the full product into the pair, its high half into register pd and its low half
into register pd + 1. -/
def Obligations.MulWritesTheFullProduct : Prop :=
  ∀ (s : State) (pd rs1 rs2 : Nat), pd + 1 < s.cfg.nreg → rs1 < s.cfg.nreg → rs2 < s.cfg.nreg →
    outsidePair pd rs1 → outsidePair pd rs2 →
    ∃ t, exec (.mul pd rs1 rs2) s = .next t ∧ t = { s with rf := t.rf } ∧ s.sameOutside t pd (2 * s.cfg.w) ∧
      t.val pd (2 * s.cfg.w) = s.val rs1 s.cfg.w * s.val rs2 s.cfg.w ∧
      t.val pd s.cfg.w = s.val rs1 s.cfg.w * s.val rs2 s.cfg.w / 2 ^ (64 * s.cfg.w) ∧
      t.val (pd + 1) s.cfg.w = s.val rs1 s.cfg.w * s.val rs2 s.cfg.w % 2 ^ (64 * s.cfg.w)

/-- 42_multiply_divide R134, OPA not 0: quotient in place, remainder into RES, ZF for a zero quotient. -/
def Obligations.DivsWritesQuotientAndRemainder : Prop :=
  ∀ (s : State) (rd L : Nat), L ≤ 2 * s.cfg.w → s.holds rd L → s.opa ≠ 0 →
    ∃ t, exec (.divs rd L) s = .next t ∧ t = { s with rf := t.rf, res := t.res, zf := t.zf } ∧ s.sameOutside t rd L ∧
      t.val rd L = s.val rd L / s.opa.toNat ∧ t.res.toNat = s.val rd L % s.opa.toNat ∧
      (t.zf = true ↔ ∀ k < L, t.word rd k = 0)

/-- 42_multiply_divide R134, OPA = 0: words 0 .. L-1 become all ones, ZF 0, RES unchanged, no fault. -/
def Obligations.DivsByZeroWritesTheSentinel : Prop :=
  ∀ (s : State) (rd L : Nat), L ≤ 2 * s.cfg.w → s.holds rd L → s.opa = 0 →
    ∃ t, exec (.divs rd L) s = .next t ∧ t = { s with rf := t.rf, zf := false } ∧ s.sameOutside t rd L ∧
      ∀ k < L, t.word rd k = 0xFFFFFFFFFFFFFFFF#64

/-- 42_multiply_divide R136: for a divisor other than 0 the pair is `floor(N * 2^(64W) / D)`, register pd the integer half and
register pd + 1 the fractional half; S is any value afterwards; the
counter draws is the model's (log entry 3). -/
def Obligations.DivWritesIntegerAndFraction : Prop :=
  ∀ (s : State) (pd rs1 rs2 : Nat), pd + 1 < s.cfg.nreg → rs1 < s.cfg.nreg → rs2 < s.cfg.nreg →
    outsidePair pd rs1 → outsidePair pd rs2 → s.val rs2 s.cfg.w ≠ 0 →
    ∃ t, exec (.div pd rs1 rs2) s = .next t ∧ t = { s with rf := t.rf, scratch := t.scratch, draws := t.draws } ∧
      s.sameOutside t pd (2 * s.cfg.w) ∧
      t.val pd (2 * s.cfg.w) = s.val rs1 s.cfg.w * 2 ^ (64 * s.cfg.w) / s.val rs2 s.cfg.w ∧
      t.val pd s.cfg.w = s.val rs1 s.cfg.w / s.val rs2 s.cfg.w ∧
      t.val (pd + 1) s.cfg.w = s.val rs1 s.cfg.w % s.val rs2 s.cfg.w * 2 ^ (64 * s.cfg.w) / s.val rs2 s.cfg.w

/-- 42_multiply_divide R138: a zero divisor sets all 2W words of the pair to all ones without a fault or a flag, and an
all-ones pair is never the quotient of a non-zero divisor (the last is an inference the spec marks as its own). The counter
draws is the model's (log entry 3). -/
def Obligations.DivSentinelMeansZeroDivisor : Prop :=
  ∀ (s : State) (pd rs1 rs2 : Nat), 1 ≤ s.cfg.w → pd + 1 < s.cfg.nreg → rs1 < s.cfg.nreg → rs2 < s.cfg.nreg →
    outsidePair pd rs1 → outsidePair pd rs2 →
    ∃ t, exec (.div pd rs1 rs2) s = .next t ∧ t = { s with rf := t.rf, scratch := t.scratch, draws := t.draws } ∧
      s.sameOutside t pd (2 * s.cfg.w) ∧
      ((∀ k < 2 * s.cfg.w, t.word pd k = 0xFFFFFFFFFFFFFFFF#64) ↔ s.val rs2 s.cfg.w = 0)

/-- 42_multiply_divide R139: if MULS ends with RES = 0, DIVS by the same non-zero OPA restores the words and ends with
RES = 0. -/
def Obligations.DivsUndoesMuls : Prop :=
  ∀ (s : State) (rd L : Nat), L ≤ 2 * s.cfg.w → s.holds rd L → s.opa ≠ 0 →
    ∃ t u, exec (.muls rd L) s = .next t ∧ exec (.divs rd L) t = .next u ∧
      (t.res = 0 → (∀ k < L, u.word rd k = s.word rd k) ∧ u.res = 0)

/-- 42_multiply_divide R140: if the product fits one register and the divisor is not 0, MUL leaves register pd zero, and DIV of
register pd + 1 by rb gives register ra back as integer half and a zero fractional half. -/
def Obligations.DivUndoesMul : Prop :=
  ∀ (s : State) (pd pe ra rb : Nat), pd + 1 < s.cfg.nreg → pe + 1 < s.cfg.nreg → ra < s.cfg.nreg → rb < s.cfg.nreg →
    outsidePair pd ra → outsidePair pd rb → outsidePair pe (pd + 1) → outsidePair pe rb →
    s.val ra s.cfg.w * s.val rb s.cfg.w < 2 ^ (64 * s.cfg.w) → s.val rb s.cfg.w ≠ 0 →
    ∃ t u, exec (.mul pd ra rb) s = .next t ∧ exec (.div pe (pd + 1) rb) t = .next u ∧
      t.val pd s.cfg.w = 0 ∧ t.val (pd + 1) s.cfg.w = s.val ra s.cfg.w * s.val rb s.cfg.w ∧
      u.val pe s.cfg.w = s.val ra s.cfg.w ∧ u.val (pe + 1) s.cfg.w = 0

/-- 42_multiply_divide R141: the number 1.0 in the pair p0 divided by 4 over 2W words is word W = 0x4000000000000000 and
zeros, RES 0, ZF 0; dividing that by 1 changes no word. -/
def Obligations.OneDividedByFourIsAQuarter : Prop :=
  ∀ s : State, 1 ≤ s.cfg.w → 2 ≤ s.cfg.nreg → s.opa = 4 →
    (∀ k < 2 * s.cfg.w, s.word 0 k = if k = s.cfg.w - 1 then 1 else 0) →
    ∃ t u, exec (.divs 0 (2 * s.cfg.w)) s = .next t ∧ exec (.divs 0 (2 * s.cfg.w)) { t with opa := 1 } = .next u ∧
      (∀ k < 2 * s.cfg.w, t.word 0 k = if k = s.cfg.w then 0x4000000000000000#64 else 0) ∧ t.res = 0 ∧ t.zf = false ∧
      (∀ k < 2 * s.cfg.w, u.word 0 k = t.word 0 k) ∧ u.res = 0 ∧ u.zf = false

/-- 42_multiply_divide R131, R134, 00_scope R11: the word-by-word procedures of MULS and DIVS (for OPA not 0) give their words,
RES and ZF. -/
def Obligations.ScalarChainsAgree : Prop :=
  (∀ (s t : State) (rd L : Nat), operandFault s.cfg (.muls rd L) = none → exec (.muls rd L) s = .next t →
    (t.words rd L, t.res) = mulScalarChain s.opa (s.words rd L)) ∧
  (∀ (s t : State) (rd L : Nat), operandFault s.cfg (.divs rd L) = none → s.opa ≠ 0 → exec (.divs rd L) s = .next t →
    (t.words rd L, t.res, t.zf) = divScalarChain s.opa 0 true (s.words rd L))

/-- 42_multiply_divide R133: the source's schoolbook procedure leaves the pair MUL leaves. -/
def Obligations.SchoolbookProductAgrees : Prop :=
  ∀ (s t : State) (pd rs1 rs2 : Nat), operandFault s.cfg (.mul pd rs1 rs2) = none → exec (.mul pd rs1 rs2) s = .next t →
    t.words pd (2 * s.cfg.w) = schoolbook (s.words rs1 s.cfg.w) (s.words rs2 s.cfg.w)

/-- 42_multiply_divide R137, R138: the source's binary restoring division, with 2*R + b formed exactly, gives the pair DIV
leaves, for every divisor, 0 among them. -/
def Obligations.RestoringDivisionAgrees : Prop :=
  ∀ (s t : State) (pd rs1 rs2 : Nat), operandFault s.cfg (.div pd rs1 rs2) = none → exec (.div pd rs1 rs2) s = .next t →
    t.val pd (2 * s.cfg.w) = restoringQuotient s.cfg.w (s.val rs1 s.cfg.w) (s.val rs2 s.cfg.w)

/-! ### BCD encoder -/

/-- 43_bcd R151: I2BCD writes the decimal digits of register rs1, two a byte, the last byte of the pair holding the tens and
the units and every byte above the digits zero; as an integer, digit k has weight 16^k. S is any value afterwards; the
counter draws is the model's (log entry 3). -/
def Obligations.I2bcdWritesTheDecimalDigits : Prop :=
  ∀ (s : State) (pd rs1 : Nat), pd + 1 < s.cfg.nreg → rs1 < s.cfg.nreg → outsidePair pd rs1 →
    ∃ t, exec (.i2bcd pd rs1) s = .next t ∧ t = { s with rf := t.rf, scratch := t.scratch, draws := t.draws } ∧
      s.sameOutside t pd (2 * s.cfg.w) ∧
      (∀ j < 16 * s.cfg.w, (t.byte pd (16 * s.cfg.w - 1 - j)).toNat =
        16 * (s.val rs1 s.cfg.w / 10 ^ (2 * j + 1) % 10) + s.val rs1 s.cfg.w / 10 ^ (2 * j) % 10) ∧
      t.val pd (2 * s.cfg.w) =
        ∑ k ∈ Finset.range (32 * s.cfg.w), s.val rs1 s.cfg.w / 10 ^ k % 10 * 16 ^ k

/-- 43_bcd R153: F2BCD writes the first 2B decimal digits of the fraction `x[rs1] / 2^(64W)`, B = 8W + floor(80W / 49) bytes
from the most significant one on, and zero in the rest of the pair. S is any value afterwards; the
counter draws is the model's (log entry 3). -/
def Obligations.F2bcdWritesTheFractionDigits : Prop :=
  ∀ (s : State) (pd rs1 : Nat), pd + 1 < s.cfg.nreg → rs1 < s.cfg.nreg → outsidePair pd rs1 →
    ∃ t, exec (.f2bcd pd rs1) s = .next t ∧ t = { s with rf := t.rf, scratch := t.scratch, draws := t.draws } ∧
      s.sameOutside t pd (2 * s.cfg.w) ∧
      (∀ j < 8 * s.cfg.w + 80 * s.cfg.w / 49, (t.byte pd j).toNat =
        16 * (s.val rs1 s.cfg.w * 10 ^ (2 * j + 1) / 2 ^ (64 * s.cfg.w) % 10)
          + s.val rs1 s.cfg.w * 10 ^ (2 * j + 2) / 2 ^ (64 * s.cfg.w) % 10) ∧
      ∀ j, 8 * s.cfg.w + 80 * s.cfg.w / 49 ≤ j → j < 16 * s.cfg.w → t.byte pd j = 0

/-- 43_bcd R155: I2BCD of N >= 1 and PRBCDI of the pair append exactly the decimal numeral of N, most significant digit first
and without leading zeros, with the line breaks of R163; N = 0 appends nothing. -/
def Obligations.BcdRoundTripPrintsTheNumeral : Prop :=
  ∀ (s : State) (pd rs1 : Nat), pd + 1 < s.cfg.nreg → rs1 < s.cfg.nreg → outsidePair pd rs1 →
    ∃ t u, exec (.i2bcd pd rs1) s = .next t ∧ exec (.prbcdi pd) t = .next u ∧
      (1 ≤ s.val rs1 s.cfg.w →
        u = printDigits t ((Nat.digits 10 (s.val rs1 s.cfg.w)).reverse.map (BitVec.ofNat 4)) ∧
        (s.cfg.decLineDigits = 0 →
          u.txt = s.txt ++ (Nat.digits 10 (s.val rs1 s.cfg.w)).reverse.map (fun d => BitVec.ofNat 8 (0x30 + d)))) ∧
      (s.val rs1 s.cfg.w = 0 → (∀ i < 16 * s.cfg.w, t.byte pd i = 0) ∧ u = t)

/-- 43_bcd R152: the source's digit-by-digit procedure leaves the pair I2BCD leaves. -/
def Obligations.I2bcdProcedureAgrees : Prop :=
  ∀ (s t : State) (pd rs1 : Nat), 1 ≤ s.cfg.w → operandFault s.cfg (.i2bcd pd rs1) = none →
    exec (.i2bcd pd rs1) s = .next t →
      t.bytes pd (16 * s.cfg.w) = intBcdProcedure s.cfg.w (s.words rs1 s.cfg.w)

/-- 43_bcd R154: the source's multiply-by-ten procedure leaves the pair F2BCD leaves. -/
def Obligations.F2bcdProcedureAgrees : Prop :=
  ∀ (s t : State) (pd rs1 : Nat), 1 ≤ s.cfg.w → operandFault s.cfg (.f2bcd pd rs1) = none →
    exec (.f2bcd pd rs1) s = .next t →
      t.bytes pd (16 * s.cfg.w) = fracBcdProcedure s.cfg.w (s.words rs1 s.cfg.w)

/-! ### Text output -/

/-- 44_text_output R161, R162: PRHEX appends the dump of the buffer's bytes and PRHEXZ that of the bytes from the first
non-zero one on, nothing if all are zero; nothing but TXT changes. -/
def Obligations.PrhexDumpsTheBytes : Prop :=
  ∀ (s : State) (rs1 n : Nat), n ≤ 16 * s.cfg.w → s.holds rs1 ((n + 7) / 8) →
    (∃ out, exec (.prhex rs1 n) s = .next { s with txt := s.txt ++ out } ∧
      isHexDump s.cfg.hexLineBytes n (s.byte rs1) out) ∧
    (∃ out start, exec (.prhexz rs1 n) s = .next { s with txt := s.txt ++ out } ∧ start ≤ n ∧
      (∀ i < start, s.byte rs1 i = 0) ∧ (start < n → s.byte rs1 start ≠ 0) ∧
      isHexDump s.cfg.hexLineBytes (n - start) (fun i => s.byte rs1 (start + i)) out)

/-- 44_text_output R163: PRDIG appends the character 0x30 + OPA[3:0], counts it in COL modulo 2^32, and breaks the line and
clears COL when COL reaches DEC_LINE_DIGITS, if that is not 0; nothing else changes. -/
def Obligations.PrdigPrintsOneDigit : Prop :=
  ∀ s : State,
    let c : Byte := BitVec.ofNat 8 (0x30 + s.opa.toNat % 16)
    let col := (s.col.toNat + 1) % 2 ^ 32
    (s.cfg.decLineDigits ≠ 0 ∧ s.cfg.decLineDigits ≤ col →
      exec .prdig s = .next { s with txt := s.txt ++ [c, 0x0A#8], col := 0 }) ∧
    (¬ (s.cfg.decLineDigits ≠ 0 ∧ s.cfg.decLineDigits ≤ col) →
      exec .prdig s = .next { s with txt := s.txt ++ [c], col := BitVec.ofNat 32 col })

/-- 44_text_output R164, R163: PRBCDI prints nothing for an all-zero pair, else the digits from the first non-zero byte k on,
less that byte's high nibble if it is zero; printing digits is printing each in turn. -/
def Obligations.PrbcdiPrintsTheInteger : Prop :=
  (∀ (s : State) (ps1 : Nat), ps1 + 1 < s.cfg.nreg →
    ((∀ i < 16 * s.cfg.w, s.byte ps1 i = 0) → exec (.prbcdi ps1) s = .next s) ∧
    (∀ k < 16 * s.cfg.w, (∀ i < k, s.byte ps1 i = 0) → s.byte ps1 k ≠ 0 →
      exec (.prbcdi ps1) s = .next (printDigits s
        ((if (s.byte ps1 k).toNat < 16 then [(s.byte ps1 k).extractLsb' 0 4] else digitPairs (s.byte ps1) k 1)
          ++ digitPairs (s.byte ps1) (k + 1) (16 * s.cfg.w - 1 - k))))) ∧
  (∀ (s : State) (d : Nibble) (ds : List Nibble),
    exec .prdig { s with opa := d.setWidth 64 } = .next { printDigits s [d] with opa := d.setWidth 64 } ∧
    printDigits s (d :: ds) = printDigits (printDigits s [d]) ds)

/-- 44_text_output R165: PRBCDF prints both digits of every byte up to the last non-zero one, leading zeros kept; an all-zero
pair prints its first byte, `00`. -/
def Obligations.PrbcdfPrintsTheFraction : Prop :=
  ∀ (s : State) (ps1 : Nat), 1 ≤ s.cfg.w → ps1 + 1 < s.cfg.nreg →
    ((∀ i < 16 * s.cfg.w, s.byte ps1 i = 0) → exec (.prbcdf ps1) s = .next (printDigits s [0, 0])) ∧
    (∀ e < 16 * s.cfg.w, s.byte ps1 e ≠ 0 → (∀ i, e < i → i < 16 * s.cfg.w → s.byte ps1 i = 0) →
      exec (.prbcdf ps1) s = .next (printDigits s (digitPairs (s.byte ps1) 0 (e + 1))))

/-! ### The whole machine -/

/-- The invariant State.Inv (10_state R20, R26, R36, R37; 60_exceptions R185, R186) is kept by every step: the register file
stays canonical and within its bounds, S keeps W words, and the fault record stays that of the word it names. The canonical
form is the model's own (log entry 8). -/
def Obligations.EveryStepKeepsTheInvariant : Prop :=
  ∀ s t : State, s.Inv → step s = .next t → t.Inv

/-- The state after reset meets the invariant, and the host reads there what 95_test_vectors HS1 and HS2 list: 0 from every
control register but CONFIG, which reads W = 2048 and NREG = 8. What the register file and S hold there, and the line
widths, are the model's choices (log entries 1, 2, 4). -/
def Obligations.ResetStateMeetsTheInvariant : Prop :=
  State.reset.Inv ∧ State.reset.txt = [] ∧
    (∀ n ∈ [0, 1, 2, 3, 4, 5, 7], controlValue n State.reset = some 0) ∧
    controlValue 6 State.reset = some 0x0000000800000800#64

/-- 10_state R26: "no other command and no host transaction reads S", and DIV, I2BCD and F2BCD write it before they could read
it: two states that differ only in S step to states that differ only in S, or stop alike; no step refuses. The stops of a host
access out of range are the model's (log entry 7). -/
def Obligations.ScratchIsNotObservable : Prop :=
  ∀ (s : State) (x : List Word),
    (∀ t, step s = .next t → ∃ y, step { s with scratch := x } = .next { t with scratch := y }) ∧
    (∀ f, step s = .fault f → step { s with scratch := x } = .fault f) ∧
    (∀ f, step s ≠ .refused f)

/-- 10_state R26, R28, R29, R30, R39, R40, 40_storage R100 (each rule's Writes: "nothing else changes"), R103,
41_carry_primitives R117, 44_text_output's opening: which state a command may write. No command writes OPA; RES, the flags,
TXT, COL, S and the register file are written by the commands their rules name and by no other. That no command writes cfg,
pending or replies, and that draws moves with S only, are clauses on the model's own fields (log entries 4, 5, 6, 3). -/
def Obligations.CommandsWriteOnlyTheirState : Prop :=
  ∀ (i : Instr) (s t : State), exec i s = .next t →
    t.cfg = s.cfg ∧ t.opa = s.opa ∧ t.pending = s.pending ∧ t.replies = s.replies ∧
    (storesToRf i = false → t.rf = s.rf) ∧ (writesRes i = false → t.res = s.res) ∧
    (writesCf i = false → t.cf = s.cf) ∧ (writesZf i = false → t.zf = s.zf) ∧ (writesGe i = false → t.ge = s.ge) ∧
    (printsText i = false → t.txt = s.txt) ∧ (countsColumns i = false → t.col = s.col) ∧
    (usesScratch i = false → t.scratch = s.scratch ∧ t.draws = s.draws)

/-- 10_state R40: TXT is append-only: a step appends to it or leaves it, and only reset empties it. The list of
transactions is the model's (log entry 5). -/
def Obligations.TextIsAppendOnly : Prop :=
  ∀ s t : State, step s = .next t →
    (s.pending.head? ≠ some .reset → ∃ out, t.txt = s.txt ++ out) ∧ (s.pending.head? = some .reset → t.txt = [])

/-- 40_storage R105 over the model's own form of the register file (log entry 8): on a canonical list, GETB, the host's copy of
RES to OPA, and SETB at the same place leave the very same list. The premise Memory.wf is part of the invariant. -/
def Obligations.WritingBackKeepsTheCanonicalList : Prop :=
  ∀ (s : State) (r idx : Nat), Memory.wf s.rf → idx < 16 * s.cfg.w → s.holds r (idx / 8 + 1) →
    ∃ t u, exec (.getb r idx) s = .next t ∧ exec (.setb r idx) { t with opa := t.res } = .next u ∧ u.rf = s.rf
end

