-- ==== Sys2Proof/Laws/State.lean ====
section
/-! SUPPORT. One lemma for each field and each update of the state, so that no proof unfolds an update. -/

namespace Sys2Proof.Machine

variable (s : State) (cfg : Config)

/-! ### State.setWords -/

@[simp] theorem setWords_cfg (r : Nat) (ws : List Word) : (s.setWords r ws).cfg = s.cfg := rfl
@[simp] theorem setWords_rf (r : Nat) (ws : List Word) : (s.setWords r ws).rf = writeWords s.rf (s.base r) ws := rfl
@[simp] theorem setWords_scratch (r : Nat) (ws : List Word) : (s.setWords r ws).scratch = s.scratch := rfl
@[simp] theorem setWords_opa (r : Nat) (ws : List Word) : (s.setWords r ws).opa = s.opa := rfl
@[simp] theorem setWords_res (r : Nat) (ws : List Word) : (s.setWords r ws).res = s.res := rfl
@[simp] theorem setWords_cf (r : Nat) (ws : List Word) : (s.setWords r ws).cf = s.cf := rfl
@[simp] theorem setWords_zf (r : Nat) (ws : List Word) : (s.setWords r ws).zf = s.zf := rfl
@[simp] theorem setWords_ge (r : Nat) (ws : List Word) : (s.setWords r ws).ge = s.ge := rfl
@[simp] theorem setWords_fault (r : Nat) (ws : List Word) : (s.setWords r ws).fault = s.fault := rfl
@[simp] theorem setWords_fcode (r : Nat) (ws : List Word) : (s.setWords r ws).fcode = s.fcode := rfl
@[simp] theorem setWords_fcmd (r : Nat) (ws : List Word) : (s.setWords r ws).fcmd = s.fcmd := rfl
@[simp] theorem setWords_col (r : Nat) (ws : List Word) : (s.setWords r ws).col = s.col := rfl
@[simp] theorem setWords_txt (r : Nat) (ws : List Word) : (s.setWords r ws).txt = s.txt := rfl
@[simp] theorem setWords_pending (r : Nat) (ws : List Word) : (s.setWords r ws).pending = s.pending := rfl
@[simp] theorem setWords_replies (r : Nat) (ws : List Word) : (s.setWords r ws).replies = s.replies := rfl
@[simp] theorem setWords_draws (r : Nat) (ws : List Word) : (s.setWords r ws).draws = s.draws := rfl

/-! ### State.setVal -/

@[simp] theorem setVal_cfg (r L v : Nat) : (s.setVal r L v).cfg = s.cfg := rfl
@[simp] theorem setVal_rf (r L v : Nat) : (s.setVal r L v).rf = writeWords s.rf (s.base r) (valueWords L v) := rfl
@[simp] theorem setVal_scratch (r L v : Nat) : (s.setVal r L v).scratch = s.scratch := rfl
@[simp] theorem setVal_opa (r L v : Nat) : (s.setVal r L v).opa = s.opa := rfl
@[simp] theorem setVal_res (r L v : Nat) : (s.setVal r L v).res = s.res := rfl
@[simp] theorem setVal_cf (r L v : Nat) : (s.setVal r L v).cf = s.cf := rfl
@[simp] theorem setVal_zf (r L v : Nat) : (s.setVal r L v).zf = s.zf := rfl
@[simp] theorem setVal_ge (r L v : Nat) : (s.setVal r L v).ge = s.ge := rfl
@[simp] theorem setVal_fault (r L v : Nat) : (s.setVal r L v).fault = s.fault := rfl
@[simp] theorem setVal_fcode (r L v : Nat) : (s.setVal r L v).fcode = s.fcode := rfl
@[simp] theorem setVal_fcmd (r L v : Nat) : (s.setVal r L v).fcmd = s.fcmd := rfl
@[simp] theorem setVal_col (r L v : Nat) : (s.setVal r L v).col = s.col := rfl
@[simp] theorem setVal_txt (r L v : Nat) : (s.setVal r L v).txt = s.txt := rfl
@[simp] theorem setVal_pending (r L v : Nat) : (s.setVal r L v).pending = s.pending := rfl
@[simp] theorem setVal_replies (r L v : Nat) : (s.setVal r L v).replies = s.replies := rfl
@[simp] theorem setVal_draws (r L v : Nat) : (s.setVal r L v).draws = s.draws := rfl

/-! ### State.setByte -/

@[simp] theorem setByte_cfg (r i : Nat) (b : Byte) : (s.setByte r i b).cfg = s.cfg := rfl
@[simp] theorem setByte_rf (r i : Nat) (b : Byte) : (s.setByte r i b).rf = writeByte s.rf (physAddr s.cfg.w r i) b := rfl
@[simp] theorem setByte_scratch (r i : Nat) (b : Byte) : (s.setByte r i b).scratch = s.scratch := rfl
@[simp] theorem setByte_opa (r i : Nat) (b : Byte) : (s.setByte r i b).opa = s.opa := rfl
@[simp] theorem setByte_res (r i : Nat) (b : Byte) : (s.setByte r i b).res = s.res := rfl
@[simp] theorem setByte_cf (r i : Nat) (b : Byte) : (s.setByte r i b).cf = s.cf := rfl
@[simp] theorem setByte_zf (r i : Nat) (b : Byte) : (s.setByte r i b).zf = s.zf := rfl
@[simp] theorem setByte_ge (r i : Nat) (b : Byte) : (s.setByte r i b).ge = s.ge := rfl
@[simp] theorem setByte_fault (r i : Nat) (b : Byte) : (s.setByte r i b).fault = s.fault := rfl
@[simp] theorem setByte_fcode (r i : Nat) (b : Byte) : (s.setByte r i b).fcode = s.fcode := rfl
@[simp] theorem setByte_fcmd (r i : Nat) (b : Byte) : (s.setByte r i b).fcmd = s.fcmd := rfl
@[simp] theorem setByte_col (r i : Nat) (b : Byte) : (s.setByte r i b).col = s.col := rfl
@[simp] theorem setByte_txt (r i : Nat) (b : Byte) : (s.setByte r i b).txt = s.txt := rfl
@[simp] theorem setByte_pending (r i : Nat) (b : Byte) : (s.setByte r i b).pending = s.pending := rfl
@[simp] theorem setByte_replies (r i : Nat) (b : Byte) : (s.setByte r i b).replies = s.replies := rfl
@[simp] theorem setByte_draws (r i : Nat) (b : Byte) : (s.setByte r i b).draws = s.draws := rfl

/-! ### State.setBytes -/

@[simp] theorem setBytes_cfg (r L : Nat) (bs : List Byte) : (s.setBytes r L bs).cfg = s.cfg := rfl
@[simp] theorem setBytes_rf (r L : Nat) (bs : List Byte) :
    (s.setBytes r L bs).rf = writeWords s.rf (s.base r) (wordsFromLogical L bs) :=
  rfl
@[simp] theorem setBytes_scratch (r L : Nat) (bs : List Byte) : (s.setBytes r L bs).scratch = s.scratch := rfl
@[simp] theorem setBytes_opa (r L : Nat) (bs : List Byte) : (s.setBytes r L bs).opa = s.opa := rfl
@[simp] theorem setBytes_res (r L : Nat) (bs : List Byte) : (s.setBytes r L bs).res = s.res := rfl
@[simp] theorem setBytes_cf (r L : Nat) (bs : List Byte) : (s.setBytes r L bs).cf = s.cf := rfl
@[simp] theorem setBytes_zf (r L : Nat) (bs : List Byte) : (s.setBytes r L bs).zf = s.zf := rfl
@[simp] theorem setBytes_ge (r L : Nat) (bs : List Byte) : (s.setBytes r L bs).ge = s.ge := rfl
@[simp] theorem setBytes_fault (r L : Nat) (bs : List Byte) : (s.setBytes r L bs).fault = s.fault := rfl
@[simp] theorem setBytes_fcode (r L : Nat) (bs : List Byte) : (s.setBytes r L bs).fcode = s.fcode := rfl
@[simp] theorem setBytes_fcmd (r L : Nat) (bs : List Byte) : (s.setBytes r L bs).fcmd = s.fcmd := rfl
@[simp] theorem setBytes_col (r L : Nat) (bs : List Byte) : (s.setBytes r L bs).col = s.col := rfl
@[simp] theorem setBytes_txt (r L : Nat) (bs : List Byte) : (s.setBytes r L bs).txt = s.txt := rfl
@[simp] theorem setBytes_pending (r L : Nat) (bs : List Byte) : (s.setBytes r L bs).pending = s.pending := rfl
@[simp] theorem setBytes_replies (r L : Nat) (bs : List Byte) : (s.setBytes r L bs).replies = s.replies := rfl
@[simp] theorem setBytes_draws (r L : Nat) (bs : List Byte) : (s.setBytes r L bs).draws = s.draws := rfl

/-! ### State.emit -/

@[simp] theorem emit_cfg (cs : List Byte) : (s.emit cs).cfg = s.cfg := rfl
@[simp] theorem emit_rf (cs : List Byte) : (s.emit cs).rf = s.rf := rfl
@[simp] theorem emit_scratch (cs : List Byte) : (s.emit cs).scratch = s.scratch := rfl
@[simp] theorem emit_opa (cs : List Byte) : (s.emit cs).opa = s.opa := rfl
@[simp] theorem emit_res (cs : List Byte) : (s.emit cs).res = s.res := rfl
@[simp] theorem emit_cf (cs : List Byte) : (s.emit cs).cf = s.cf := rfl
@[simp] theorem emit_zf (cs : List Byte) : (s.emit cs).zf = s.zf := rfl
@[simp] theorem emit_ge (cs : List Byte) : (s.emit cs).ge = s.ge := rfl
@[simp] theorem emit_fault (cs : List Byte) : (s.emit cs).fault = s.fault := rfl
@[simp] theorem emit_fcode (cs : List Byte) : (s.emit cs).fcode = s.fcode := rfl
@[simp] theorem emit_fcmd (cs : List Byte) : (s.emit cs).fcmd = s.fcmd := rfl
@[simp] theorem emit_col (cs : List Byte) : (s.emit cs).col = s.col := rfl
@[simp] theorem emit_txt (cs : List Byte) : (s.emit cs).txt = s.txt ++ cs := rfl
@[simp] theorem emit_pending (cs : List Byte) : (s.emit cs).pending = s.pending := rfl
@[simp] theorem emit_replies (cs : List Byte) : (s.emit cs).replies = s.replies := rfl
@[simp] theorem emit_draws (cs : List Byte) : (s.emit cs).draws = s.draws := rfl

/-! ### State.clobberScratch -/

@[simp] theorem clobberScratch_cfg : (s.clobberScratch).cfg = s.cfg := rfl
@[simp] theorem clobberScratch_rf : (s.clobberScratch).rf = s.rf := rfl
@[simp] theorem clobberScratch_scratch :
    (s.clobberScratch).scratch = (List.range s.cfg.w).map (Config.unspecifiedWord s.draws) :=
  rfl
@[simp] theorem clobberScratch_opa : (s.clobberScratch).opa = s.opa := rfl
@[simp] theorem clobberScratch_res : (s.clobberScratch).res = s.res := rfl
@[simp] theorem clobberScratch_cf : (s.clobberScratch).cf = s.cf := rfl
@[simp] theorem clobberScratch_zf : (s.clobberScratch).zf = s.zf := rfl
@[simp] theorem clobberScratch_ge : (s.clobberScratch).ge = s.ge := rfl
@[simp] theorem clobberScratch_fault : (s.clobberScratch).fault = s.fault := rfl
@[simp] theorem clobberScratch_fcode : (s.clobberScratch).fcode = s.fcode := rfl
@[simp] theorem clobberScratch_fcmd : (s.clobberScratch).fcmd = s.fcmd := rfl
@[simp] theorem clobberScratch_col : (s.clobberScratch).col = s.col := rfl
@[simp] theorem clobberScratch_txt : (s.clobberScratch).txt = s.txt := rfl
@[simp] theorem clobberScratch_pending : (s.clobberScratch).pending = s.pending := rfl
@[simp] theorem clobberScratch_replies : (s.clobberScratch).replies = s.replies := rfl
@[simp] theorem clobberScratch_draws : (s.clobberScratch).draws = s.draws + 1 := rfl

/-! ### raiseFault -/

@[simp] theorem raiseFault_cfg (code : FaultCode) (c : Word) : (raiseFault code c s).cfg = s.cfg := rfl
@[simp] theorem raiseFault_rf (code : FaultCode) (c : Word) : (raiseFault code c s).rf = s.rf := rfl
@[simp] theorem raiseFault_scratch (code : FaultCode) (c : Word) : (raiseFault code c s).scratch = s.scratch := rfl
@[simp] theorem raiseFault_opa (code : FaultCode) (c : Word) : (raiseFault code c s).opa = s.opa := rfl
@[simp] theorem raiseFault_res (code : FaultCode) (c : Word) : (raiseFault code c s).res = s.res := rfl
@[simp] theorem raiseFault_cf (code : FaultCode) (c : Word) : (raiseFault code c s).cf = s.cf := rfl
@[simp] theorem raiseFault_zf (code : FaultCode) (c : Word) : (raiseFault code c s).zf = s.zf := rfl
@[simp] theorem raiseFault_ge (code : FaultCode) (c : Word) : (raiseFault code c s).ge = s.ge := rfl
@[simp] theorem raiseFault_fault (code : FaultCode) (c : Word) : (raiseFault code c s).fault = true := rfl
@[simp] theorem raiseFault_fcode (code : FaultCode) (c : Word) : (raiseFault code c s).fcode = faultByte code := rfl
@[simp] theorem raiseFault_fcmd (code : FaultCode) (c : Word) : (raiseFault code c s).fcmd = c := rfl
@[simp] theorem raiseFault_col (code : FaultCode) (c : Word) : (raiseFault code c s).col = s.col := rfl
@[simp] theorem raiseFault_txt (code : FaultCode) (c : Word) : (raiseFault code c s).txt = s.txt := rfl
@[simp] theorem raiseFault_pending (code : FaultCode) (c : Word) : (raiseFault code c s).pending = s.pending := rfl
@[simp] theorem raiseFault_replies (code : FaultCode) (c : Word) : (raiseFault code c s).replies = s.replies := rfl
@[simp] theorem raiseFault_draws (code : FaultCode) (c : Word) : (raiseFault code c s).draws = s.draws := rfl

/-! ### addInto -/

@[simp] theorem addInto_cfg (rd rs1 L k : Nat) : (addInto s rd rs1 L k).cfg = s.cfg := rfl
@[simp] theorem addInto_rf (rd rs1 L k : Nat) :
    (addInto s rd rs1 L k).rf = writeWords s.rf (s.base rd) (valueWords L ((s.val rd L + s.val rs1 L + k) % 2 ^ (64 * L))) :=
  rfl
@[simp] theorem addInto_scratch (rd rs1 L k : Nat) : (addInto s rd rs1 L k).scratch = s.scratch := rfl
@[simp] theorem addInto_opa (rd rs1 L k : Nat) : (addInto s rd rs1 L k).opa = s.opa := rfl
@[simp] theorem addInto_res (rd rs1 L k : Nat) : (addInto s rd rs1 L k).res = s.res := rfl
@[simp] theorem addInto_cf (rd rs1 L k : Nat) :
    (addInto s rd rs1 L k).cf = carryOut (s.val rd L + s.val rs1 L + k) L :=
  rfl
@[simp] theorem addInto_zf (rd rs1 L k : Nat) : (addInto s rd rs1 L k).zf = s.zf := rfl
@[simp] theorem addInto_ge (rd rs1 L k : Nat) : (addInto s rd rs1 L k).ge = s.ge := rfl
@[simp] theorem addInto_fault (rd rs1 L k : Nat) : (addInto s rd rs1 L k).fault = s.fault := rfl
@[simp] theorem addInto_fcode (rd rs1 L k : Nat) : (addInto s rd rs1 L k).fcode = s.fcode := rfl
@[simp] theorem addInto_fcmd (rd rs1 L k : Nat) : (addInto s rd rs1 L k).fcmd = s.fcmd := rfl
@[simp] theorem addInto_col (rd rs1 L k : Nat) : (addInto s rd rs1 L k).col = s.col := rfl
@[simp] theorem addInto_txt (rd rs1 L k : Nat) : (addInto s rd rs1 L k).txt = s.txt := rfl
@[simp] theorem addInto_pending (rd rs1 L k : Nat) : (addInto s rd rs1 L k).pending = s.pending := rfl
@[simp] theorem addInto_replies (rd rs1 L k : Nat) : (addInto s rd rs1 L k).replies = s.replies := rfl
@[simp] theorem addInto_draws (rd rs1 L k : Nat) : (addInto s rd rs1 L k).draws = s.draws := rfl

/-! ### subInto -/

@[simp] theorem subInto_cfg (rd rs1 L k : Nat) : (subInto s rd rs1 L k).cfg = s.cfg := rfl
@[simp] theorem subInto_rf (rd rs1 L k : Nat) :
    (subInto s rd rs1 L k).rf = writeWords s.rf (s.base rd)
      (valueWords L (((s.val rd L : Int) - (s.val rs1 L : Int) - (k : Int)) % 2 ^ (64 * L)).toNat) :=
  rfl
@[simp] theorem subInto_scratch (rd rs1 L k : Nat) : (subInto s rd rs1 L k).scratch = s.scratch := rfl
@[simp] theorem subInto_opa (rd rs1 L k : Nat) : (subInto s rd rs1 L k).opa = s.opa := rfl
@[simp] theorem subInto_res (rd rs1 L k : Nat) : (subInto s rd rs1 L k).res = s.res := rfl
@[simp] theorem subInto_cf (rd rs1 L k : Nat) :
    (subInto s rd rs1 L k).cf = borrowOut ((s.val rd L : Int) - (s.val rs1 L : Int) - (k : Int)) :=
  rfl
@[simp] theorem subInto_zf (rd rs1 L k : Nat) : (subInto s rd rs1 L k).zf = s.zf := rfl
@[simp] theorem subInto_ge (rd rs1 L k : Nat) : (subInto s rd rs1 L k).ge = s.ge := rfl
@[simp] theorem subInto_fault (rd rs1 L k : Nat) : (subInto s rd rs1 L k).fault = s.fault := rfl
@[simp] theorem subInto_fcode (rd rs1 L k : Nat) : (subInto s rd rs1 L k).fcode = s.fcode := rfl
@[simp] theorem subInto_fcmd (rd rs1 L k : Nat) : (subInto s rd rs1 L k).fcmd = s.fcmd := rfl
@[simp] theorem subInto_col (rd rs1 L k : Nat) : (subInto s rd rs1 L k).col = s.col := rfl
@[simp] theorem subInto_txt (rd rs1 L k : Nat) : (subInto s rd rs1 L k).txt = s.txt := rfl
@[simp] theorem subInto_pending (rd rs1 L k : Nat) : (subInto s rd rs1 L k).pending = s.pending := rfl
@[simp] theorem subInto_replies (rd rs1 L k : Nat) : (subInto s rd rs1 L k).replies = s.replies := rfl
@[simp] theorem subInto_draws (rd rs1 L k : Nat) : (subInto s rd rs1 L k).draws = s.draws := rfl

/-! ### printDigits -/

@[simp] theorem printDigits_cfg (ds : List Nibble) : (printDigits s ds).cfg = s.cfg := rfl
@[simp] theorem printDigits_rf (ds : List Nibble) : (printDigits s ds).rf = s.rf := rfl
@[simp] theorem printDigits_scratch (ds : List Nibble) : (printDigits s ds).scratch = s.scratch := rfl
@[simp] theorem printDigits_opa (ds : List Nibble) : (printDigits s ds).opa = s.opa := rfl
@[simp] theorem printDigits_res (ds : List Nibble) : (printDigits s ds).res = s.res := rfl
@[simp] theorem printDigits_cf (ds : List Nibble) : (printDigits s ds).cf = s.cf := rfl
@[simp] theorem printDigits_zf (ds : List Nibble) : (printDigits s ds).zf = s.zf := rfl
@[simp] theorem printDigits_ge (ds : List Nibble) : (printDigits s ds).ge = s.ge := rfl
@[simp] theorem printDigits_fault (ds : List Nibble) : (printDigits s ds).fault = s.fault := rfl
@[simp] theorem printDigits_fcode (ds : List Nibble) : (printDigits s ds).fcode = s.fcode := rfl
@[simp] theorem printDigits_fcmd (ds : List Nibble) : (printDigits s ds).fcmd = s.fcmd := rfl
@[simp] theorem printDigits_col (ds : List Nibble) :
    (printDigits s ds).col = (printedDigits s.cfg.decLineDigits s.col ds).2 :=
  rfl
@[simp] theorem printDigits_txt (ds : List Nibble) :
    (printDigits s ds).txt = s.txt ++ (printedDigits s.cfg.decLineDigits s.col ds).1 :=
  rfl
@[simp] theorem printDigits_pending (ds : List Nibble) : (printDigits s ds).pending = s.pending := rfl
@[simp] theorem printDigits_replies (ds : List Nibble) : (printDigits s ds).replies = s.replies := rfl
@[simp] theorem printDigits_draws (ds : List Nibble) : (printDigits s ds).draws = s.draws := rfl

/-! ### setFlags -/

@[simp] theorem setFlags_cfg (v : Word) : (setFlags v s).cfg = s.cfg := rfl
@[simp] theorem setFlags_rf (v : Word) : (setFlags v s).rf = s.rf := rfl
@[simp] theorem setFlags_scratch (v : Word) : (setFlags v s).scratch = s.scratch := rfl
@[simp] theorem setFlags_opa (v : Word) : (setFlags v s).opa = s.opa := rfl
@[simp] theorem setFlags_res (v : Word) : (setFlags v s).res = s.res := rfl
@[simp] theorem setFlags_cf (v : Word) : (setFlags v s).cf = v.getLsbD 0 := rfl
@[simp] theorem setFlags_zf (v : Word) : (setFlags v s).zf = v.getLsbD 1 := rfl
@[simp] theorem setFlags_ge (v : Word) : (setFlags v s).ge = v.getLsbD 2 := rfl
@[simp] theorem setFlags_fault (v : Word) : (setFlags v s).fault = s.fault := rfl
@[simp] theorem setFlags_fcode (v : Word) : (setFlags v s).fcode = s.fcode := rfl
@[simp] theorem setFlags_fcmd (v : Word) : (setFlags v s).fcmd = s.fcmd := rfl
@[simp] theorem setFlags_col (v : Word) : (setFlags v s).col = s.col := rfl
@[simp] theorem setFlags_txt (v : Word) : (setFlags v s).txt = s.txt := rfl
@[simp] theorem setFlags_pending (v : Word) : (setFlags v s).pending = s.pending := rfl
@[simp] theorem setFlags_replies (v : Word) : (setFlags v s).replies = s.replies := rfl
@[simp] theorem setFlags_draws (v : Word) : (setFlags v s).draws = s.draws := rfl

/-! ### reply -/

@[simp] theorem reply_cfg (r : Reply) : (reply r s).cfg = s.cfg := rfl
@[simp] theorem reply_rf (r : Reply) : (reply r s).rf = s.rf := rfl
@[simp] theorem reply_scratch (r : Reply) : (reply r s).scratch = s.scratch := rfl
@[simp] theorem reply_opa (r : Reply) : (reply r s).opa = s.opa := rfl
@[simp] theorem reply_res (r : Reply) : (reply r s).res = s.res := rfl
@[simp] theorem reply_cf (r : Reply) : (reply r s).cf = s.cf := rfl
@[simp] theorem reply_zf (r : Reply) : (reply r s).zf = s.zf := rfl
@[simp] theorem reply_ge (r : Reply) : (reply r s).ge = s.ge := rfl
@[simp] theorem reply_fault (r : Reply) : (reply r s).fault = s.fault := rfl
@[simp] theorem reply_fcode (r : Reply) : (reply r s).fcode = s.fcode := rfl
@[simp] theorem reply_fcmd (r : Reply) : (reply r s).fcmd = s.fcmd := rfl
@[simp] theorem reply_col (r : Reply) : (reply r s).col = s.col := rfl
@[simp] theorem reply_txt (r : Reply) : (reply r s).txt = s.txt := rfl
@[simp] theorem reply_pending (r : Reply) : (reply r s).pending = s.pending := rfl
@[simp] theorem reply_replies (r : Reply) : (reply r s).replies = s.replies ++ [r] := rfl
@[simp] theorem reply_draws (r : Reply) : (reply r s).draws = s.draws := rfl

/-! ### resetEvent -/

@[simp] theorem resetEvent_cfg : (resetEvent s).cfg = s.cfg := rfl
@[simp] theorem resetEvent_rf :
    (resetEvent s).rf = writeWords [] 0 ((List.range (s.cfg.nreg * s.cfg.w)).map (Config.unspecifiedWord s.draws)) :=
  rfl
@[simp] theorem resetEvent_scratch :
    (resetEvent s).scratch = (List.range s.cfg.w).map (fun k => Config.unspecifiedWord s.draws (s.cfg.nreg * s.cfg.w + k)) :=
  rfl
@[simp] theorem resetEvent_opa : (resetEvent s).opa = 0 := rfl
@[simp] theorem resetEvent_res : (resetEvent s).res = 0 := rfl
@[simp] theorem resetEvent_cf : (resetEvent s).cf = false := rfl
@[simp] theorem resetEvent_zf : (resetEvent s).zf = false := rfl
@[simp] theorem resetEvent_ge : (resetEvent s).ge = false := rfl
@[simp] theorem resetEvent_fault : (resetEvent s).fault = false := rfl
@[simp] theorem resetEvent_fcode : (resetEvent s).fcode = 0 := rfl
@[simp] theorem resetEvent_fcmd : (resetEvent s).fcmd = 0 := rfl
@[simp] theorem resetEvent_col : (resetEvent s).col = 0 := rfl
@[simp] theorem resetEvent_txt : (resetEvent s).txt = [] := rfl
@[simp] theorem resetEvent_pending : (resetEvent s).pending = s.pending := rfl
@[simp] theorem resetEvent_replies : (resetEvent s).replies = s.replies := rfl
@[simp] theorem resetEvent_draws : (resetEvent s).draws = s.draws + 1 := rfl

/-! ### State.resetOf -/

@[simp] theorem resetOf_cfg : (State.resetOf cfg).cfg = cfg := rfl
@[simp] theorem resetOf_rf : (State.resetOf cfg).rf = [] := rfl
@[simp] theorem resetOf_scratch : (State.resetOf cfg).scratch = List.replicate cfg.w 0 := rfl
@[simp] theorem resetOf_opa : (State.resetOf cfg).opa = 0 := rfl
@[simp] theorem resetOf_res : (State.resetOf cfg).res = 0 := rfl
@[simp] theorem resetOf_cf : (State.resetOf cfg).cf = false := rfl
@[simp] theorem resetOf_zf : (State.resetOf cfg).zf = false := rfl
@[simp] theorem resetOf_ge : (State.resetOf cfg).ge = false := rfl
@[simp] theorem resetOf_fault : (State.resetOf cfg).fault = false := rfl
@[simp] theorem resetOf_fcode : (State.resetOf cfg).fcode = 0 := rfl
@[simp] theorem resetOf_fcmd : (State.resetOf cfg).fcmd = 0 := rfl
@[simp] theorem resetOf_col : (State.resetOf cfg).col = 0 := rfl
@[simp] theorem resetOf_txt : (State.resetOf cfg).txt = [] := rfl
@[simp] theorem resetOf_pending : (State.resetOf cfg).pending = [] := rfl
@[simp] theorem resetOf_replies : (State.resetOf cfg).replies = [] := rfl
@[simp] theorem resetOf_draws : (State.resetOf cfg).draws = 0 := rfl

/-! ### faultReturn -/

@[simp] theorem faultReturn_cfg : (faultReturn s).cfg = s.cfg := by
  unfold faultReturn; split <;> rfl
@[simp] theorem faultReturn_rf : (faultReturn s).rf = s.rf := by
  unfold faultReturn; split <;> rfl
@[simp] theorem faultReturn_scratch : (faultReturn s).scratch = s.scratch := by
  unfold faultReturn; split <;> rfl
@[simp] theorem faultReturn_opa : (faultReturn s).opa = s.opa := by
  unfold faultReturn; split <;> rfl
@[simp] theorem faultReturn_res : (faultReturn s).res = s.res := by
  unfold faultReturn; split <;> rfl
@[simp] theorem faultReturn_cf : (faultReturn s).cf = s.cf := by
  unfold faultReturn; split <;> rfl
@[simp] theorem faultReturn_zf : (faultReturn s).zf = s.zf := by
  unfold faultReturn; split <;> rfl
@[simp] theorem faultReturn_ge : (faultReturn s).ge = s.ge := by
  unfold faultReturn; split <;> rfl
@[simp] theorem faultReturn_fault : (faultReturn s).fault = false := by
  unfold faultReturn; split <;> simp_all
theorem faultReturn_fcode : (faultReturn s).fcode = if s.fault then 0 else s.fcode := by
  unfold faultReturn; split <;> rfl
theorem faultReturn_fcmd : (faultReturn s).fcmd = if s.fault then 0 else s.fcmd := by
  unfold faultReturn; split <;> rfl
@[simp] theorem faultReturn_col : (faultReturn s).col = s.col := by
  unfold faultReturn; split <;> rfl
@[simp] theorem faultReturn_txt : (faultReturn s).txt = s.txt := by
  unfold faultReturn; split <;> rfl
@[simp] theorem faultReturn_pending : (faultReturn s).pending = s.pending := by
  unfold faultReturn; split <;> rfl
@[simp] theorem faultReturn_replies : (faultReturn s).replies = s.replies := by
  unfold faultReturn; split <;> rfl
@[simp] theorem faultReturn_draws : (faultReturn s).draws = s.draws := by
  unfold faultReturn; split <;> rfl

end Sys2Proof.Machine
end

