-- ==== Sys2Proof/Laws/Memory.lean ====
section
/-! SUPPORT. The laws of the register file as bytes: what a read gives after a write, that a range is its bytes, and that every
write keeps the canonical form (20_memory R51, R57). -/

namespace Sys2Proof.Machine

/-- A predicate on addresses that is downward closed splits a list where it first fails. -/
theorem readByte_append_right (a b : Memory) (q : Nat) (h : ∀ c ∈ a, c.1 < q) :
    readByte (a ++ b) q = readByte b q := by
  induction a with
  | nil => rfl
  | cons c a ih =>
    have hc : c.1 < q := h c (by simp)
    have h1 : ¬ q < c.1 := by omega
    have h2 : ¬ c.1 = q := by omega
    simp only [List.cons_append, readByte, h1, h2, if_false]
    exact ih (fun d hd => h d (by simp [hd]))

/-- Entries above the address do not matter. -/
theorem readByte_of_head_gt (m : Memory) (q : Nat) (h : ∀ c ∈ m.head?, q < c.1) :
    readByte m q = unlistedByte := by
  cases m with
  | nil => rfl
  | cons c m => have : q < c.1 := h c (by simp)
                simp [readByte, this]

theorem readByte_append_left (a b : Memory) (q : Nat) (hb : ∀ c ∈ b.head?, q < c.1) :
    readByte (a ++ b) q = readByte a q := by
  induction a with
  | nil => exact readByte_of_head_gt b q hb
  | cons c a ih => simp only [List.cons_append, readByte, ih]

theorem takeWhile_lt_addresses (m : Memory) (p : Nat) :
    ∀ c ∈ m.takeWhile (fun c => decide (c.1 < p)), c.1 < p := by
  intro c hc
  simpa using List.mem_takeWhile_imp hc

theorem dropWhile_lt_head (m : Memory) (p : Nat) :
    ∀ c ∈ (m.dropWhile (fun c => decide (c.1 < p))).head?, p ≤ c.1 := by
  intro c hc
  have := List.head?_dropWhile_not (p := fun c : Host.Cell => decide (c.1 < p)) m
  cases h : (m.dropWhile (fun c => decide (c.1 < p))).head? with
  | none => simp [h] at hc
  | some d =>
    rw [h] at this hc
    simp at hc; subst hc
    simpa using this

theorem readByte_dropWhile (m : Memory) (p q : Nat) (h : p ≤ q) :
    readByte (m.dropWhile (fun c => decide (c.1 < p))) q = readByte m q := by
  induction m with
  | nil => rfl
  | cons c m ih =>
    by_cases hc : c.1 < p
    · have h1 : ¬ q < c.1 := by omega
      have h2 : ¬ c.1 = q := by omega
      simp [List.dropWhile, hc, readByte, h1, h2, ih]
    · simp [List.dropWhile, hc]

theorem readByte_takeWhile (m : Memory) (p q : Nat) (h : q < p) :
    readByte (m.takeWhile (fun c => decide (c.1 < p))) q = readByte m q := by
  induction m with
  | nil => rfl
  | cons c m ih =>
    by_cases hc : c.1 < p
    · simp [List.takeWhile, hc, readByte, ih]
    · have h1 : q < c.1 := by omega
      simp [List.takeWhile, hc, readByte, h1]

theorem cellsFrom_addresses (bs : List Byte) (p : Nat) :
    ∀ c ∈ cellsFrom p bs, p ≤ c.1 ∧ c.1 < p + bs.length := by
  induction bs generalizing p with
  | nil => intro c hc; simp [cellsFrom] at hc
  | cons b bs ih =>
    intro c hc
    by_cases hb : b = unlistedByte
    · simp only [cellsFrom, hb, if_true] at hc
      have := ih (p + 1) c hc
      simp only [List.length_cons]; omega
    · simp only [cellsFrom, hb, if_false, List.mem_cons] at hc
      rcases hc with rfl | hc
      · simp
      · have := ih (p + 1) c hc
        simp only [List.length_cons]; omega

theorem readByte_cellsFrom (bs : List Byte) (p q : Nat) (h : p ≤ q) :
    readByte (cellsFrom p bs) q = bs.getD (q - p) unlistedByte := by
  induction bs generalizing p with
  | nil => simp [cellsFrom, readByte]
  | cons b bs ih =>
    rcases Nat.eq_or_lt_of_le h with rfl | hlt
    · by_cases hb : b = unlistedByte
      · simp only [cellsFrom, hb, if_true, Nat.sub_self, List.getD_cons_zero]
        apply readByte_of_head_gt
        intro c hc
        have := cellsFrom_addresses bs (p + 1) c (List.mem_of_mem_head? hc)
        omega
      · simp [cellsFrom, hb, readByte]
    · have e : q - p = (q - (p + 1)) + 1 := by omega
      rw [e, List.getD_cons_succ, ← ih (p + 1) hlt]
      by_cases hb : b = unlistedByte
      · simp [cellsFrom, hb]
      · have h1 : ¬ q < p := by omega
        have h2 : ¬ p = q := by omega
        simp [cellsFrom, hb, readByte, h1, h2]

/-- Reading a byte after a range is written: the written byte inside the range, what was there outside it. -/
theorem readByte_writeRange (m : Memory) (p : Nat) (bs : List Byte) (q : Nat) :
    readByte (writeRange m p bs) q =
      if p ≤ q ∧ q < p + bs.length then bs.getD (q - p) unlistedByte else readByte m q := by
  have hdrop := dropWhile_lt_head m (p + bs.length)
  have hcells := cellsFrom_addresses bs p
  unfold writeRange
  by_cases h1 : q < p
  · rw [if_neg (by omega), List.append_assoc, readByte_append_left, readByte_takeWhile m p q h1]
    intro c hc
    rw [List.head?_append] at hc
    cases hx : (cellsFrom p bs).head? with
    | some d =>
      simp only [hx, Option.some_or, Option.mem_def, Option.some.injEq] at hc
      subst hc
      have := hcells d (List.mem_of_mem_head? hx); omega
    | none =>
      simp only [hx, Option.none_or] at hc
      have := hdrop c hc; omega
  · by_cases h2 : q < p + bs.length
    · rw [if_pos ⟨by omega, h2⟩, readByte_append_left, readByte_append_right, readByte_cellsFrom bs p q (by omega)]
      · intro c hc
        have := takeWhile_lt_addresses m p c hc; omega
      · intro c hc
        have := hdrop c hc; omega
    · rw [if_neg (by omega), readByte_append_right, readByte_dropWhile m _ q (by omega)]
      intro c hc
      rcases List.mem_append.1 hc with hc | hc
      · have := takeWhile_lt_addresses m p c hc; omega
      · have := hcells c hc; omega

/-- Reading a byte after a byte is written. -/
theorem readByte_writeByte (m : Memory) (p q : Nat) (b : Byte) :
    readByte (writeByte m p b) q = if q = p then b else readByte m q := by
  rw [writeByte, readByte_writeRange]
  by_cases h : q = p
  · subst h; simp
  · rw [if_neg (by simp only [List.length_singleton]; omega), if_neg h]

@[simp] theorem length_readRange (m : Memory) (p n : Nat) : (readRange m p n).length = n := by
  induction m generalizing p n with
  | nil => simp [readRange]
  | cons c m ih =>
    unfold readRange
    split
    · exact ih p n
    · split
      · simp
      · simp [ih]; omega

/-- A range is its bytes. -/
theorem readRange_eq (m : Memory) (p n : Nat) :
    readRange m p n = (List.range n).map (fun k => readByte m (p + k)) := by
  apply List.ext_getElem?
  intro i
  rw [List.getElem?_map]
  induction m generalizing p n i with
  | nil =>
    simp only [readRange, List.getElem?_replicate, readByte]
    by_cases h : i < n <;> simp [h]
  | cons c m ih =>
    unfold readRange
    by_cases hp : c.1 < p
    · rw [if_pos hp, ih]
      have h1 : ¬ p + i < c.1 := by omega
      have h2 : ¬ c.1 = p + i := by omega
      by_cases h : i < n <;> simp [h, readByte, h1, h2]
    · rw [if_neg hp]
      by_cases hn : n ≤ c.1 - p
      · rw [if_pos hn]
        by_cases h : i < n
        · have h1 : p + i < c.1 := by omega
          simp [h, readByte, h1]
        · simp [h]
      · rw [if_neg hn]
        by_cases hi : i < c.1 - p
        · have h1 : p + i < c.1 := by omega
          have h2 : i < n := by omega
          rw [List.getElem?_append_left (by simpa using hi)]
          simp [hi, h2, readByte, h1]
        · rw [List.getElem?_append_right (by simpa using Nat.not_lt.1 hi)]
          simp only [List.length_replicate]
          rcases Nat.eq_or_lt_of_le (Nat.not_lt.1 hi) with he | hgt
          · have e0 : i - (c.1 - p) = 0 := by omega
            have h1 : ¬ p + i < c.1 := by omega
            have h2 : c.1 = p + i := by omega
            have h3 : i < n := by omega
            simp [e0, h3, readByte, ← h2]
          · have e1 : i - (c.1 - p) = (i - (c.1 - p) - 1) + 1 := by omega
            have h1 : ¬ p + i < c.1 := by omega
            have h2 : ¬ c.1 = p + i := by omega
            rw [e1, List.getElem?_cons_succ, ih]
            have e2 : c.1 + 1 + (i - (c.1 - p) - 1) = p + i := by omega
            by_cases h : i < n
            · have h3 : i - (c.1 - p) - 1 < n - (c.1 - p) - 1 := by omega
              simp [h, h3, readByte, h1, h2, e2]
            · have h3 : ¬ i - (c.1 - p) - 1 < n - (c.1 - p) - 1 := by omega
              simp [h, h3]

theorem cellsFrom_wf (bs : List Byte) (p : Nat) : Memory.wf (cellsFrom p bs) := by
  induction bs generalizing p with
  | nil => exact ⟨List.Pairwise.nil, by simp [cellsFrom]⟩
  | cons b bs ih =>
    by_cases hb : b = unlistedByte
    · simp only [cellsFrom, hb, if_true]
      exact ih (p + 1)
    · have ha := cellsFrom_addresses bs (p + 1)
      obtain ⟨h1, h2⟩ := ih (p + 1)
      simp only [cellsFrom, hb, if_false]
      refine ⟨List.pairwise_cons.2 ⟨fun c hc => ?_, h1⟩, fun c hc => ?_⟩
      · have := ha c hc; simp only; omega
      · rcases List.mem_cons.1 hc with rfl | hc
        · exact hb
        · exact h2 c hc

/-- In a rising list, what `dropWhile` keeps lies at or above the bound. -/
theorem dropWhile_lt_addresses (m : Memory) (h : m.Pairwise (fun c d => c.1 < d.1)) (p : Nat) :
    ∀ c ∈ m.dropWhile (fun c => decide (c.1 < p)), p ≤ c.1 := by
  induction m with
  | nil => simp
  | cons d m ih =>
    obtain ⟨hd, hm⟩ := List.pairwise_cons.1 h
    by_cases hp : d.1 < p
    · simpa [List.dropWhile, hp] using ih hm
    · intro c hc
      simp only [List.dropWhile, hp, decide_false] at hc
      rcases List.mem_cons.1 hc with rfl | hc
      · omega
      · have := hd c hc; omega

/-- Every write keeps the canonical form. -/
theorem writeRange_wf (m : Memory) (h : Memory.wf m) (p : Nat) (bs : List Byte) :
    Memory.wf (writeRange m p bs) := by
  obtain ⟨h1, h2⟩ := h
  obtain ⟨c1, c2⟩ := cellsFrom_wf bs p
  have ht := takeWhile_lt_addresses m p
  have hd := dropWhile_lt_addresses m h1 (p + bs.length)
  have hc := cellsFrom_addresses bs p
  refine ⟨?_, fun c hm => ?_⟩
  · unfold writeRange
    refine List.pairwise_append.2 ⟨List.pairwise_append.2 ⟨h1.sublist (List.takeWhile_sublist _), c1, ?_⟩,
      h1.sublist (List.dropWhile_sublist _), ?_⟩
    · intro a ha b hb
      have := ht a ha; have := hc b hb; omega
    · intro a ha b hb
      have := hd b hb
      rcases List.mem_append.1 ha with ha | ha
      · have := ht a ha; omega
      · have := hc a ha; omega
  · unfold writeRange at hm
    rcases List.mem_append.1 hm with hm | hm
    · rcases List.mem_append.1 hm with hm | hm
      · exact h2 c ((List.takeWhile_sublist _).subset hm)
      · exact c2 c hm
    · exact h2 c ((List.dropWhile_sublist _).subset hm)

theorem writeByte_wf (m : Memory) (h : Memory.wf m) (p : Nat) (b : Byte) : Memory.wf (writeByte m p b) :=
  writeRange_wf m h p [b]

theorem memWrite_wf (m : Memory) (h : Memory.wf m) (p n v : Nat) : Memory.wf (memWrite m p n v) :=
  writeRange_wf m h p _

theorem writeWord_wf (m : Memory) (h : Memory.wf m) (a : Nat) (v : Word) : Memory.wf (writeWord m a v) :=
  memWrite_wf m h _ _ _

theorem writeWords_wf (m : Memory) (h : Memory.wf m) (a : Nat) (ws : List Word) : Memory.wf (writeWords m a ws) :=
  writeRange_wf m h _ _

/-- A write lists no address outside the old ones and its own range. -/
theorem writeRange_addresses (m : Memory) (p : Nat) (bs : List Byte) (c : Host.Cell) (h : c ∈ writeRange m p bs) :
    c ∈ m ∨ (p ≤ c.1 ∧ c.1 < p + bs.length) := by
  unfold writeRange at h
  rcases List.mem_append.1 h with h | h
  · rcases List.mem_append.1 h with h | h
    · exact .inl ((List.takeWhile_sublist _).subset h)
    · exact .inr (cellsFrom_addresses bs p c h)
  · exact .inl ((List.dropWhile_sublist _).subset h)

/-- Equal bytes are equal data: two canonical lists that read alike are the same list. -/
theorem eq_of_readByte_eq (m m' : Memory) (h : Memory.wf m) (h' : Memory.wf m')
    (e : ∀ q, readByte m q = readByte m' q) : m = m' := by
  induction m generalizing m' with
  | nil =>
    cases m' with
    | nil => rfl
    | cons c m' =>
      have := e c.1
      simp only [readByte, Nat.lt_irrefl, if_false, if_true] at this
      exact absurd this.symm (h'.2 c (by simp))
  | cons c m ih =>
    obtain ⟨hp, hm⟩ := List.pairwise_cons.1 h.1
    cases m' with
    | nil =>
      have := e c.1
      simp only [readByte, Nat.lt_irrefl, if_false, if_true] at this
      exact absurd this (h.2 c (by simp))
    | cons d m' =>
      obtain ⟨hp', hm'⟩ := List.pairwise_cons.1 h'.1
      have hcd : c.1 = d.1 := by
        rcases Nat.lt_trichotomy c.1 d.1 with hl | he | hg
        · have := e c.1
          simp only [readByte, Nat.lt_irrefl, if_false, if_true, hl] at this
          exact absurd this (h.2 c (by simp))
        · exact he
        · have := e d.1
          simp only [readByte, Nat.lt_irrefl, if_false, if_true, hg] at this
          exact absurd this.symm (h'.2 d (by simp))
      have hv : c.2 = d.2 := by
        have := e c.1
        simpa [readByte, hcd] using this
      have hc : c = d := Prod.ext hcd hv
      subst hc
      congr 1
      refine ih m' ⟨hm, fun x hx => h.2 x (by simp [hx])⟩ ⟨hm', fun x hx => h'.2 x (by simp [hx])⟩ (fun q => ?_)
      by_cases hq : c.1 < q
      · have := e q
        have h1 : ¬ q < c.1 := by omega
        have h2 : ¬ c.1 = q := by omega
        simpa [readByte, h1, h2] using this
      · rw [readByte_of_head_gt m q, readByte_of_head_gt m' q]
        · intro x hx
          have := hp' x (List.mem_of_mem_head? hx); omega
        · intro x hx
          have := hp x (List.mem_of_mem_head? hx); omega

end Sys2Proof.Machine
end

