-- ==== Sys2Proof/Laws/Words.lean ====
section
/-! SUPPORT. The laws of bytes, words and values (00_scope R9, R10; 20_memory R51 to R53): each view read back after a write of
the same view, and what a write leaves alone. -/

namespace Sys2Proof.Machine

/-! ### Runs of bytes -/

@[simp] theorem length_valueBytes (n v : Nat) : (valueBytes n v).length = n := by
  induction n generalizing v with
  | zero => rfl
  | succ n ih => simp [valueBytes, ih]

theorem bytesValue_lt (bs : List Byte) : bytesValue bs < 256 ^ bs.length := by
  induction bs with
  | nil => simp [bytesValue]
  | cons b bs ih =>
    have := b.isLt
    simp only [bytesValue, List.length_cons, Nat.pow_succ]; omega

theorem bytesValue_valueBytes (n v : Nat) : bytesValue (valueBytes n v) = v % 256 ^ n := by
  induction n generalizing v with
  | zero => simp [valueBytes, bytesValue, Nat.mod_one]
  | succ n ih =>
    have h : (256 : Nat) ^ (n + 1) = 2 ^ 8 * 256 ^ n := by rw [Nat.pow_succ']; rfl
    rw [valueBytes, bytesValue, ih, BitVec.toNat_ofNat, h, Nat.mod_mul, show (2 : Nat) ^ 8 = 256 from rfl]

theorem valueBytes_bytesValue (bs : List Byte) : valueBytes bs.length (bytesValue bs) = bs := by
  induction bs with
  | nil => rfl
  | cons b bs ih =>
    have hb := b.isLt
    have h1 : (b.toNat + 256 * bytesValue bs) / 256 = bytesValue bs := by omega
    have h2 : BitVec.ofNat 8 (b.toNat + 256 * bytesValue bs) = b := by
      apply BitVec.eq_of_toNat_eq
      simp only [BitVec.toNat_ofNat]; omega
    simp only [List.length_cons, valueBytes, bytesValue, h1, h2, ih]

theorem valueBytes_getElem? (n v i : Nat) (h : i < n) :
    (valueBytes n v)[i]? = some (BitVec.ofNat 8 (v / 256 ^ i)) := by
  induction n generalizing v i with
  | zero => omega
  | succ n ih =>
    cases i with
    | zero => simp [valueBytes]
    | succ i =>
      simp only [valueBytes, List.getElem?_cons_succ]
      rw [ih _ _ (by omega), Nat.div_div_eq_div_mul, Nat.pow_succ']

theorem bytesValue_append (a b : List Byte) : bytesValue (a ++ b) = bytesValue a + 256 ^ a.length * bytesValue b := by
  induction a with
  | nil => simp [bytesValue]
  | cons x a ih => simp only [List.cons_append, bytesValue, ih, List.length_cons, Nat.pow_succ']; ring

/-! ### Words in the register file -/

/-- Physical byte k of word a is bits 8k+7 .. 8k of it (20_memory R51). -/
theorem readByte_eq_readWord (m : Memory) (a k : Nat) (h : k < 8) :
    readByte m (8 * a + k) = BitVec.ofNat 8 ((readWord m a).toNat / 256 ^ k) := by
  have hlen : (readRange m (8 * a) 8).length = 8 := length_readRange ..
  have hlt := bytesValue_lt (readRange m (8 * a) 8)
  rw [hlen] at hlt
  have h1 : (readWord m a).toNat = bytesValue (readRange m (8 * a) 8) := by
    simp only [readWord, memRead, BitVec.toNat_ofNat]
    exact Nat.mod_eq_of_lt (by simpa using hlt)
  have h2 := valueBytes_bytesValue (readRange m (8 * a) 8)
  rw [hlen] at h2
  have h3 := valueBytes_getElem? 8 (bytesValue (readRange m (8 * a) 8)) k h
  rw [h2, readRange_eq] at h3
  simp only [List.getElem?_map, List.getElem?_range h, Option.map_some, Option.some.injEq] at h3
  rw [h1, h3, readRange_eq]

/-- A word depends on its eight bytes only. -/
theorem readWord_congr (m m' : Memory) (a b : Nat) (h : ∀ k < 8, readByte m (8 * a + k) = readByte m' (8 * b + k)) :
    readWord m a = readWord m' b := by
  have : readRange m (8 * a) 8 = readRange m' (8 * b) 8 := by
    rw [readRange_eq, readRange_eq]
    exact List.map_congr_left fun k hk => h k (by simpa using hk)
  simp only [readWord, memRead, this]

@[simp] theorem length_wordBytes (ws : List Word) :
    (ws.flatMap (fun w => valueBytes 8 w.toNat)).length = 8 * ws.length := by
  induction ws with
  | nil => rfl
  | cons w ws ih => simp only [List.flatMap_cons, List.length_append, ih, length_valueBytes, List.length_cons]; omega

theorem wordBytes_getElem? (ws : List Word) (i k : Nat) (hk : k < 8) :
    (ws.flatMap (fun w => valueBytes 8 w.toNat))[8 * i + k]? =
      ws[i]?.map (fun w => BitVec.ofNat 8 (w.toNat / 256 ^ k)) := by
  induction ws generalizing i with
  | nil => simp
  | cons w ws ih =>
    cases i with
    | zero =>
      simp only [List.flatMap_cons, Nat.mul_zero, Nat.zero_add, List.getElem?_cons_zero, Option.map_some]
      rw [List.getElem?_append_left (by simpa using hk), valueBytes_getElem? 8 _ _ hk]
    | succ i =>
      simp only [List.flatMap_cons, List.getElem?_cons_succ]
      rw [List.getElem?_append_right (by simp only [length_valueBytes]; omega), length_valueBytes]
      have : 8 * (i + 1) + k - 8 = 8 * i + k := by omega
      rw [this, ih]

/-- Every byte outside the words written reads as before. -/
theorem readByte_writeWords_outside (m : Memory) (a : Nat) (ws : List Word) (q : Nat)
    (h : q < 8 * a ∨ 8 * a + 8 * ws.length ≤ q) : readByte (writeWords m a ws) q = readByte m q := by
  rw [writeWords, readByte_writeRange, if_neg (by rw [length_wordBytes]; omega)]

/-- A byte of a word that was written. -/
theorem readByte_writeWords (m : Memory) (a : Nat) (ws : List Word) (i k : Nat) (hi : i < ws.length) (hk : k < 8) :
    readByte (writeWords m a ws) (8 * (a + i) + k) = BitVec.ofNat 8 (ws[i].toNat / 256 ^ k) := by
  rw [writeWords, readByte_writeRange, if_pos (by rw [length_wordBytes]; omega)]
  have e : 8 * (a + i) + k - 8 * a = 8 * i + k := by omega
  rw [e, List.getD_eq_getElem?_getD, wordBytes_getElem? ws i k hk, List.getElem?_eq_getElem hi]
  rfl

/-- The word whose eight bytes are those of v is v. -/
theorem readWord_of_bytes (m : Memory) (a : Nat) (v : Word)
    (h : ∀ k < 8, readByte m (8 * a + k) = BitVec.ofNat 8 (v.toNat / 256 ^ k)) : readWord m a = v := by
  have hr : readRange m (8 * a) 8 = valueBytes 8 v.toNat := by
    apply List.ext_getElem?
    intro k
    by_cases hk : k < 8
    · rw [valueBytes_getElem? 8 _ _ hk, readRange_eq]
      simp [hk, h k hk]
    · rw [List.getElem?_eq_none (by simp; omega), List.getElem?_eq_none (by simp; omega)]
  apply BitVec.eq_of_toNat_eq
  have := v.isLt
  simp only [readWord, memRead, hr, bytesValue_valueBytes, BitVec.toNat_ofNat]
  omega

/-- Reading a word after words are written: the written word inside the range, what was there outside it. -/
theorem readWord_writeWords (m : Memory) (a : Nat) (ws : List Word) (b : Nat) :
    readWord (writeWords m a ws) b =
      if a ≤ b then (if h : b - a < ws.length then ws[b - a] else readWord m b) else readWord m b := by
  by_cases hab : a ≤ b
  · rw [if_pos hab]
    by_cases h : b - a < ws.length
    · rw [dif_pos h]
      refine readWord_of_bytes _ _ _ fun k hk => ?_
      have := readByte_writeWords m a ws (b - a) k h hk
      have e : a + (b - a) = b := by omega
      rwa [e] at this
    · rw [dif_neg h]
      exact readWord_congr _ _ _ _ fun k hk => readByte_writeWords_outside _ _ _ _ (by omega)
  · rw [if_neg hab]
    exact readWord_congr _ _ _ _ fun k hk => readByte_writeWords_outside _ _ _ _ (by omega)

theorem writeWord_eq_writeWords (m : Memory) (a : Nat) (v : Word) : writeWord m a v = writeWords m a [v] := by
  simp [writeWord, memWrite, writeWords]

/-- Reading a word after a word is written. -/
theorem readWord_writeWord (m : Memory) (a b : Nat) (v : Word) :
    readWord (writeWord m a v) b = if b = a then v else readWord m b := by
  rw [writeWord_eq_writeWords, readWord_writeWords]
  by_cases h : b = a
  · subst h; simp
  · rw [if_neg h]
    split
    · rw [dif_neg (by simp only [List.length_singleton]; omega)]
    · rfl

@[simp] theorem length_wordsFromBytes (L : Nat) (bs : List Byte) : (wordsFromBytes L bs).length = L := by
  induction L generalizing bs with
  | zero => rfl
  | succ L ih => simp [wordsFromBytes, ih]

@[simp] theorem length_readWords (m : Memory) (a L : Nat) : (readWords m a L).length = L := by
  simp [readWords]

theorem take_map_range {α : Type} (f : Nat → α) (n k : Nat) (h : k ≤ n) :
    ((List.range n).map f).take k = (List.range k).map f := by
  rw [← List.map_take, List.take_range, Nat.min_eq_left h]

theorem drop_map_range {α : Type} (f : Nat → α) (n k : Nat) :
    ((List.range n).map f).drop k = (List.range (n - k)).map (fun i => f (k + i)) := by
  apply List.ext_getElem?
  intro i
  simp only [List.getElem?_drop, List.getElem?_map]
  by_cases h : i < n - k
  · rw [List.getElem?_range h, List.getElem?_range (by omega)]; rfl
  · rw [List.getElem?_eq_none (by simp; omega), List.getElem?_eq_none (by simp; omega)]; rfl

/-- A run of words is its words. -/
theorem readWords_eq (m : Memory) (a L : Nat) : readWords m a L = (List.range L).map (fun k => readWord m (a + k)) := by
  unfold readWords
  induction L generalizing a with
  | zero => rfl
  | succ L ih =>
    have e : 8 * (L + 1) - 8 = 8 * L := by omega
    rw [wordsFromBytes, List.range_succ_eq_map, List.map_cons, List.map_map, readRange_eq,
      take_map_range _ _ _ (by omega), drop_map_range, e]
    have h1 : (List.range 8).map (fun k => readByte m (8 * a + k)) = readRange m (8 * a) 8 := by rw [readRange_eq]
    have h2 : (List.range (8 * L)).map (fun i => readByte m (8 * a + (8 + i))) = readRange m (8 * (a + 1)) (8 * L) := by
      rw [readRange_eq]
      exact List.map_congr_left fun i _ => by congr 1; omega
    rw [h1, h2, ih]
    congr 1
    exact List.map_congr_left fun i _ => by simp only [Function.comp]; congr 1; omega

theorem getElem_readWords (m : Memory) (a L k : Nat) (h : k < (readWords m a L).length) :
    (readWords m a L)[k] = readWord m (a + k) := by
  have := readWords_eq m a L
  rw [List.getElem_of_eq this]
  simp

/-- Writing words and reading the same range gives them back. -/
theorem readWords_writeWords_same (m : Memory) (a : Nat) (ws : List Word) :
    readWords (writeWords m a ws) a ws.length = ws := by
  rw [readWords_eq]
  apply List.ext_getElem
  · simp
  · intro i h1 h2
    simp only [List.getElem_map, List.getElem_range]
    rw [readWord_writeWords, if_pos (by omega)]
    have e : a + i - a = i := by omega
    simp only [e]
    rw [dif_pos h2]

/-- A run of words that a write does not touch reads as before. -/
theorem readWords_writeWords_disjoint (m : Memory) (a : Nat) (ws : List Word) (b L : Nat)
    (h : b + L ≤ a ∨ a + ws.length ≤ b) : readWords (writeWords m a ws) b L = readWords m b L := by
  rw [readWords_eq, readWords_eq]
  refine List.map_congr_left fun k hk => ?_
  have hk : k < L := by simpa using hk
  rw [readWord_writeWords]
  split
  · rw [dif_neg (by omega)]
  · rfl

/-! ### Values -/

theorem wordsValue_append (xs ys : List Word) :
    wordsValue (xs ++ ys) = wordsValue xs * 2 ^ (64 * ys.length) + wordsValue ys := by
  have key : ∀ (v : Nat) (ys : List Word),
      ys.foldl (fun v w => v * 2 ^ 64 + w.toNat) v = v * 2 ^ (64 * ys.length) + wordsValue ys := by
    intro v ys
    unfold wordsValue
    induction ys generalizing v with
    | nil => simp
    | cons y ys ih =>
      rw [List.foldl_cons, ih, List.foldl_cons, ih (0 * 2 ^ 64 + y.toNat), List.length_cons]
      have : 2 ^ (64 * (ys.length + 1)) = 2 ^ 64 * 2 ^ (64 * ys.length) := by rw [← Nat.pow_add]; congr 1; omega
      rw [this]; ring
  rw [wordsValue, List.foldl_append, key]
  rfl

@[simp] theorem wordsValue_nil : wordsValue [] = 0 := rfl

@[simp] theorem wordsValue_singleton (w : Word) : wordsValue [w] = w.toNat := by simp [wordsValue]

theorem wordsValue_cons (w : Word) (ws : List Word) :
    wordsValue (w :: ws) = w.toNat * 2 ^ (64 * ws.length) + wordsValue ws := by
  have := wordsValue_append [w] ws
  simpa using this

/-- `0 <= val(r, L) < 2^(64L)` (00_scope R9). -/
theorem wordsValue_lt (ws : List Word) : wordsValue ws < 2 ^ (64 * ws.length) := by
  induction ws with
  | nil => simp
  | cons w ws ih =>
    rw [wordsValue_cons, List.length_cons, Nat.mul_add, Nat.pow_add]
    have hw := w.isLt
    calc w.toNat * 2 ^ (64 * ws.length) + wordsValue ws
        < w.toNat * 2 ^ (64 * ws.length) + 2 ^ (64 * ws.length) := by omega
      _ = (w.toNat + 1) * 2 ^ (64 * ws.length) := by ring
      _ ≤ 2 ^ 64 * 2 ^ (64 * ws.length) := Nat.mul_le_mul_right _ (by omega)
      _ = 2 ^ (64 * ws.length) * 2 ^ (64 * 1) := by ring

/-- Word k of a value, from its words. -/
theorem wordsValue_div (ws : List Word) (k : Nat) (h : k < ws.length) :
    wordsValue ws / 2 ^ (64 * (ws.length - 1 - k)) % 2 ^ 64 = ws[k].toNat := by
  have hsplit : ws = ws.take k ++ ws[k] :: ws.drop (k + 1) := by
    rw [← List.drop_eq_getElem_cons h, List.take_append_drop]
  have hlen : (ws.drop (k + 1)).length = ws.length - 1 - k := by simp; omega
  have hlt := wordsValue_lt (ws.drop (k + 1))
  have hpos : 0 < 2 ^ (64 * (ws.length - 1 - k)) := Nat.two_pow_pos _
  have hv := congrArg wordsValue hsplit
  rw [wordsValue_append, wordsValue_cons, List.length_cons, hlen, Nat.mul_add, Nat.pow_add] at hv
  rw [hlen] at hlt
  rw [hv]
  have e : wordsValue (ws.take k) * (2 ^ (64 * (ws.length - 1 - k)) * 2 ^ (64 * 1))
        + (ws[k].toNat * 2 ^ (64 * (ws.length - 1 - k)) + wordsValue (ws.drop (k + 1)))
      = wordsValue (ws.drop (k + 1)) + 2 ^ (64 * (ws.length - 1 - k)) * (wordsValue (ws.take k) * 2 ^ 64 + ws[k].toNat) := by
    ring
  rw [e, Nat.add_mul_div_left _ _ hpos, Nat.div_eq_of_lt hlt, Nat.zero_add]
  have := ws[k].isLt
  omega

@[simp] theorem length_valueWords (L v : Nat) : (valueWords L v).length = L := by simp [valueWords]

theorem getElem_valueWords (L v k : Nat) (h : k < (valueWords L v).length) :
    (valueWords L v)[k] = BitVec.ofNat 64 (v / 2 ^ (64 * (L - 1 - k))) := by
  simp [valueWords, Nat.shiftRight_eq_div_pow]

/-- The words of the value of L words are those words. -/
theorem valueWords_wordsValue (ws : List Word) : valueWords ws.length (wordsValue ws) = ws := by
  apply List.ext_getElem (by simp)
  intro k h1 h2
  rw [getElem_valueWords]
  apply BitVec.eq_of_toNat_eq
  rw [BitVec.toNat_ofNat, wordsValue_div ws k h2]

theorem valueWords_succ (L v : Nat) : valueWords (L + 1) v = BitVec.ofNat 64 (v / 2 ^ (64 * L)) :: valueWords L v := by
  apply List.ext_getElem (by simp)
  intro k h1 h2
  rw [getElem_valueWords]
  cases k with
  | zero => simp
  | succ k =>
    rw [List.getElem_cons_succ, getElem_valueWords]
    congr 3
    omega

/-- Writing a value and reading the words back gives it, modulo 2^(64L). -/
theorem wordsValue_valueWords (L v : Nat) : wordsValue (valueWords L v) = v % 2 ^ (64 * L) := by
  induction L with
  | zero => simp [valueWords, Nat.mod_one]
  | succ L ih =>
    rw [valueWords_succ, wordsValue_cons, ih, length_valueWords, BitVec.toNat_ofNat, Nat.mul_add, Nat.pow_add,
      Nat.mod_mul, Nat.mul_one]
    ring

/-! ### Logical bytes -/

/-- `i XOR 7` inverts the low three bits of i (20_memory R52). -/
theorem xor_seven (i : Nat) : i ^^^ 7 = 8 * (i / 8) + (7 - i % 8) := by
  have h : i = 8 * (i / 8) + i % 8 := by omega
  have hlt : i % 8 < 8 := by omega
  apply Nat.eq_of_testBit_eq
  intro j
  rw [Nat.testBit_xor]
  have e8 : ∀ a b, b < 8 → (8 * a + b).testBit j = if j < 3 then b.testBit j else a.testBit (j - 3) := by
    intro a b hb
    have := Nat.testBit_two_pow_mul_add a (i := 3) (b := b) (by simpa using hb) j
    simpa using this
  conv_lhs => rw [h]
  rw [e8 _ _ hlt, e8 _ _ (by omega)]
  by_cases hj : j < 3
  · simp only [hj, if_true]
    generalize i % 8 = r at hlt
    interval_cases r <;> interval_cases j <;> rfl
  · simp only [hj, if_false]
    have : Nat.testBit 7 j = false := Nat.testBit_lt_two_pow (Nat.lt_of_lt_of_le (by decide) (Nat.pow_le_pow_right (by decide) (Nat.not_lt.1 hj)))
    rw [this, Bool.xor_false]

/-- Logical byte i of a register is byte lane 7 - i mod 8 of its word i / 8 (20_memory R53). -/
theorem physAddr_eq (w r i : Nat) : physAddr w r i = 8 * (r * w + i / 8) + (7 - i % 8) := by
  rw [physAddr, xor_seven]; ring

/-- Two logical bytes of one register at one place are the same byte. -/
theorem physAddr_inj (w r i j : Nat) (h : physAddr w r i = physAddr w r j) : i = j := by
  rw [physAddr_eq, physAddr_eq] at h
  omega

@[simp] theorem length_wordsFromLogical (L : Nat) (bs : List Byte) : (wordsFromLogical L bs).length = L := by
  induction L generalizing bs with
  | zero => rfl
  | succ L ih => simp [wordsFromLogical, ih]

/-- The logical bytes of words cut from logical bytes. -/
theorem wordsFromLogical_bytes (L : Nat) (bs : List Byte) (h : bs.length = 8 * L) :
    (wordsFromLogical L bs).flatMap (fun w => (valueBytes 8 w.toNat).reverse) = bs := by
  induction L generalizing bs with
  | zero => simp [List.length_eq_zero_iff.1 (by simpa using h), wordsFromLogical]
  | succ L ih =>
    have h8 : (bs.take 8).reverse.length = 8 := by simp; omega
    have hlt := bytesValue_lt (bs.take 8).reverse
    rw [h8] at hlt
    have hv := valueBytes_bytesValue (bs.take 8).reverse
    rw [h8] at hv
    have hm : bytesValue (bs.take 8).reverse % 2 ^ 64 = bytesValue (bs.take 8).reverse :=
      Nat.mod_eq_of_lt (by simpa using hlt)
    simp only [wordsFromLogical, List.flatMap_cons, BitVec.toNat_ofNat, hm, hv, List.reverse_reverse]
    rw [ih _ (by simp; omega), List.take_append_drop]

theorem reversed_wordBytes_getElem? (ws : List Word) (i k : Nat) (hk : k < 8) :
    (ws.flatMap (fun w => (valueBytes 8 w.toNat).reverse))[8 * i + k]? =
      ws[i]?.map (fun w => BitVec.ofNat 8 (w.toNat / 256 ^ (7 - k))) := by
  induction ws generalizing i with
  | nil => simp
  | cons w ws ih =>
    cases i with
    | zero =>
      simp only [List.flatMap_cons, Nat.mul_zero, Nat.zero_add, List.getElem?_cons_zero, Option.map_some]
      rw [List.getElem?_append_left (by simpa using hk), List.getElem?_reverse (by simpa using hk), length_valueBytes,
        valueBytes_getElem? 8 _ _ (by omega)]
    | succ i =>
      simp only [List.flatMap_cons, List.getElem?_cons_succ]
      rw [List.getElem?_append_right (by simp only [List.length_reverse, length_valueBytes]; omega), List.length_reverse,
        length_valueBytes]
      have : 8 * (i + 1) + k - 8 = 8 * i + k := by omega
      rw [this, ih]

end Sys2Proof.Machine
end

