-- ==== Sys2Proof/Laws/Buffers.lean ====
section
/-! SUPPORT. What each operation on a register buffer does, said once (00_scope R9, R10): the words, the value and the bytes read
after a write, inside and outside the buffer written. -/

namespace Sys2Proof.Machine

/-- The physical address of the first byte of register r is eight times its first word. -/
theorem base_bytes (s : State) (r : Nat) : 8 * s.base r = r * (8 * s.cfg.w) := by
  rw [State.base]; ring

@[simp] theorem length_words (s : State) (r L : Nat) : (s.words r L).length = L := by simp [State.words]

theorem words_eq (s : State) (r L : Nat) : s.words r L = (List.range L).map (s.word r) := by
  rw [State.words, readWords_eq]; rfl

theorem getElem_words (s : State) (r L k : Nat) (h : k < (s.words r L).length) : (s.words r L)[k] = s.word r k := by
  rw [List.getElem_of_eq (words_eq s r L)]; simp

theorem val_lt (s : State) (r L : Nat) : s.val r L < 2 ^ (64 * L) := by
  have := wordsValue_lt (s.words r L)
  rwa [length_words] at this

/-- The words of a buffer are those of its value. -/
theorem valueWords_val (s : State) (r L : Nat) : valueWords L (s.val r L) = s.words r L := by
  have := valueWords_wordsValue (s.words r L)
  rwa [length_words] at this

/-- Word k of a buffer, from its value (00_scope R9). -/
theorem word_toNat (s : State) (r L k : Nat) (h : k < L) :
    (s.word r k).toNat = s.val r L / 2 ^ (64 * (L - 1 - k)) % 2 ^ 64 := by
  have hl : k < (s.words r L).length := by simpa using h
  have := wordsValue_div (s.words r L) k hl
  rw [length_words, getElem_words] at this
  exact this.symm

/-- A value splits at any word: the first L words and the M after them. -/
theorem wordsValue_words_append (s : State) (r L M : Nat) :
    s.val r (L + M) = s.val r L * 2 ^ (64 * M) + wordsValue ((List.range M).map fun k => s.word r (L + k)) := by
  have h : s.words r (L + M) = s.words r L ++ (List.range M).map fun k => s.word r (L + k) := by
    rw [words_eq, words_eq, List.range_add, List.map_append, List.map_map]; rfl
  rw [State.val, h, wordsValue_append]
  simp [State.val]

/-! ### setWords -/

/-- Every byte outside the buffer written reads as before. -/
theorem setWords_readByte_outside (s : State) (r : Nat) (ws : List Word) (q : Nat)
    (h : q < r * (8 * s.cfg.w) ∨ r * (8 * s.cfg.w) + 8 * ws.length ≤ q) :
    readByte (s.setWords r ws).rf q = readByte s.rf q := by
  rw [setWords_rf]
  apply readByte_writeWords_outside
  rw [base_bytes]; exact h

/-- The buffer written reads back as written. -/
theorem setWords_words_same (s : State) (r : Nat) (ws : List Word) : (s.setWords r ws).words r ws.length = ws :=
  readWords_writeWords_same s.rf (s.base r) ws

/-- A buffer that a write does not touch reads as before. -/
theorem setWords_words_disjoint (s : State) (r : Nat) (ws : List Word) (r' L : Nat)
    (h : s.base r' + L ≤ s.base r ∨ s.base r + ws.length ≤ s.base r') :
    (s.setWords r ws).words r' L = s.words r' L :=
  readWords_writeWords_disjoint s.rf (s.base r) ws (s.base r') L h

theorem setWords_word (s : State) (r : Nat) (ws : List Word) (k : Nat) (h : k < ws.length) :
    (s.setWords r ws).word r k = ws[k] := by
  show readWord (writeWords s.rf (s.base r) ws) (s.base r + k) = _
  rw [readWord_writeWords, if_pos (by omega)]
  have e : s.base r + k - s.base r = k := by omega
  simp only [e]
  rw [dif_pos h]

/-! ### setVal -/

/-- A value written is read back modulo 2^(64L). -/
theorem setVal_val_same (s : State) (r L v : Nat) : (s.setVal r L v).val r L = v % 2 ^ (64 * L) := by
  have h := setWords_words_same s r (valueWords L v)
  rw [length_valueWords] at h
  show wordsValue ((s.setWords r (valueWords L v)).words r L) = _
  rw [h, wordsValue_valueWords]

theorem setVal_words_same (s : State) (r L v : Nat) : (s.setVal r L v).words r L = valueWords L v := by
  have h := setWords_words_same s r (valueWords L v)
  rw [length_valueWords] at h
  exact h

theorem setVal_val_disjoint (s : State) (r L v r' L' : Nat)
    (h : s.base r' + L' ≤ s.base r ∨ s.base r + L ≤ s.base r') : (s.setVal r L v).val r' L' = s.val r' L' := by
  have := setWords_words_disjoint s r (valueWords L v) r' L' (by simpa using h)
  show wordsValue ((s.setWords r (valueWords L v)).words r' L') = _
  rw [this]; rfl

theorem setVal_readByte_outside (s : State) (r L v q : Nat)
    (h : q < r * (8 * s.cfg.w) ∨ r * (8 * s.cfg.w) + 8 * L ≤ q) :
    readByte (s.setVal r L v).rf q = readByte s.rf q :=
  setWords_readByte_outside s r (valueWords L v) q (by simpa using h)

/-! ### Logical bytes -/

/-- Logical byte i is a byte lane of word i / 8. -/
theorem byte_eq_word (s : State) (r i : Nat) :
    s.byte r i = BitVec.ofNat 8 ((s.word r (i / 8)).toNat / 256 ^ (7 - i % 8)) := by
  rw [State.byte, physAddr_eq, readByte_eq_readWord _ _ _ (by omega)]
  rfl

/-- The logical bytes are the bytes by logical index, in order (20_memory R54). -/
theorem bytes_eq (s : State) (r n : Nat) : s.bytes r n = (List.range n).map (s.byte r) := by
  apply List.ext_getElem?
  intro i
  rw [State.bytes, List.getElem?_map]
  by_cases h : i < n
  · rw [List.getElem?_take_of_lt h, List.getElem?_range h]
    have e : i = 8 * (i / 8) + i % 8 := by omega
    have hw : i / 8 < (s.words r ((n + 7) / 8)).length := by rw [length_words]; omega
    conv_lhs => rw [e]
    rw [reversed_wordBytes_getElem? _ _ _ (by omega), List.getElem?_eq_getElem hw, getElem_words, Option.map_some,
      Option.map_some, byte_eq_word]
  · rw [List.getElem?_eq_none (by rw [List.length_take]; omega), List.getElem?_eq_none (by simpa using h)]
    rfl

@[simp] theorem length_bytes (s : State) (r n : Nat) : (s.bytes r n).length = n := by simp [bytes_eq]

/-- Logical bytes written are read back. -/
theorem setBytes_bytes_same (s : State) (r L : Nat) (bs : List Byte) (h : bs.length = 8 * L) :
    (s.setBytes r L bs).bytes r (8 * L) = bs := by
  have e : (8 * L + 7) / 8 = L := by omega
  have hw := setWords_words_same s r (wordsFromLogical L bs)
  rw [length_wordsFromLogical] at hw
  rw [State.bytes, e]
  show List.take _ (List.flatMap _ ((s.setWords r (wordsFromLogical L bs)).words r L)) = _
  rw [hw, wordsFromLogical_bytes L bs h, ← h, List.take_length]

theorem setBytes_readByte_outside (s : State) (r L : Nat) (bs : List Byte) (q : Nat)
    (h : q < r * (8 * s.cfg.w) ∨ r * (8 * s.cfg.w) + 8 * L ≤ q) :
    readByte (s.setBytes r L bs).rf q = readByte s.rf q :=
  setWords_readByte_outside s r (wordsFromLogical L bs) q (by simpa using h)

/-- A byte written changes that byte and no other (20_memory R54). -/
theorem setByte_readByte (s : State) (r i : Nat) (b : Byte) (q : Nat) :
    readByte (s.setByte r i b).rf q = if q = physAddr s.cfg.w r i then b else readByte s.rf q :=
  readByte_writeByte s.rf (physAddr s.cfg.w r i) q b

end Sys2Proof.Machine
end

