-- ==== Sys2Proof/Laws/Checks.lean ====
section
/-! SUPPORT. What the frame of a command can answer, said once (60_exceptions R181, R182): a fault entry for the first check
that fails, else the effect. -/

namespace Sys2Proof.Machine

theorem perform_of_fault (i : Instr) (s : State) (effect : State → State) (code : FaultCode)
    (h : operandFault s.cfg i = some code) : perform i s effect = .next (raiseFault code (encode i) s) := by
  simp [perform, h]

theorem perform_of_legal (i : Instr) (s : State) (effect : State → State) (h : operandFault s.cfg i = none) :
    perform i s effect = .next (effect s) := by
  simp [perform, h]

/-- Everything the frame can do. -/
theorem perform_cases (i : Instr) (s t : State) (effect : State → State) (h : perform i s effect = .next t) :
    (∃ code, operandFault s.cfg i = some code ∧ t = raiseFault code (encode i) s) ∨
      (operandFault s.cfg i = none ∧ t = effect s) := by
  cases hf : operandFault s.cfg i with
  | some code =>
    rw [perform_of_fault i s effect code hf] at h
    exact .inl ⟨code, rfl, by injection h with h; exact h.symm⟩
  | none =>
    rw [perform_of_legal i s effect hf] at h
    exact .inr ⟨rfl, by injection h with h; exact h.symm⟩

/-- The frame always answers a next state. -/
theorem perform_next (i : Instr) (s : State) (effect : State → State) : ∃ t, perform i s effect = .next t := by
  cases hf : operandFault s.cfg i with
  | some code => exact ⟨_, perform_of_fault i s effect code hf⟩
  | none => exact ⟨_, perform_of_legal i s effect hf⟩

/-- Every command has the frame's form, whatever its effect. -/
theorem exec_eq_perform (i : Instr) : ∃ effect : State → State, ∀ s, exec i s = perform i s effect := by
  cases i <;> exact ⟨_, fun s => rfl⟩

/-- A command is legal when all three operand checks pass (60_exceptions R182). -/
theorem operandFault_eq_none_iff (cfg : Config) (i : Instr) :
    operandFault cfg i = none ↔
      countInRange cfg i = true ∧ (operandsOf cfg i).all (operandExists cfg) = true ∧ operandsClash cfg i = false := by
  unfold operandFault
  cases countInRange cfg i <;> cases (operandsOf cfg i).all (operandExists cfg) <;> cases operandsClash cfg i <;> simp

theorem operandFault_of_count (cfg : Config) (i : Instr) (h : countInRange cfg i = false) :
    operandFault cfg i = some .badLength := by
  simp [operandFault, h]

theorem operandFault_of_register (cfg : Config) (i : Instr) (h : countInRange cfg i = true)
    (h' : (operandsOf cfg i).all (operandExists cfg) = false) : operandFault cfg i = some .badRegister := by
  simp only [operandFault, h, h']
  rfl

theorem operandFault_of_clash (cfg : Config) (i : Instr) (h : countInRange cfg i = true)
    (h' : (operandsOf cfg i).all (operandExists cfg) = true) (h'' : operandsClash cfg i = true) :
    operandFault cfg i = some .overlap := by
  simp only [operandFault, h, h', h'']
  rfl

theorem operandExists_iff (cfg : Config) (o : Operand) :
    operandExists cfg o = true ↔ o.reg < cfg.nreg ∧ o.reg * cfg.w + o.extent ≤ cfg.nreg * cfg.w := by
  simp [operandExists]

/-- A register that exists has all its W words in the register file. -/
theorem register_inside (cfg : Config) (r : Nat) (h : r < cfg.nreg) : r * cfg.w + cfg.w ≤ cfg.nreg * cfg.w := by
  have := Nat.mul_le_mul_right cfg.w (Nat.succ_le_of_lt h)
  rwa [Nat.succ_mul] at this

/-- A pair that exists has all its 2W words in the register file. -/
theorem pair_inside (cfg : Config) (r : Nat) (h : r + 1 < cfg.nreg) : r * cfg.w + 2 * cfg.w ≤ cfg.nreg * cfg.w := by
  have := register_inside cfg (r + 1) h
  rw [Nat.add_mul] at this
  omega

/-! ### Steps -/

/-- With no transaction waiting, nothing happens. -/
theorem step_of_pending_nil (s : State) (h : s.pending = []) : step s = .next s := by
  simp [step, h]

/-- A step performs the host's next transaction. -/
theorem step_of_pending_cons (s : State) (t : HostTransaction) (rest : List HostTransaction) (h : s.pending = t :: rest) :
    step s = transact t { s with pending := rest } := by
  simp [step, h]

/-- A fault record is a next state only by the checks of the word (60_exceptions R182). -/
theorem wordFault_of_decode (cfg : Config) (c : Word) (i : Instr) (h : decode c = .ok i) :
    wordFault cfg c = operandFault cfg i := by
  simp [wordFault, h]

end Sys2Proof.Machine
end

