-- ==== Sys2Proof/Laws/Encoding.lean ====
section
/-! SUPPORT. The fields of a command word and the word of its fields are inverse to each other (30_encoding R71, R82). -/

namespace Sys2Proof

/-- Every field is in the range of its width (30_encoding R71). -/
def Fields.inRange (f : Fields) : Prop :=
  f.op < 2 ^ 8 ∧ f.rd < 2 ^ 8 ∧ f.rs1 < 2 ^ 8 ∧ f.rs2 < 2 ^ 8 ∧ f.n < 2 ^ 32

theorem fieldsOf_inRange (c : Word) : (fieldsOf c).inRange := by
  simp only [Fields.inRange, fieldsOf, bitField]
  refine ⟨?_, ?_, ?_, ?_, ?_⟩ <;> exact Nat.mod_lt _ (by decide)

/-- The fields of an assembled word are those it was assembled from. -/
theorem fieldsOf_pack (f : Fields) (h : f.inRange) : fieldsOf (pack f) = f := by
  obtain ⟨op, rd, rs1, rs2, n⟩ := f
  simp only [Fields.inRange] at h
  simp only [fieldsOf, pack, bitField, BitVec.toNat_ofNat, Fields.mk.injEq]
  omega

/-- A word is assembled from its fields. -/
theorem pack_fieldsOf (c : Word) : pack (fieldsOf c) = c := by
  apply BitVec.eq_of_toNat_eq
  have := c.isLt
  simp only [fieldsOf, pack, bitField, BitVec.toNat_ofNat]
  omega

/-- SHW's count survives its 32-bit field (30_encoding R73). -/
theorem sext32_wrap32 (n : Int) (h : shiftFits n = true) : sext32 (wrap32 n) = n := by
  simp only [shiftFits, decide_eq_true_eq] at h
  unfold sext32 wrap32
  split <;> omega

theorem wrap32_sext32 (n : Nat) (h : n < 2 ^ 32) : wrap32 (sext32 n) = n := by
  unfold sext32 wrap32
  split <;> omega

theorem wrap32_lt (n : Int) : wrap32 n < 2 ^ 32 := by
  unfold wrap32; omega

theorem shiftFits_sext32 (n : Nat) (h : n < 2 ^ 32) : shiftFits (sext32 n) = true := by
  simp only [shiftFits, decide_eq_true_eq]
  unfold sext32
  split <;> omega

theorem ifReservedZero_ok (b : Bool) (i j : Instr) : ifReservedZero b i = .ok j ↔ b = true ∧ i = j := by
  cases b <;> simp [ifReservedZero]

end Sys2Proof
end

