-- ==== Sys2Proof/Laws/PerInstr.lean ====
section
/-! SUPPORT. A law of every command as syntax, one lemma a constructor: the fields of a well-formed command fit the command
word (30_encoding R71 to R73). -/

namespace Sys2Proof.Laws.FieldsFit

/-- The fields of a well-formed command are in range. -/
def Statement (i : Instr) : Prop := wellFormed i = true → (fieldsFor i).inRange

theorem set (rd : Nat) (b : Byte) : Statement (.set rd b) := fun h => by
  have := b.isLt
  simp_all [wellFormed, registerFits, Fields.inRange, fieldsFor]
  omega

theorem mov (rd rs1 : Nat) : Statement (.mov rd rs1) := fun h => by
  simp_all [wellFormed, registerFits, Fields.inRange, fieldsFor]

theorem getb (rs1 idx : Nat) : Statement (.getb rs1 idx) := fun h => by
  simp_all [wellFormed, registerFits, countFits, Fields.inRange, fieldsFor]

theorem setb (rd idx : Nat) : Statement (.setb rd idx) := fun h => by
  simp_all [wellFormed, registerFits, countFits, Fields.inRange, fieldsFor]

theorem shw (rd rs1 : Nat) (n : Int) : Statement (.shw rd rs1 n) := fun h => by
  have := wrap32_lt n
  simp_all [wellFormed, registerFits, Fields.inRange, fieldsFor]

theorem add (rd rs1 len : Nat) : Statement (.add rd rs1 len) := fun h => by
  simp_all [wellFormed, registerFits, countFits, Fields.inRange, fieldsFor]

theorem adc (rd rs1 len : Nat) : Statement (.adc rd rs1 len) := fun h => by
  simp_all [wellFormed, registerFits, countFits, Fields.inRange, fieldsFor]

theorem sub (rd rs1 len : Nat) : Statement (.sub rd rs1 len) := fun h => by
  simp_all [wellFormed, registerFits, countFits, Fields.inRange, fieldsFor]

theorem sbb (rd rs1 len : Nat) : Statement (.sbb rd rs1 len) := fun h => by
  simp_all [wellFormed, registerFits, countFits, Fields.inRange, fieldsFor]

theorem adds (rd idx : Nat) : Statement (.adds rd idx) := fun h => by
  simp_all [wellFormed, registerFits, countFits, Fields.inRange, fieldsFor]

theorem cmpge (rs1 rs2 : Nat) : Statement (.cmpge rs1 rs2) := fun h => by
  simp_all [wellFormed, registerFits, Fields.inRange, fieldsFor]

theorem muls (rd len : Nat) : Statement (.muls rd len) := fun h => by
  simp_all [wellFormed, registerFits, countFits, Fields.inRange, fieldsFor]

theorem mul (pd rs1 rs2 : Nat) : Statement (.mul pd rs1 rs2) := fun h => by
  simp_all [wellFormed, registerFits, Fields.inRange, fieldsFor]

theorem divs (rd len : Nat) : Statement (.divs rd len) := fun h => by
  simp_all [wellFormed, registerFits, countFits, Fields.inRange, fieldsFor]

theorem div (pd rs1 rs2 : Nat) : Statement (.div pd rs1 rs2) := fun h => by
  simp_all [wellFormed, registerFits, Fields.inRange, fieldsFor]

theorem i2bcd (pd rs1 : Nat) : Statement (.i2bcd pd rs1) := fun h => by
  simp_all [wellFormed, registerFits, Fields.inRange, fieldsFor]

theorem f2bcd (pd rs1 : Nat) : Statement (.f2bcd pd rs1) := fun h => by
  simp_all [wellFormed, registerFits, Fields.inRange, fieldsFor]

theorem prhex (rs1 lenBytes : Nat) : Statement (.prhex rs1 lenBytes) := fun h => by
  simp_all [wellFormed, registerFits, countFits, Fields.inRange, fieldsFor]

theorem prhexz (rs1 lenBytes : Nat) : Statement (.prhexz rs1 lenBytes) := fun h => by
  simp_all [wellFormed, registerFits, countFits, Fields.inRange, fieldsFor]

theorem prdig : Statement (.prdig) := fun h => by
  simp_all [wellFormed, Fields.inRange, fieldsFor]

theorem prbcdi (ps1 : Nat) : Statement (.prbcdi ps1) := fun h => by
  simp_all [wellFormed, registerFits, Fields.inRange, fieldsFor]

theorem prbcdf (ps1 : Nat) : Statement (.prbcdf ps1) := fun h => by
  simp_all [wellFormed, registerFits, Fields.inRange, fieldsFor]

end Sys2Proof.Laws.FieldsFit
end

