-- ==== Sys2Proof/Laws/Text.lean ====
section
/-! SUPPORT. The laws of the printing operations (44_text_output R163): printing one digit, printing digits in turn, and the
lengths of what the byte selections keep. -/

namespace Sys2Proof.Machine

theorem printedDigits_append (width : Nat) (col : BitVec 32) (xs ys : List Nibble) :
    printedDigits width col (xs ++ ys) =
      ((printedDigits width col xs).1 ++ (printedDigits width (printedDigits width col xs).2 ys).1,
        (printedDigits width (printedDigits width col xs).2 ys).2) := by
  induction xs generalizing col with
  | nil => rfl
  | cons d xs ih =>
    simp only [List.cons_append, printedDigits]
    split <;> simp [ih]

/-- Printing digits is printing each in turn (44_text_output R163, R164). -/
theorem printDigits_append (s : State) (xs ys : List Nibble) :
    printDigits s (xs ++ ys) = printDigits (printDigits s xs) ys := by
  simp [printDigits, State.emit, printedDigits_append, List.append_assoc]

theorem printDigits_nil (s : State) : printDigits s [] = s := by
  simp [printDigits, State.emit, printedDigits]

/-- Without wrapping, the text is the digits' characters and the counter counts them. -/
theorem printedDigits_zero_width (col : BitVec 32) (ds : List Nibble) :
    printedDigits 0 col ds = (ds.map decChar, col + BitVec.ofNat 32 ds.length) := by
  induction ds generalizing col with
  | nil => simp [printedDigits]
  | cons d ds ih =>
    simp only [printedDigits, ne_eq, not_true_eq_false, false_and, if_false, ih, List.map_cons, List.length_cons,
      Prod.mk.injEq, true_and]
    apply BitVec.eq_of_toNat_eq
    have h1 : (1 : BitVec 32).toNat = 1 := rfl
    simp only [BitVec.toNat_add, BitVec.toNat_ofNat, h1]
    omega

@[simp] theorem length_nibbles (bs : List Byte) : (nibbles bs).length = 2 * bs.length := by
  induction bs with
  | nil => rfl
  | cons b bs ih => simp only [nibbles, List.length_cons, ih]; omega

theorem nibbles_append (xs ys : List Byte) : nibbles (xs ++ ys) = nibbles xs ++ nibbles ys := by
  induction xs with
  | nil => rfl
  | cons b xs ih => simp [nibbles, ih]

/-- A byte is its two nibbles. -/
theorem highNibble_lowNibble (b : Byte) : b.toNat = 16 * (highNibble b).toNat + (lowNibble b).toNat := by
  have := b.isLt
  simp only [highNibble, lowNibble, BitVec.extractLsb'_toNat, Nat.shiftRight_eq_div_pow]
  omega

/-- The bytes before the first non-zero one are zero, and the kept ones begin with it. -/
theorem dropLeadingZeros_spec (bs : List Byte) :
    ∃ n, bs = List.replicate n 0#8 ++ dropLeadingZeros bs ∧ ∀ b ∈ (dropLeadingZeros bs).head?, b ≠ 0#8 := by
  induction bs with
  | nil => exact ⟨0, rfl, by simp [dropLeadingZeros]⟩
  | cons b bs ih =>
    by_cases hb : b = 0#8
    · obtain ⟨n, h1, h2⟩ := ih
      refine ⟨n + 1, ?_, ?_⟩
      · simp only [dropLeadingZeros, hb, if_true, List.replicate_succ, List.cons_append]
        rw [← h1]
      · simpa [dropLeadingZeros, hb] using h2
    · exact ⟨0, by simp [dropLeadingZeros, hb], by simp [dropLeadingZeros, hb]⟩

/-- The bytes after the last non-zero one are zero, and the kept ones end with it. -/
theorem dropTrailingZeros_spec (bs : List Byte) :
    ∃ n, bs = dropTrailingZeros bs ++ List.replicate n 0#8 ∧ ∀ b ∈ (dropTrailingZeros bs).getLast?, b ≠ 0#8 := by
  induction bs with
  | nil => exact ⟨0, rfl, by simp [dropTrailingZeros]⟩
  | cons b bs ih =>
    obtain ⟨n, h1, h2⟩ := ih
    cases hd : dropTrailingZeros bs with
    | nil =>
      rw [hd, List.nil_append] at h1
      by_cases hb : b = 0#8
      · refine ⟨n + 1, ?_, ?_⟩
        · simp [dropTrailingZeros, hd, hb, List.replicate_succ, ← h1]
        · simp [dropTrailingZeros, hd, hb]
      · refine ⟨n, ?_, ?_⟩
        · simp [dropTrailingZeros, hd, hb, ← h1]
        · simp [dropTrailingZeros, hd, hb]
    | cons c cs =>
      rw [hd] at h1 h2
      refine ⟨n, ?_, ?_⟩
      · simp only [dropTrailingZeros, hd, List.cons_append]
        rw [← List.cons_append, ← h1]
      · simpa [dropTrailingZeros, hd] using h2

@[simp] theorem length_intBcd (count n : Nat) : (intBcd count n).length = count := by
  induction count generalizing n with
  | zero => rfl
  | succ count ih => simp [intBcd, ih]

@[simp] theorem length_fracBcd (w count f : Nat) : (fracBcd w count f).length = count := by
  induction count generalizing f with
  | zero => rfl
  | succ count ih => simp [fracBcd, ih]

/-- The digits F2BCD writes fit the pair (43_bcd R153). -/
theorem fracBytes_le (w : Nat) : fracBytes w ≤ 16 * w := by
  unfold fracBytes; omega

@[simp] theorem length_shiftWords (old : List Word) (n : Int) : (shiftWords old n).length = old.length := by
  unfold shiftWords
  split <;> simp <;> omega

end Sys2Proof.Machine
end

