-- ==== Sys2Proof/Machine/Assembly.lean ====
section
/-! DEFINITION. The assembler form of a command (30_encoding R79) and the listing form of a host transaction (R81), as text.
There are no pseudo-instructions (R80). -/

namespace Sys2Proof.Machine

/-- A single-width register operand (30_encoding R79). -/
def regText (r : Nat) : String := "r" ++ toString r

/-- A register-pair operand, by its first register (30_encoding R79). -/
def pairText (r : Nat) : String := "p" ++ toString r

/-- The mnemonic and its operands in the order RD, RS1, RS2, N, without the fields the command does not use
(30_encoding R79). N is written as a decimal literal. -/
def asmText : Instr → String
  | .set rd b => "SET " ++ regText rd ++ ", " ++ toString b.toNat
  | .mov rd rs1 => "MOV " ++ regText rd ++ ", " ++ regText rs1
  | .getb rs1 idx => "GETB " ++ regText rs1 ++ ", " ++ toString idx
  | .setb rd idx => "SETB " ++ regText rd ++ ", " ++ toString idx
  | .shw rd rs1 n => "SHW " ++ regText rd ++ ", " ++ regText rs1 ++ ", " ++ toString n
  | .add rd rs1 len => "ADD " ++ regText rd ++ ", " ++ regText rs1 ++ ", " ++ toString len
  | .adc rd rs1 len => "ADC " ++ regText rd ++ ", " ++ regText rs1 ++ ", " ++ toString len
  | .sub rd rs1 len => "SUB " ++ regText rd ++ ", " ++ regText rs1 ++ ", " ++ toString len
  | .sbb rd rs1 len => "SBB " ++ regText rd ++ ", " ++ regText rs1 ++ ", " ++ toString len
  | .adds rd idx => "ADDS " ++ regText rd ++ ", " ++ toString idx
  | .cmpge rs1 rs2 => "CMPGE " ++ regText rs1 ++ ", " ++ regText rs2
  | .muls rd len => "MULS " ++ regText rd ++ ", " ++ toString len
  | .mul pd rs1 rs2 => "MUL " ++ pairText pd ++ ", " ++ regText rs1 ++ ", " ++ regText rs2
  | .divs rd len => "DIVS " ++ regText rd ++ ", " ++ toString len
  | .div pd rs1 rs2 => "DIV " ++ pairText pd ++ ", " ++ regText rs1 ++ ", " ++ regText rs2
  | .i2bcd pd rs1 => "I2BCD " ++ pairText pd ++ ", " ++ regText rs1
  | .f2bcd pd rs1 => "F2BCD " ++ pairText pd ++ ", " ++ regText rs1
  | .prhex rs1 lenBytes => "PRHEX " ++ regText rs1 ++ ", " ++ toString lenBytes
  | .prhexz rs1 lenBytes => "PRHEXZ " ++ regText rs1 ++ ", " ++ toString lenBytes
  | .prdig => "PRDIG"
  | .prbcdi ps1 => "PRBCDI " ++ pairText ps1
  | .prbcdf ps1 => "PRBCDF " ++ pairText ps1

/-- The name of a control register (10_state R34); a number that does not exist is written as itself. -/
def controlName : Nat → String
  | 0 => "CMD"
  | 1 => "OPA"
  | 2 => "RES"
  | 3 => "FLAGS"
  | 4 => "STATUS"
  | 5 => "FCMD"
  | 6 => "CONFIG"
  | 7 => "COL"
  | n => toString n

/-- The listing form of a host transaction (30_encoding R81); `clrf` is the write of 1 to STATUS. The reset event has no
form there and is written `reset`. -/
def listingText : HostTransaction → String
  | .writeControl n v =>
    if n = 4 ∧ v = 1 then "clrf" else "wr " ++ controlName n ++ ", " ++ toString v.toNat
  | .readControl n => "rd " ++ controlName n
  | .writeWord a v => "wrw " ++ toString a ++ ", " ++ toString v.toNat
  | .readWord a => "rdw " ++ toString a
  | .writeByte p b => "wrb " ++ toString p ++ ", " ++ toString b.toNat
  | .readByte p => "rdb " ++ toString p
  | .reset => "reset"

end Sys2Proof.Machine
end

