-- ==== Sys2Proof/Tests/Slice0.lean ====
section
/-! SUPPORT. Small tests. The expected values are those of spec/95_test_vectors.md (the row's id stands in the comment) or of the
examples in the rules; none is the model's own answer. Then, for every statement with hypotheses, a concrete instance that
meets them (witness_<statement>). -/

namespace Sys2Proof.Tests

-- One theorem at a time: many kernel evaluations waiting at once take a thread, and its stack, each.
set_option Elab.async false

open Sys2Proof Sys2Proof.Machine

/-- An engine with 8 registers of `w` words and the given line widths, whose register file begins with `ws`. -/
def engine (w hexLine decLine : Nat) (ws : List Word) : State :=
  { State.resetOf { w := w, nreg := 8, hexLineBytes := hexLine, decLineDigits := decLine } with rf := writeWords [] 0 ws }

/-- The part `f` of the state after the command. -/
def after {α : Type} (i : Instr) (s : State) (f : State → α) : Option α :=
  match exec i s with
  | .next t => some (f t)
  | _ => none

/-- The part `f` of the state after one host transaction. -/
def afterHost {α : Type} (tr : HostTransaction) (s : State) (f : State → α) : Option α :=
  match step { s with pending := [tr] } with
  | .next t => some (f t)
  | _ => none

/-- Whether a step answers a next state, a fault or a refusal. -/
def answersNext (r : Host.Outcome State Fault Refusal) : Bool :=
  match r with
  | .next _ => true
  | _ => false

/-- The fault record after a command. -/
def record (t : State) : Bool × Byte × Word := (t.fault, t.fcode, t.fcmd)

/-! ### WellFormed refuses what no word holds -/

theorem test_wellFormed_register_too_large : wellFormed (.set 256 0) = false := by decide

theorem test_wellFormed_second_register_too_large : wellFormed (.mov 0 256) = false := by decide

theorem test_wellFormed_pair_too_large : wellFormed (.mul 256 0 0) = false := by decide

theorem test_wellFormed_third_register_too_large : wellFormed (.div 0 0 256) = false := by decide

theorem test_wellFormed_length_too_large : wellFormed (.add 0 0 (2 ^ 32)) = false := by decide

theorem test_wellFormed_index_too_large : wellFormed (.getb 0 (2 ^ 32)) = false := by decide

theorem test_wellFormed_shift_too_large : wellFormed (.shw 0 0 (2 ^ 31)) = false := by decide

theorem test_wellFormed_shift_too_small : wellFormed (.shw 0 0 (-2 ^ 31 - 1)) = false := by decide

theorem test_wellFormed_admits_extremes :
    wellFormed (.shw 255 255 (-2 ^ 31)) = true ∧ wellFormed (.add 255 255 (2 ^ 32 - 1)) = true := by decide

/-! ### Words written out from 30_encoding R71 and R75 (95_test_vectors 3.1 to 3.3) -/

theorem test_decode_set : decode 0x000000A500000301#64 = .ok (.set 3 0xA5) ∧ encode (.set 3 0xA5) = 0x000000A500000301#64 := by decide +kernel

theorem test_decode_mov : decode 0x0000000000020702#64 = .ok (.mov 7 2) ∧ encode (.mov 7 2) = 0x0000000000020702#64 := by decide +kernel

theorem test_decode_getb : decode 0x0000000900010003#64 = .ok (.getb 1 9) ∧ encode (.getb 1 9) = 0x0000000900010003#64 := by decide +kernel

theorem test_decode_setb : decode 0x0000000F00000604#64 = .ok (.setb 6 15) ∧ encode (.setb 6 15) = 0x0000000F00000604#64 := by decide +kernel

theorem test_decode_shw : decode 0x0000000300010210#64 = .ok (.shw 2 1 3) ∧ encode (.shw 2 1 3) = 0x0000000300010210#64 := by decide +kernel

theorem test_decode_add : decode 0x0000000200020011#64 = .ok (.add 0 2 2) ∧ encode (.add 0 2 2) = 0x0000000200020011#64 := by decide +kernel

theorem test_decode_adc : decode 0x0000000100020412#64 = .ok (.adc 4 2 1) ∧ encode (.adc 4 2 1) = 0x0000000100020412#64 := by decide +kernel

theorem test_decode_sub : decode 0x0000000100010513#64 = .ok (.sub 5 1 1) ∧ encode (.sub 5 1 1) = 0x0000000100010513#64 := by decide +kernel

theorem test_decode_sbb : decode 0x0000000200040014#64 = .ok (.sbb 0 4 2) ∧ encode (.sbb 0 4 2) = 0x0000000200040014#64 := by decide +kernel

theorem test_decode_adds : decode 0x0000000100000215#64 = .ok (.adds 2 1) ∧ encode (.adds 2 1) = 0x0000000100000215#64 := by decide +kernel

theorem test_decode_cmpge : decode 0x0000000007060016#64 = .ok (.cmpge 6 7) ∧ encode (.cmpge 6 7) = 0x0000000007060016#64 := by decide +kernel

theorem test_decode_muls : decode 0x0000000200000020#64 = .ok (.muls 0 2) ∧ encode (.muls 0 2) = 0x0000000200000020#64 := by decide +kernel

theorem test_decode_mul : decode 0x0000000001000421#64 = .ok (.mul 4 0 1) ∧ encode (.mul 4 0 1) = 0x0000000001000421#64 := by decide +kernel

theorem test_decode_divs : decode 0x0000000100000322#64 = .ok (.divs 3 1) ∧ encode (.divs 3 1) = 0x0000000100000322#64 := by decide +kernel

theorem test_decode_div : decode 0x0000000001000223#64 = .ok (.div 2 0 1) ∧ encode (.div 2 0 1) = 0x0000000001000223#64 := by decide +kernel

theorem test_decode_i2bcd : decode 0x0000000000000630#64 = .ok (.i2bcd 6 0) ∧ encode (.i2bcd 6 0) = 0x0000000000000630#64 := by decide +kernel

theorem test_decode_f2bcd : decode 0x0000000000030431#64 = .ok (.f2bcd 4 3) ∧ encode (.f2bcd 4 3) = 0x0000000000030431#64 := by decide +kernel

theorem test_decode_prhex : decode 0x0000001000000032#64 = .ok (.prhex 0 16) ∧ encode (.prhex 0 16) = 0x0000001000000032#64 := by decide +kernel

theorem test_decode_prhexz : decode 0x0000000800020033#64 = .ok (.prhexz 2 8) ∧ encode (.prhexz 2 8) = 0x0000000800020033#64 := by decide +kernel

theorem test_decode_prdig : decode 0x0000000000000034#64 = .ok (.prdig) ∧ encode (.prdig) = 0x0000000000000034#64 := by decide +kernel

theorem test_decode_prbcdi : decode 0x0000000000060035#64 = .ok (.prbcdi 6) ∧ encode (.prbcdi 6) = 0x0000000000060035#64 := by decide +kernel

theorem test_decode_prbcdf : decode 0x0000000000040036#64 = .ok (.prbcdf 4) ∧ encode (.prbcdf 4) = 0x0000000000040036#64 := by decide +kernel

theorem test_decode_shw_negative : decode 0xFFFFFFFE00050410#64 = .ok (.shw 4 5 (-2)) ∧ encode (.shw 4 5 (-2)) = 0xFFFFFFFE00050410#64 := by decide +kernel

theorem test_decode_cmpge_reserved : decode 0x0000000901000016#64 = .error .reservedNonzero := by decide +kernel

theorem test_decode_set_reserved : decode 0x0000010000000001#64 = .error .reservedNonzero := by decide +kernel

theorem test_decode_prdig_reserved : decode 0x0000000000000134#64 = .error .reservedNonzero := by decide +kernel

theorem test_decode_mov_reserved : decode 0x0000000100000102#64 = .error .reservedNonzero := by decide +kernel

theorem test_decode_zero_word : decode 0x0000000000000000#64 = .error .illegalOpcode := by decide +kernel

theorem test_decode_all_ones : decode 0xFFFFFFFFFFFFFFFF#64 = .error .illegalOpcode := by decide +kernel

theorem test_decode_op_05 : decode 0x0000000000000005#64 = .error .illegalOpcode := by decide +kernel

theorem test_decode_op_37 : decode 0x0000000000000037#64 = .error .illegalOpcode := by decide +kernel

theorem test_decode_op_40 : decode 0x0000000000000040#64 = .error .illegalOpcode := by decide +kernel

theorem test_rows_do_not_overlap :
    opcodeTable.Pairwise (fun a b => a.pattern &&& (a.mask &&& b.mask) ≠ b.pattern &&& (a.mask &&& b.mask)) := by
  decide +kernel

/-! ### One command (95_test_vectors 2.1 to 2.5; the id is the row's) -/

/-- ST1. -/
theorem test_set :
    after (.set 1 0xA5) (engine 2 0 0 [])
      (fun t => t.words 0 6) = some ([0, 0, 0xA5A5A5A5A5A5A5A5, 0xA5A5A5A5A5A5A5A5, 0, 0]) := by decide +kernel

/-- ST3. -/
theorem test_set_last_register :
    after (.set 7 0xFF) (engine 1 0 0 [])
      (fun t => t.words 6 2) = some ([0, 0xFFFFFFFFFFFFFFFF]) := by decide +kernel

/-- ST4. -/
theorem test_mov :
    after (.mov 5 0) (engine 1 0 0 [0x1234])
      (fun t => (t.words 5 1, t.words 0 1)) = some ([0x1234], [0x1234]) := by decide +kernel

/-- SX13. -/
theorem test_getb_first :
    after (.getb 0 0) (engine 1 0 0 [0x0102030405060708])
      (fun t => t.res) = some (1) := by decide +kernel

/-- ST7. -/
theorem test_getb_pair :
    after (.getb 0 15) (engine 1 0 0 [0x0102030405060708, 0x1112131415161718])
      (fun t => t.res) = some (0x18) := by decide +kernel

/-- ST9. -/
theorem test_setb_low_byte :
    after (.setb 0 7) { engine 1 0 0 [0] with opa := 0x1FF }
      (fun t => t.words 0 1) = some ([0xFF]) := by decide +kernel

/-- ST11. -/
theorem test_setb_pair :
    after (.setb 0 9) (engine 1 0 0 [0xFFFFFFFFFFFFFFFF, 0xFFFFFFFFFFFFFFFF])
      (fun t => t.words 0 2) = some ([0xFFFFFFFFFFFFFFFF, 0xFF00FFFFFFFFFFFF]) := by decide +kernel

/-- CP9. -/
theorem test_shw_right_in_place :
    after (.shw 0 0 1) (engine 4 0 0 [0xAAAA, 0xBBBB, 0xCCCC, 0xDDDD])
      (fun t => t.words 0 4) = some ([0, 0xAAAA, 0xBBBB, 0xCCCC]) := by decide +kernel

/-- CP2 and CP8. -/
theorem test_shw_most_negative :
    after (.shw 1 0 (-1)) (engine 4 0 0 [0xAAAA, 0xBBBB, 0xCCCC, 0xDDDD])
      (fun t => (t.words 1 4, after (.shw 1 0 (-2147483648)) t (fun u => u.words 1 4))) = some ([0xBBBB, 0xCCCC, 0xDDDD, 0], some [0, 0, 0, 0]) := by decide +kernel

/-- CP12. -/
theorem test_add_carries_out :
    after (.add 0 1 2) (engine 2 0 0 [0xFFFFFFFFFFFFFFFF, 0xFFFFFFFFFFFFFFFF, 0, 1])
      (fun t => (t.words 0 2, t.cf)) = some ([0, 0], true) := by decide +kernel

/-- CP13. -/
theorem test_add_prefix :
    after (.add 0 1 1) (engine 2 0 0 [5, 0xFFFFFFFFFFFFFFFF, 6, 1])
      (fun t => (t.words 0 2, t.cf)) = some ([0xB, 0xFFFFFFFFFFFFFFFF], false) := by decide +kernel

/-- CP20. -/
theorem test_adc_largest_sum :
    after (.adc 0 1 1) { engine 1 0 0 [0xFFFFFFFFFFFFFFFF, 0xFFFFFFFFFFFFFFFF] with cf := true }
      (fun t => (t.words 0 1, t.cf)) = some ([0xFFFFFFFFFFFFFFFF], true) := by decide +kernel

/-- CP19. -/
theorem test_adc_length_zero :
    after (.adc 0 1 0) { engine 1 0 0 [1, 2] with cf := true }
      (fun t => (t.words 0 1, t.cf)) = some ([1], true) := by decide +kernel

/-- CP22. -/
theorem test_sub_borrows :
    after (.sub 0 1 2) (engine 2 0 0 [1, 0, 0, 1])
      (fun t => (t.words 0 2, t.cf)) = some ([0, 0xFFFFFFFFFFFFFFFF], false) := by decide +kernel

/-- CP21. -/
theorem test_sub_below_zero :
    after (.sub 0 1 1) (engine 1 0 0 [0, 1])
      (fun t => (t.words 0 1, t.cf)) = some ([0xFFFFFFFFFFFFFFFF], true) := by decide +kernel

/-- CP24. -/
theorem test_sbb_borrow_in :
    after (.sbb 0 1 1) { engine 1 0 0 [5, 5] with cf := true }
      (fun t => (t.words 0 1, t.cf)) = some ([0xFFFFFFFFFFFFFFFF], true) := by decide +kernel

/-- CP27. -/
theorem test_sbb_length_zero :
    after (.sbb 0 1 0) { engine 1 0 0 [9, 5] with cf := true }
      (fun t => (t.words 0 1, t.cf)) = some ([9], true) := by decide +kernel

/-- CP29. -/
theorem test_adds_carry_runs_out :
    after (.adds 0 1) { engine 2 0 0 [0xFFFFFFFFFFFFFFFF, 0xFFFFFFFFFFFFFFFF] with opa := 1 }
      (fun t => (t.words 0 2, t.cf)) = some ([0, 0], true) := by decide +kernel

/-- CP30. -/
theorem test_adds_first_word :
    after (.adds 0 0) { engine 2 0 0 [0xFFFFFFFFFFFFFFFF, 7] with opa := 1 }
      (fun t => (t.words 0 2, t.cf)) = some ([0, 7], true) := by decide +kernel

/-- CP34. -/
theorem test_cmpge_last_word :
    after (.cmpge 0 1) { engine 2 0 0 [0, 1, 0, 2] with ge := true }
      (fun t => t.ge) = some (false) := by decide +kernel

/-- CP35. -/
theorem test_cmpge_unsigned :
    after (.cmpge 0 1) (engine 2 0 0 [0x8000000000000000, 0, 0x7FFFFFFFFFFFFFFF, 0xFFFFFFFFFFFFFFFF])
      (fun t => t.ge) = some (true) := by decide +kernel

/-- MD1. -/
theorem test_muls_largest :
    after (.muls 0 1) { engine 1 0 0 [0xFFFFFFFFFFFFFFFF] with opa := 0xFFFFFFFFFFFFFFFF }
      (fun t => (t.words 0 1, t.res)) = some ([1], 0xFFFFFFFFFFFFFFFE) := by decide +kernel

/-- MD3. -/
theorem test_muls_overflow :
    after (.muls 0 2) { engine 2 0 0 [0x0100000000000000, 0] with opa := 0x100 }
      (fun t => (t.words 0 2, t.res)) = some ([0, 0], 1) := by decide +kernel

/-- MD10. -/
theorem test_mul_largest :
    after (.mul 2 0 1) (engine 2 0 0 [0xFFFFFFFFFFFFFFFF, 0xFFFFFFFFFFFFFFFF, 0xFFFFFFFFFFFFFFFF, 0xFFFFFFFFFFFFFFFF])
      (fun t => t.words 2 4) = some ([0xFFFFFFFFFFFFFFFF, 0xFFFFFFFFFFFFFFFE, 0, 1]) := by decide +kernel

/-- MD12. -/
theorem test_mul_weights :
    after (.mul 2 0 1) (engine 2 0 0 [1, 0, 1, 0])
      (fun t => t.words 2 4) = some ([0, 1, 0, 0]) := by decide +kernel

/-- MD19. -/
theorem test_divs_remainder :
    after (.divs 0 2) { engine 2 0 0 [1, 0] with opa := 3 }
      (fun t => (t.words 0 2, t.res, t.zf)) = some ([0, 0x5555555555555555], 1, false) := by decide +kernel

/-- SX29. -/
theorem test_divs_by_zero :
    after (.divs 0 1) { engine 2 0 0 [0, 5] with zf := true }
      (fun t => (t.words 0 2, t.res, t.zf)) = some ([0xFFFFFFFFFFFFFFFF, 5], 0, false) := by decide +kernel

/-- MD30. -/
theorem test_div_largest_settled :
    after (.div 2 0 1) (engine 1 0 0 [0xFFFFFFFFFFFFFFFF, 0x8000000000000000])
      (fun t => t.words 2 2) = some ([1, 0xFFFFFFFFFFFFFFFE]) := by decide +kernel

/-- MD34. -/
theorem test_div_by_zero :
    after (.div 2 0 1) (engine 1 0 0 [5, 0])
      (fun t => (t.words 2 2, t.fault)) = some ([0xFFFFFFFFFFFFFFFF, 0xFFFFFFFFFFFFFFFF], false) := by decide +kernel

/-- BC6. -/
theorem test_i2bcd_twenty_digits :
    after (.i2bcd 2 0) (engine 1 0 0 [0xFFFFFFFFFFFFFFFF, 0, 0x55, 0x66])
      (fun t => t.words 2 2) = some ([0x1844, 0x6744073709551615]) := by decide +kernel

/-- BC5. -/
theorem test_i2bcd_odd_digits :
    after (.i2bcd 2 0) (engine 1 0 0 [0x1869F])
      (fun t => t.words 2 2) = some ([0, 0x99999]) := by decide +kernel

/-- BC11. -/
theorem test_f2bcd_twentieth :
    after (.f2bcd 2 0) (engine 1 0 0 [0x0CCCCCCCCCCCCCCC])
      (fun t => t.words 2 2) = some ([0x0499999999999999, 0x9900000000000000]) := by decide +kernel

/-- BC16. -/
theorem test_f2bcd_third :
    after (.f2bcd 2 0) (engine 2 0 0 [0x5555555555555555, 0x5555555555555555])
      (fun t => t.words 2 4) = some ([0x3333333333333333, 0x3333333333333333, 0x3333330000000000, 0]) := by decide +kernel

/-- TX9. -/
theorem test_prhex_breaks_lines :
    after (.prhex 0 6) (engine 1 4 0 [0x0102030405060708])
      (fun t => t.txt) = some ([0x30, 0x31, 0x30, 0x32, 0x30, 0x33, 0x30, 0x34, 0x0A, 0x30, 0x35, 0x30, 0x36]) := by decide +kernel

/-- TX1, the last three bytes; COL as in TX11. -/
theorem test_prhex_letters :
    after (.prhex 0 8) { engine 1 0 0 [0x0000000000BC614E] with col := 5 }
      (fun t => (t.txt.drop 10, t.col)) = some ([0x42, 0x43, 0x36, 0x31, 0x34, 0x45], 5) := by decide +kernel

/-- TX3. -/
theorem test_prhexz_skips_bytes :
    after (.prhexz 0 8) (engine 1 0 0 [0x000B000000000000])
      (fun t => t.txt) = some ([0x30, 0x42, 0x30, 0x30, 0x30, 0x30, 0x30, 0x30, 0x30, 0x30, 0x30, 0x30, 0x30, 0x30]) := by decide +kernel

/-- TX4. -/
theorem test_prhexz_all_zero :
    after (.prhexz 0 8) (engine 1 0 0 [0])
      (fun t => t.txt) = some ([]) := by decide +kernel

/-- TX13. -/
theorem test_prdig_wraps :
    after (.prdig) { engine 1 0 3 [] with opa := 0xF7, col := 2 }
      (fun t => (t.txt, t.col)) = some ([0x37, 0x0A], 0) := by decide +kernel

/-- TX16. -/
theorem test_prdig_counts_modulo :
    after (.prdig) { engine 1 0 0 [] with opa := 1, col := 0xFFFFFFFF }
      (fun t => (t.txt, t.col)) = some ([0x31], 0) := by decide +kernel

/-- TX18. -/
theorem test_prbcdi_suppresses_a_nibble :
    after (.prbcdi 2) (engine 1 0 0 [0, 0, 0, 0x234])
      (fun t => (t.txt, t.col)) = some ([0x32, 0x33, 0x34], 3) := by decide +kernel

/-- TX21. -/
theorem test_prbcdi_wraps :
    after (.prbcdi 2) (engine 1 0 3 [0, 0, 0, 0x1234567])
      (fun t => (t.txt, t.col)) = some ([0x31, 0x32, 0x33, 0x0A, 0x34, 0x35, 0x36, 0x0A, 0x37], 1) := by decide +kernel

/-- TX26. -/
theorem test_prbcdf_keeps_zeros :
    after (.prbcdf 2) (engine 1 0 0 [0, 0, 0x1200003400000000, 0])
      (fun t => (t.txt, t.col)) = some ([0x31, 0x32, 0x30, 0x30, 0x30, 0x30, 0x33, 0x34], 8) := by decide +kernel

/-- TX27. -/
theorem test_prbcdf_all_zero :
    after (.prbcdf 2) (engine 1 0 0 [])
      (fun t => (t.txt, t.col)) = some ([0x30, 0x30], 2) := by decide +kernel

/-! ### Faults and host transactions (95_test_vectors 2.6, 2.7) -/

/-- FT2. -/
theorem test_fault_illegal :
    afterHost (.writeControl 0 0xFFFFFFFFFFFFFFFF) (engine 1 0 0 [])
      record = some (true, 1, 0xFFFFFFFFFFFFFFFF) := by decide +kernel

/-- FT22. -/
theorem test_fault_reserved_first :
    afterHost (.writeControl 0 0x0000000301090811) (engine 1 0 0 [])
      record = some (true, 2, 0x0000000301090811) := by decide +kernel

/-- FT23. -/
theorem test_fault_length_before_register :
    afterHost (.writeControl 0 0x0000000300090811) (engine 1 0 0 [])
      record = some (true, 3, 0x0000000300090811) := by decide +kernel

/-- FT25. -/
theorem test_fault_register_before_overlap :
    afterHost (.writeControl 0 0x0000000000070723) (engine 1 0 0 [])
      record = some (true, 4, 0x0000000000070723) := by decide +kernel

/-- FT17. -/
theorem test_fault_overlap :
    afterHost (.writeControl 0 0x0000000200010011) (engine 1 0 0 [1, 1])
      record = some (true, 5, 0x0000000200010011) := by decide +kernel

/-- FT18. -/
theorem test_no_overlap_at_width_two :
    afterHost (.writeControl 0 0x0000000200010011) (engine 2 0 0 [0, 1, 0, 1])
      record = some (false, 0, 0) := by decide +kernel

/-- FT15. -/
theorem test_fault_past_the_file :
    afterHost (.writeControl 0 0x0000000800070003) (engine 1 0 0 [])
      record = some (true, 4, 0x0000000800070003) := by decide +kernel

/-- FT16. -/
theorem test_length_zero_at_the_last_register :
    afterHost (.writeControl 0 0x0000000000000720) (engine 1 0 0 [])
      record = some (false, 0, 0) := by decide +kernel

/-- FT27. -/
theorem test_fault_keeps_the_first :
    afterHost (.writeControl 0 0) { engine 1 0 0 [] with fault := true, fcode := 4, fcmd := 0x801 }
      record = some (true, 4, 0x801) := by decide +kernel

/-- FT28: the fault return. -/
theorem test_fault_return :
    afterHost (.writeControl 4 1) { engine 1 0 0 [] with fault := true, fcode := 4, fcmd := 0x801 } record
      = some (false, 0, 0) := by decide +kernel

/-- FT29. -/
theorem test_no_fault_return :
    afterHost (.writeControl 4 0) { engine 1 0 0 [] with fault := true, fcode := 4, fcmd := 0x801 } record
      = some (true, 4, 0x801) := by decide +kernel

/-- HS2. -/
theorem test_config : controlValue 6 State.reset = some 0x0000000800000800 := by decide +kernel

/-- HS4. -/
theorem test_flags :
    afterHost (.writeControl 3 0xFFFFFFFFFFFFFFFF) (engine 1 0 0 []) (controlValue 3) = some (some 7) := by
  decide +kernel

/-- HS5. -/
theorem test_column :
    afterHost (.writeControl 7 0x0000000100000005) (engine 1 0 0 []) (controlValue 7) = some (some 5) := by
  decide +kernel

/-- HS7. -/
theorem test_byte_window :
    afterHost (.writeWord 0 0x0102030405060708) (engine 1 0 0 [])
      (fun t => [readByte t.rf 0, readByte t.rf 7, readByte t.rf 3]) = some [8, 1, 5] := by decide +kernel

/-- HS10. -/
theorem test_byte_write :
    afterHost (.writeByte 24 0x7E) (engine 2 0 0 []) (fun t => readWord t.rf 3) = some 0x7E := by decide +kernel

/-- The host's hook: the first step after reset runs the word, TX12's command with OPA = 0. -/
theorem test_first_step :
    (match step (State.reset.withFetchWord 64 0x34) with
      | .next t => some (t.txt, t.col, t.pending)
      | _ => none) = some ([0x30], 1, []) := by decide +kernel

/-! ### Assembler and listing forms (30_encoding R79, R81) -/

theorem test_assembler :
    asmText (.shw 1 0 (-1)) = "SHW r1, r0, -1" ∧ asmText (.mul 2 0 1) = "MUL p2, r0, r1" ∧ asmText .prdig = "PRDIG" := by
  decide +kernel

theorem test_listing :
    listingText (.writeControl 1 4) = "wr OPA, 4" ∧ listingText (.writeControl 4 1) = "clrf" ∧
      listingText (.readByte 7) = "rdb 7" := by
  decide +kernel

/-! ### Witnesses: states and operands that meet the hypotheses of the statements -/

/-- One register a word; r0 to r7 hold 1 to 8. -/
def small : State := engine 1 0 0 [1, 2, 3, 4, 5, 6, 7, 8]

/-- Two words a register. -/
def wide : State := engine 2 0 0 [0, 1, 0, 2, 0, 3]

/-- `small` with a fault pending, that of SET r8, 0. -/
def faulted : State := { small with fault := true, fcode := 4, fcmd := 0x801 }

theorem witness_DecodeOfEncodeIsTheCommand :
    wellFormed (.shw 255 255 (-2 ^ 31)) = true ∧ wellFormed (.muls 0 (2 ^ 32 - 1)) = true := by decide +kernel

theorem witness_EncodeOfDecodeIsTheWord :
    decode 0x80000000FFFFFF10 = .error .reservedNonzero ∧ decode 0x8000000000FFFF10 = .ok (.shw 255 255 (-2 ^ 31)) := by decide +kernel

theorem witness_DecodeMatchesOpcodeTable :
    (∃ row ∈ opcodeTable, 0x134 % 256 = row.pattern ∧ 0x134 &&& row.mask ≠ row.pattern) ∧
      (∀ row ∈ opcodeTable, 0xFF37 % 256 ≠ row.pattern) := by decide +kernel

theorem witness_StepRunsTheDecodedCommand :
    ({ small with pending := [.writeControl 0 0x34] } : State).pending = .writeControl 0 0x34 :: [] ∧
      small.fault = false ∧ decode 0x34 = .ok .prdig ∧ decodeTableWord 64 0x34 = some .prdig := by decide +kernel

theorem witness_FaultEntryChangesOnlyTheRecord :
    small.fault = false ∧ wordFault small.cfg 0x37 = some .illegalOpcode ∧
      wordFault small.cfg 0x134 = some .reservedNonzero ∧ wordFault small.cfg 0x0000000300000020 = some .badLength ∧
      wordFault small.cfg 0x801 = some .badRegister ∧ wordFault small.cfg 0x0000000200010011 = some .overlap := by decide +kernel

theorem witness_PassedChecksNeverFault :
    small.fault = false ∧ wordFault small.cfg 0x0000000200000620 = none := by decide +kernel

theorem witness_FaultsDependOnWordAndParametersOnly :
    small.cfg = (engine 1 0 0 []).cfg ∧ small.fault = false ∧ (engine 1 0 0 []).fault = false ∧
      (∃ t, issueCommand 0x37 small = .next t) ∧ ∃ t, issueCommand 0x37 (engine 1 0 0 []) = .next t := ⟨rfl, rfl, rfl, ⟨_, rfl⟩, ⟨_, rfl⟩⟩

theorem witness_FaultedEngineIgnoresCommands :
    faulted.fault = true ∧ (∃ u, transact (.writeByte 63 1) faulted = .next u) ∧
      (∃ u, transact (.writeControl 4 0xFFFFFFFFFFFFFFFE) faulted = .next u) ∧
      (0xFFFFFFFFFFFFFFFE : Word).getLsbD 0 = false ∧ 7 < faulted.cfg.nreg * faulted.cfg.w ∧
      63 < faulted.cfg.nreg * (8 * faulted.cfg.w) := ⟨rfl, ⟨_, rfl⟩, ⟨_, rfl⟩, by decide, by decide, by decide⟩

theorem witness_FaultReturnClearsTheRecord :
    ({ faulted with pending := [.writeControl 4 1] } : State).pending = .writeControl 4 1 :: [] ∧ faulted.fault = true ∧
      small.fault = false ∧ (1 : Word).getLsbD 0 = true ∧ (0xFFFFFFFFFFFFFFFE : Word).getLsbD 0 = false := by decide +kernel

theorem witness_CountsOutOfRangeFaultBadLength :
    2 * small.cfg.w < 3 ∧ 16 * small.cfg.w ≤ 16 ∧ 2 * small.cfg.w ≤ 2 ∧ 16 * small.cfg.w < 17 := by decide +kernel

theorem witness_MissingOperandsFaultBadRegister :
    1 ≤ small.cfg.w ∧ small.cfg.nreg ≤ 8 ∧ small.cfg.nreg ≤ 7 + 1 ∧ (2 ≤ 2 * small.cfg.w ∧ ¬ small.holds 7 2) ∧
      (1 < 2 * small.cfg.w ∧ ¬ small.holds 7 (1 + 1)) ∧ (8 < 16 * small.cfg.w ∧ ¬ small.holds 7 (8 / 8 + 1)) ∧
      (9 ≤ 16 * small.cfg.w ∧ ¬ small.holds 7 ((9 + 7) / 8)) := by decide +kernel

theorem witness_PartialOverlapFaults :
    1 ≤ small.cfg.w ∧ (2 ≤ 2 * small.cfg.w ∧ small.holds 6 2 ∧ small.holds 5 2 ∧ small.cfg.w < 2 ∧ 6 = 5 + 1) ∧
      (small.holds 6 2 ∧ small.holds 4 2 ∧ ¬ (small.cfg.w < 2 ∧ (6 = 4 + 1 ∨ 4 = 6 + 1))) ∧
      (6 + 1 < small.cfg.nreg ∧ 7 < small.cfg.nreg ∧ ¬ outsidePair 6 7 ∧ ¬ outsidePair 6 6 ∧ outsidePair 6 5) := by decide +kernel

theorem witness_ControlRegistersReadAndWrite :
    small.cfg.valid ∧ ({ w := 2 ^ 24, nreg := 256, hexLineBytes := 0, decLineDigits := 0 } : Config).valid := by decide +kernel

theorem witness_HostWindowsReadAndWrite :
    7 < small.cfg.nreg * small.cfg.w ∧ 63 < small.cfg.nreg * (8 * small.cfg.w) := by decide +kernel

theorem witness_ResetEventLeavesItsValues :
    ({ faulted with pending := [.reset] } : State).pending = .reset :: [] := by decide +kernel

theorem witness_SetFillsTheRegister :
    7 < small.cfg.nreg ∧ 0 < small.cfg.w := by decide +kernel

theorem witness_MovCopiesTheRegister :
    7 < small.cfg.nreg ∧ 0 < small.cfg.nreg ∧ 0 < small.cfg.w := by decide +kernel

theorem witness_GetbReadsTheLogicalByte :
    15 < 16 * small.cfg.w ∧ small.holds 6 (15 / 8 + 1) ∧ 15 < 8 * 2 := by decide +kernel

theorem witness_SetbWritesEightBits :
    15 < 16 * small.cfg.w ∧ small.holds 6 (15 / 8 + 1) := by decide +kernel

theorem witness_SetbOfGetbLeavesTheRegisterFile :
    15 < 16 * small.cfg.w ∧ small.holds 6 (15 / 8 + 1) ∧
      2 ≤ 2 * small.cfg.w ∧ small.holds 6 2 ∧ 15 < 8 * 2 := by decide +kernel

theorem witness_WritingBackKeepsTheCanonicalList :
    Memory.wf small.rf ∧ 15 < 16 * small.cfg.w ∧ small.holds 6 (15 / 8 + 1) := by decide +kernel

theorem witness_ShwShiftsWholeWords :
    7 < wide.cfg.nreg ∧ 0 < wide.cfg.nreg ∧ (0 : Int) ≤ 2 ^ 31 - 1 ∧ (-2 ^ 31 : Int) < 0 := by decide +kernel

theorem witness_AddAdcWriteSumAndCarry :
    2 ≤ 2 * small.cfg.w ∧ small.holds 6 2 ∧ small.holds 4 2 ∧ small.sameOrApart 6 4 2 ∧ small.sameOrApart 6 6 2 := by decide +kernel

theorem witness_SubSbbWriteDifferenceAndBorrow :
    2 ≤ 2 * small.cfg.w ∧ small.holds 6 2 ∧ small.holds 4 2 ∧ small.sameOrApart 6 4 2 ∧ small.sameOrApart 6 6 2 := by decide +kernel

theorem witness_AddsAddsAtTheWord :
    1 < 2 * small.cfg.w ∧ small.holds 6 (1 + 1) ∧ small.opa = 0 := by decide +kernel

theorem witness_CmpgeComparesMagnitudes :
    7 < small.cfg.nreg ∧ 0 < small.cfg.nreg := by decide +kernel

theorem witness_SubUndoesAdd :
    2 ≤ 2 * small.cfg.w ∧ small.holds 6 2 ∧ small.holds 4 2 ∧ small.sameOrApart 6 4 2 ∧ 6 ≠ 4 := by decide +kernel

theorem witness_CompareIsTotal :
    7 < small.cfg.nreg ∧ 0 < small.cfg.nreg ∧ small.val 7 small.cfg.w ≠ small.val 0 small.cfg.w ∧
      small.val 7 small.cfg.w = small.val 7 small.cfg.w := by decide +kernel

theorem witness_AddThenAdcIsOneAdd :
    1 ≤ wide.cfg.w ∧ 6 + 1 < wide.cfg.nreg ∧ 4 + 1 < wide.cfg.nreg ∧ 4 + 2 ≤ 6 := by decide +kernel

theorem witness_AddChainsAgree :
    operandFault small.cfg (.add 6 4 2) = none ∧ (∃ t, exec (.add 6 4 2) small = .next t) ∧
      (∃ u, exec (.adc 6 4 2) small = .next u) ∧ operandFault small.cfg (.adds 6 1) = none ∧
      ∃ t, exec (.adds 6 1) small = .next t := ⟨by decide, ⟨_, rfl⟩, ⟨_, rfl⟩, by decide, ⟨_, rfl⟩⟩

theorem witness_SubChainsAgree :
    operandFault small.cfg (.sub 6 4 2) = none ∧ (∃ t, exec (.sub 6 4 2) small = .next t) ∧
      ∃ u, exec (.sbb 6 4 2) small = .next u := ⟨by decide, ⟨_, rfl⟩, ⟨_, rfl⟩⟩

theorem witness_MulsWritesProductAndHighWord :
    2 ≤ 2 * small.cfg.w ∧ small.holds 6 2 ∧ small.holds 7 1 := by decide +kernel

theorem witness_MulWritesTheFullProduct :
    6 + 1 < small.cfg.nreg ∧ 0 < small.cfg.nreg ∧ 5 < small.cfg.nreg ∧ outsidePair 6 0 ∧ outsidePair 6 5 := by decide +kernel

theorem witness_DivsWritesQuotientAndRemainder :
    2 ≤ 2 * small.cfg.w ∧ small.holds 6 2 ∧ ({ small with opa := 7 } : State).opa ≠ 0 := by decide +kernel

theorem witness_DivsByZeroWritesTheSentinel :
    2 ≤ 2 * small.cfg.w ∧ small.holds 6 2 ∧ small.opa = 0 := by decide +kernel

theorem witness_DivWritesIntegerAndFraction :
    6 + 1 < small.cfg.nreg ∧ 0 < small.cfg.nreg ∧ 5 < small.cfg.nreg ∧ outsidePair 6 0 ∧ outsidePair 6 5 ∧
      small.val 5 small.cfg.w ≠ 0 := by decide +kernel

theorem witness_DivSentinelMeansZeroDivisor :
    1 ≤ small.cfg.w ∧ 6 + 1 < small.cfg.nreg ∧ 0 < small.cfg.nreg ∧ 5 < small.cfg.nreg ∧ outsidePair 6 0 ∧ outsidePair 6 5 := by decide +kernel

theorem witness_DivsUndoesMuls :
    2 ≤ 2 * small.cfg.w ∧ small.holds 6 2 ∧ ({ small with opa := 1000 } : State).opa ≠ 0 ∧
      after (.muls 6 2) { small with opa := 1000 } (fun t => t.res) = some 0 := by decide +kernel

theorem witness_DivUndoesMul :
    2 + 1 < small.cfg.nreg ∧ 4 + 1 < small.cfg.nreg ∧ 0 < small.cfg.nreg ∧ 1 < small.cfg.nreg ∧ outsidePair 2 0 ∧
      outsidePair 2 1 ∧ outsidePair 4 (2 + 1) ∧ outsidePair 4 1 ∧
      small.val 0 small.cfg.w * small.val 1 small.cfg.w < 2 ^ (64 * small.cfg.w) ∧ small.val 1 small.cfg.w ≠ 0 := by decide +kernel

theorem witness_OneDividedByFourIsAQuarter :
    1 ≤ (engine 1 0 0 [1]).cfg.w ∧ 2 ≤ (engine 1 0 0 [1]).cfg.nreg ∧ ({ engine 1 0 0 [1] with opa := 4 } : State).opa = 4 ∧
      ∀ k < 2 * (engine 1 0 0 [1]).cfg.w,
        (engine 1 0 0 [1]).word 0 k = if k = (engine 1 0 0 [1]).cfg.w - 1 then 1 else 0 := by decide +kernel

theorem witness_ScalarChainsAgree :
    operandFault small.cfg (.muls 6 2) = none ∧ (∃ t, exec (.muls 6 2) small = .next t) ∧
      operandFault small.cfg (.divs 6 2) = none ∧ ({ small with opa := 7 } : State).opa ≠ 0 ∧
      ∃ t, exec (.divs 6 2) { small with opa := 7 } = .next t := ⟨by decide, ⟨_, rfl⟩, by decide, by decide, ⟨_, rfl⟩⟩

theorem witness_SchoolbookProductAgrees :
    operandFault small.cfg (.mul 6 0 5) = none ∧ ∃ t, exec (.mul 6 0 5) small = .next t := ⟨by decide, ⟨_, rfl⟩⟩

theorem witness_RestoringDivisionAgrees :
    operandFault small.cfg (.div 6 0 5) = none ∧ ∃ t, exec (.div 6 0 5) small = .next t := ⟨by decide, ⟨_, rfl⟩⟩

theorem witness_I2bcdWritesTheDecimalDigits :
    6 + 1 < small.cfg.nreg ∧ 5 < small.cfg.nreg ∧ outsidePair 6 5 := by decide +kernel

theorem witness_F2bcdWritesTheFractionDigits :
    6 + 1 < small.cfg.nreg ∧ 5 < small.cfg.nreg ∧ outsidePair 6 5 ∧ 8 * small.cfg.w + 80 * small.cfg.w / 49 < 16 * small.cfg.w := by decide +kernel

theorem witness_BcdRoundTripPrintsTheNumeral :
    6 + 1 < small.cfg.nreg ∧ 5 < small.cfg.nreg ∧ outsidePair 6 5 ∧ 1 ≤ small.val 5 small.cfg.w ∧
      small.cfg.decLineDigits = 0 ∧ (engine 1 0 0 []).val 5 1 = 0 := by decide +kernel

theorem witness_I2bcdProcedureAgrees :
    1 ≤ small.cfg.w ∧ operandFault small.cfg (.i2bcd 6 5) = none ∧ ∃ t, exec (.i2bcd 6 5) small = .next t := ⟨by decide, by decide, ⟨_, rfl⟩⟩

theorem witness_F2bcdProcedureAgrees :
    1 ≤ small.cfg.w ∧ operandFault small.cfg (.f2bcd 6 5) = none ∧ ∃ t, exec (.f2bcd 6 5) small = .next t := ⟨by decide, by decide, ⟨_, rfl⟩⟩

theorem witness_PrhexDumpsTheBytes :
    16 ≤ 16 * small.cfg.w ∧ small.holds 6 ((16 + 7) / 8) := by decide +kernel

theorem witness_PrdigPrintsOneDigit :
    ((engine 1 0 3 []).cfg.decLineDigits ≠ 0 ∧ (engine 1 0 3 []).cfg.decLineDigits ≤ (2 + 1) % 2 ^ 32) ∧
      ¬ ((engine 1 0 3 []).cfg.decLineDigits ≠ 0 ∧ (engine 1 0 3 []).cfg.decLineDigits ≤ (1 + 1) % 2 ^ 32) := by decide +kernel

theorem witness_PrbcdiPrintsTheInteger :
    6 + 1 < small.cfg.nreg ∧ (∀ i < 16 * 1, (engine 1 0 0 []).byte 6 i = 0) ∧
      (∀ i < 15, (engine 1 0 0 [0, 0, 0, 0, 0, 0, 0, 8]).byte 6 i = 0) ∧ (engine 1 0 0 [0, 0, 0, 0, 0, 0, 0, 8]).byte 6 15 ≠ 0 := by decide +kernel

theorem witness_PrbcdfPrintsTheFraction :
    1 ≤ small.cfg.w ∧ 6 + 1 < small.cfg.nreg ∧ (∀ i < 16 * 1, (engine 1 0 0 []).byte 6 i = 0) ∧
      15 < 16 * small.cfg.w ∧ small.byte 6 15 ≠ 0 ∧ ∀ i, 15 < i → i < 16 * small.cfg.w → small.byte 6 i = 0 := ⟨by decide, by decide, by decide +kernel, by decide, by decide +kernel,
    fun i h h' => absurd (Nat.lt_of_lt_of_le h' (by decide : 16 * small.cfg.w ≤ 16)) (by omega)⟩

theorem witness_EveryStepKeepsTheInvariant :
    small.Inv ∧ faulted.Inv ∧ ∃ t, step { faulted with pending := [.reset] } = .next t := by
  refine ⟨⟨by decide, by decide +kernel, by decide +kernel, rfl, fun _ => ⟨rfl, rfl⟩, fun h => absurd h (by decide)⟩,
    ⟨by decide, by decide +kernel, by decide +kernel, rfl, fun h => absurd h (by decide), fun _ => ⟨.badRegister, ?_, rfl⟩⟩,
    ⟨_, rfl⟩⟩
  decide +kernel

theorem witness_ScratchIsNotObservable :
    (∃ t, step { small with pending := [.writeControl 0 0x0000000005000623] } = .next t) ∧
      ∃ f, step { small with pending := [.readWord 8] } = .fault f := ⟨⟨_, rfl⟩, ⟨_, rfl⟩⟩

theorem witness_CommandsWriteOnlyTheirState :
    (∃ t, exec (.divs 6 2) small = .next t) ∧ (∃ t, exec (.prdig) small = .next t) ∧
      (storesToRf .prdig = false ∧ writesRes .prdig = false ∧ writesCf .prdig = false ∧ writesZf .prdig = false ∧
        writesGe .prdig = false ∧ printsText (.divs 6 2) = false ∧ countsColumns (.divs 6 2) = false ∧
        usesScratch (.divs 6 2) = false) := ⟨⟨_, rfl⟩, ⟨_, rfl⟩, by decide⟩

theorem witness_TextIsAppendOnly :
    (∃ t, step { small with pending := [.writeControl 0 0x34] } = .next t) ∧
      (∃ t, step { small with pending := [.reset] } = .next t) ∧
      ({ small with pending := [.reset] } : State).pending.head? = some .reset := ⟨⟨_, rfl⟩, ⟨_, rfl⟩, by decide⟩

end Sys2Proof.Tests
end

section
/-! PROOFS. The family 10_state: what every command and every host transaction may do to the state, said once, and the statements
that follow from it. -/

namespace Sys2Proof.Machine

/-! ### The word of a command -/

/-- A command read from fields in range has those fields (30_encoding R72, R75). -/
theorem fieldsFor_of_commandOf (f : Fields) (i : Instr) (hf : f.inRange) (h : commandOf f = .ok i) : fieldsFor i = f := by
  obtain ⟨op, rd, rs1, rs2, n⟩ := f
  obtain ⟨-, -, -, -, hn : n < 2 ^ 32⟩ := hf
  have hset : bitField n 31 8 = 0 → n % 2 ^ 8 = n := by unfold bitField; omega
  unfold commandOf at h
  split at h
  case h_23 => cases h
  all_goals
    obtain ⟨hzero, rfl⟩ := (ifReservedZero_ok _ _ _).1 h
    simp_all [fieldsFor, unusedZero, wrap32_sext32]

/-- A word that decodes is the word of its command (30_encoding R78). -/
theorem encode_of_decode (c : Word) (i : Instr) (h : decode c = .ok i) : encode i = c := by
  rw [encode, fieldsFor_of_commandOf (fieldsOf c) i (fieldsOf_inRange c) h, pack_fieldsOf]

/-! ### The effect of a command whose checks pass -/

/-- The words DIVS leaves in its buffer: the sentinel for a zero divisor, else the quotient's (42_multiply_divide R134). -/
def divsWords (s : State) (rd L : Nat) : List Word :=
  if s.opa = 0 then List.replicate L sentinel else valueWords L (s.val rd L / s.opa.toNat)

@[simp] theorem length_divsWords (s : State) (rd L : Nat) : (divsWords s rd L).length = L := by
  unfold divsWords; split <;> simp

@[simp] theorem length_quotientWords (w N D : Nat) : (quotientWords w N D).length = 2 * w := by
  unfold quotientWords; split <;> simp

/-- DIVS with its two cases told field by field (42_multiply_divide R134). -/
def divsInto (s : State) (rd L : Nat) : State :=
  { s.setWords rd (divsWords s rd L) with
    res := if s.opa = 0 then s.res else BitVec.ofNat 64 (s.val rd L % s.opa.toNat)
    zf := if s.opa = 0 then false else quotientZero (s.val rd L / s.opa.toNat) }

/-- What each command does when every check passes (40_storage R100); `exec_eq_perform_effectOf` ties it to `exec`. -/
def effectOf : Instr → State → State
  | .set rd b, s => s.setWords rd (List.replicate s.cfg.w (BitVec.ofNat 64 (b.toNat * 0x0101010101010101)))
  | .mov rd rs1, s => s.setWords rd (s.words rs1 s.cfg.w)
  | .getb rs1 idx, s => { s with res := (s.byte rs1 idx).setWidth 64 }
  | .setb rd idx, s => s.setByte rd idx (s.opa.setWidth 8)
  | .shw rd rs1 n, s => s.setWords rd (shiftWords (s.words rs1 s.cfg.w) n)
  | .add rd rs1 L, s => addInto s rd rs1 L 0
  | .adc rd rs1 L, s => addInto s rd rs1 L s.cf.toNat
  | .sub rd rs1 L, s => subInto s rd rs1 L 0
  | .sbb rd rs1 L, s => subInto s rd rs1 L s.cf.toNat
  | .adds rd idx, s =>
    { s.setVal rd (idx + 1) ((s.val rd (idx + 1) + s.opa.toNat) % 2 ^ (64 * (idx + 1))) with
      cf := carryOut (s.val rd (idx + 1) + s.opa.toNat) (idx + 1) }
  | .cmpge rs1 rs2, s => { s with ge := greaterOrEqual (s.val rs1 s.cfg.w) (s.val rs2 s.cfg.w) }
  | .muls rd L, s =>
    { s.setVal rd L (s.val rd L * s.opa.toNat % 2 ^ (64 * L)) with
      res := BitVec.ofNat 64 (s.val rd L * s.opa.toNat / 2 ^ (64 * L)) }
  | .mul pd rs1 rs2, s => s.setVal pd (2 * s.cfg.w) (s.val rs1 s.cfg.w * s.val rs2 s.cfg.w)
  | .divs rd L, s => divsInto s rd L
  | .div pd rs1 rs2, s =>
    (s.setWords pd (quotientWords s.cfg.w (s.val rs1 s.cfg.w) (s.val rs2 s.cfg.w))).clobberScratch
  | .i2bcd pd rs1, s =>
    (s.setBytes pd (2 * s.cfg.w) (intBcd (16 * s.cfg.w) (s.val rs1 s.cfg.w)).reverse).clobberScratch
  | .f2bcd pd rs1, s =>
    (s.setBytes pd (2 * s.cfg.w)
      (fracBcd s.cfg.w (fracBytes s.cfg.w) (s.val rs1 s.cfg.w)
        ++ List.replicate (16 * s.cfg.w - fracBytes s.cfg.w) 0)).clobberScratch
  | .prhex rs1 n, s => s.emit (hexDump s.cfg.hexLineBytes 0 (s.bytes rs1 n))
  | .prhexz rs1 n, s => s.emit (hexDump s.cfg.hexLineBytes 0 (dropLeadingZeros (s.bytes rs1 n)))
  | .prdig, s => printDigits s [s.opa.setWidth 4]
  | .prbcdi ps1, s => printDigits s (integerDigits (s.bytes ps1 (16 * s.cfg.w)))
  | .prbcdf ps1, s => printDigits s (fractionDigits (s.bytes ps1 (16 * s.cfg.w)))

/-- DIVS in the frame of every command; its effect there is a choice between two states. -/
theorem execDivs_eq_perform (rd L : Nat) (s : State) :
    execDivs rd L s = perform (.divs rd L) s fun u => divsInto u rd L := by
  unfold execDivs
  congr 1
  funext u
  unfold divsInto divsWords
  by_cases h : u.opa = 0
  · simp only [h, if_true]; rfl
  · simp only [h, if_false]; rfl

/-- Every command is its effect in the frame of 40_storage R100. -/
theorem exec_eq_perform_effectOf (i : Instr) (s : State) : exec i s = perform i s (effectOf i) := by
  cases i with
  | divs rd L => exact execDivs_eq_perform rd L s
  | _ => rfl

/-- Everything a command can do: take the fault of the first check that fails, else its effect (40_storage R100). -/
theorem exec_cases (i : Instr) (s t : State) (h : exec i s = .next t) :
    (∃ code, operandFault s.cfg i = some code ∧ t = raiseFault code (encode i) s) ∨
      (operandFault s.cfg i = none ∧ t = effectOf i s) := by
  rw [exec_eq_perform_effectOf] at h
  exact perform_cases i s t (effectOf i) h

/-! ### What the effect of a command leaves unchanged -/

@[simp] theorem effectOf_cfg (i : Instr) (s : State) : (effectOf i s).cfg = s.cfg := by cases i <;> rfl
@[simp] theorem effectOf_opa (i : Instr) (s : State) : (effectOf i s).opa = s.opa := by cases i <;> rfl
@[simp] theorem effectOf_fault (i : Instr) (s : State) : (effectOf i s).fault = s.fault := by cases i <;> rfl
@[simp] theorem effectOf_fcode (i : Instr) (s : State) : (effectOf i s).fcode = s.fcode := by cases i <;> rfl
@[simp] theorem effectOf_fcmd (i : Instr) (s : State) : (effectOf i s).fcmd = s.fcmd := by cases i <;> rfl
@[simp] theorem effectOf_pending (i : Instr) (s : State) : (effectOf i s).pending = s.pending := by cases i <;> rfl
@[simp] theorem effectOf_replies (i : Instr) (s : State) : (effectOf i s).replies = s.replies := by cases i <;> rfl

theorem effectOf_rf (i : Instr) (s : State) (h : storesToRf i = false) : (effectOf i s).rf = s.rf := by
  cases i with
  | getb | cmpge | prhex | prhexz | prdig | prbcdi | prbcdf => rfl
  | _ => cases h

theorem effectOf_res (i : Instr) (s : State) (h : writesRes i = false) : (effectOf i s).res = s.res := by
  cases i with
  | getb | muls | divs => cases h
  | _ => rfl

theorem effectOf_cf (i : Instr) (s : State) (h : writesCf i = false) : (effectOf i s).cf = s.cf := by
  cases i with
  | add | adc | sub | sbb | adds => cases h
  | _ => rfl

theorem effectOf_zf (i : Instr) (s : State) (h : writesZf i = false) : (effectOf i s).zf = s.zf := by
  cases i with
  | divs => cases h
  | _ => rfl

theorem effectOf_ge (i : Instr) (s : State) (h : writesGe i = false) : (effectOf i s).ge = s.ge := by
  cases i with
  | cmpge => cases h
  | _ => rfl

theorem effectOf_txt (i : Instr) (s : State) (h : printsText i = false) : (effectOf i s).txt = s.txt := by
  cases i with
  | prhex | prhexz | prdig | prbcdi | prbcdf => cases h
  | _ => rfl

theorem effectOf_col (i : Instr) (s : State) (h : countsColumns i = false) : (effectOf i s).col = s.col := by
  cases i with
  | prdig | prbcdi | prbcdf => cases h
  | _ => rfl

theorem effectOf_scratch (i : Instr) (s : State) (h : usesScratch i = false) : (effectOf i s).scratch = s.scratch := by
  cases i with
  | div | i2bcd | f2bcd => cases h
  | _ => rfl

theorem effectOf_draws (i : Instr) (s : State) (h : usesScratch i = false) : (effectOf i s).draws = s.draws := by
  cases i with
  | div | i2bcd | f2bcd => cases h
  | _ => rfl

/-! ### What the effect of a command writes -/

/-- `m'` is `m` with all the words of an operand's buffer written, or one byte of them. -/
def writesOperand (cfg : Config) (o : Operand) (m m' : Memory) : Prop :=
  (∃ ws, ws.length = o.extent ∧ m' = writeWords m (o.reg * cfg.w) ws) ∨
    ∃ k b, k < 8 * o.extent ∧ m' = writeByte m (physAddr cfg.w o.reg k) b

/-- A storing command writes inside its destination, the first of its operands (60_exceptions R183). -/
theorem effectOf_rf_of_stores (i : Instr) (s : State) (h : storesToRf i = true) :
    ∃ o ∈ operandsOf s.cfg i, writesOperand s.cfg o s.rf (effectOf i s).rf := by
  cases i with
  | getb | cmpge | prhex | prhexz | prdig | prbcdi | prbcdf => cases h
  | setb rd idx => exact ⟨_, List.mem_cons_self, .inr ⟨idx, _, by dsimp only; omega, rfl⟩⟩
  | _ => exact ⟨_, List.mem_cons_self, .inl ⟨_, by simp, rfl⟩⟩

/-- A command only adds at the end of TXT (10_state R40). -/
theorem effectOf_txt_appends (i : Instr) (s : State) : ∃ out, (effectOf i s).txt = s.txt ++ out := by
  cases hi : printsText i with
  | false => exact ⟨[], by rw [effectOf_txt i s hi, List.append_nil]⟩
  | true =>
    cases i with
    | prhex | prhexz | prdig | prbcdi | prbcdf => exact ⟨_, rfl⟩
    | _ => cases hi

/-- S keeps its W words: a command leaves it or fills it with W free ones (10_state R26). -/
theorem effectOf_scratch_length (i : Instr) (s : State) (h : s.scratch.length = s.cfg.w) :
    (effectOf i s).scratch.length = s.cfg.w := by
  cases hi : usesScratch i with
  | false => rw [effectOf_scratch i s hi, h]
  | true =>
    cases i with
    | div | i2bcd | f2bcd => simp [effectOf]
    | _ => cases hi

/-! ### What a host transaction can do -/

/-- Everything a write to CMD can do (10_state R35; 60_exceptions R182, R186): nothing while FAULT is 1, else the fault of the
word's first failing check, else the effect of the command it decodes to. -/
theorem issueCommand_cases (c : Word) (s t : State) (h : issueCommand c s = .next t) :
    (s.fault = true ∧ t = s) ∨
      (∃ code, s.fault = false ∧ wordFault s.cfg c = some code ∧ t = raiseFault code c s) ∨
      ∃ i, s.fault = false ∧ decode c = .ok i ∧ operandFault s.cfg i = none ∧ t = effectOf i s := by
  unfold issueCommand at h
  split at h
  case isTrue hf => cases h; exact .inl ⟨hf, rfl⟩
  case isFalse hf =>
    rw [Bool.not_eq_true] at hf
    cases hd : decode c with
    | error code =>
      rw [hd] at h; cases h
      exact .inr (.inl ⟨code, hf, by rw [wordFault, hd], rfl⟩)
    | ok i =>
      rw [hd] at h
      rcases exec_cases i s t h with ⟨code, hcode, rfl⟩ | ⟨hlegal, rfl⟩
      · exact .inr (.inl ⟨code, hf, by rw [wordFault_of_decode _ _ _ hd, hcode], by rw [encode_of_decode c i hd]⟩)
      · exact .inr (.inr ⟨i, hf, rfl, hlegal, rfl⟩)

/-- What a host transaction can do to the engine (10_state R34, R35; 20_memory R60). -/
inductive HostEffect (tr : HostTransaction) (s : State) : State → Prop where
  /-- A write to CMD. -/
  | command {t : State} (c : Word) (h : issueCommand c s = .next t) (htr : tr = .writeControl 0 c) : HostEffect tr s t
  /-- The reset event. -/
  | reset (htr : tr = .reset) : HostEffect tr s (resetEvent s)
  /-- A write of 1 to STATUS. -/
  | faultReturn : HostEffect tr s (faultReturn s)
  /-- A write of the word window or of the byte window, inside the register file. -/
  | window (p : Nat) (bs : List Byte) (h : p + bs.length ≤ s.cfg.nreg * (8 * s.cfg.w)) :
    HostEffect tr s { s with rf := writeRange s.rf p bs }
  /-- Any other access: only OPA, the flags, COL and the host's own record of replies may change. -/
  | registers (opa : Word) (cf zf ge : Bool) (col : BitVec 32) (replies : List Reply) :
    HostEffect tr s { s with opa := opa, cf := cf, zf := zf, ge := ge, col := col, replies := replies }

/-- A transaction that leaves the engine alone. -/
theorem HostEffect.same (tr : HostTransaction) (s : State) : HostEffect tr s s :=
  .registers s.opa s.cf s.zf s.ge s.col s.replies

/-- A transaction that returns a value to the host. -/
theorem HostEffect.reply (tr : HostTransaction) (s : State) (r : Reply) : HostEffect tr s (reply r s) :=
  .registers s.opa s.cf s.zf s.ge s.col (s.replies ++ [r])

theorem writeControl_effect (s t : State) :
    ∀ (n : Nat) (v : Word), writeControl n v s = .next t → HostEffect (.writeControl n v) s t
  | 0, v, h => .command v h rfl
  | 1, v, h => by cases h; exact .registers v s.cf s.zf s.ge s.col s.replies
  | 2, _, h | 5, _, h | 6, _, h => by cases h; exact .same _ s
  | 3, v, h => by cases h; exact .registers s.opa (v.getLsbD 0) (v.getLsbD 1) (v.getLsbD 2) s.col s.replies
  | 4, v, h => by
    cases h
    split
    · exact .faultReturn
    · exact .same _ s
  | 7, v, h => by cases h; exact .registers s.opa s.cf s.zf s.ge (v.setWidth 32) s.replies
  | _ + 8, _, h => by cases h

/-- Everything a host transaction can do. -/
theorem transact_effect (tr : HostTransaction) (s t : State) (h : transact tr s = .next t) : HostEffect tr s t := by
  cases tr with
  | writeControl n v => exact writeControl_effect s t n v h
  | readControl n =>
    simp only [transact] at h
    split at h
    · cases h; exact .reply _ s _
    · cases h
  | writeWord a v =>
    simp only [transact] at h
    split at h
    case isTrue ha =>
      cases h
      refine .window (8 * a) (valueBytes 8 v.toNat) ?_
      rw [wordInWindow, decide_eq_true_eq] at ha
      rw [length_valueBytes, Nat.mul_left_comm]
      omega
    case isFalse => cases h
  | writeByte p b =>
    simp only [transact] at h
    split at h
    case isTrue hp =>
      cases h
      refine .window p [b] ?_
      rw [byteInWindow, decide_eq_true_eq] at hp
      exact hp
    case isFalse => cases h
  | readWord a | readByte a =>
    simp only [transact] at h
    split at h
    · cases h; exact .reply _ s _
    · cases h
  | reset => cases h; exact .reset rfl

/-- A step does nothing or performs the host's next transaction (00_scope R7). -/
theorem step_cases (s t : State) (h : step s = .next t) :
    (s.pending = [] ∧ t = s) ∨
      ∃ tr rest, s.pending = tr :: rest ∧ HostEffect tr { s with pending := rest } t := by
  cases hp : s.pending with
  | nil =>
    rw [step_of_pending_nil s hp] at h
    cases h
    exact .inl ⟨rfl, rfl⟩
  | cons tr rest =>
    rw [step_of_pending_cons s tr rest hp] at h
    exact .inr ⟨tr, rest, rfl, transact_effect tr _ t h⟩

/-! ### The invariant: the register file -/

/-- The register file is canonical and lists no address outside it, as `State.Inv` asks (10_state R20). -/
def rfInside (cfg : Config) (m : Memory) : Prop :=
  Memory.wf m ∧ ∀ c ∈ m, c.1 < cfg.nreg * (8 * cfg.w)

theorem nil_rfInside (cfg : Config) : rfInside cfg [] := ⟨⟨List.Pairwise.nil, by simp⟩, by simp⟩

theorem writeRange_rfInside (cfg : Config) (m : Memory) (p : Nat) (bs : List Byte) (h : rfInside cfg m)
    (hp : p + bs.length ≤ cfg.nreg * (8 * cfg.w)) : rfInside cfg (writeRange m p bs) := by
  obtain ⟨hwf, hlt⟩ := h
  refine ⟨writeRange_wf m hwf p bs, fun c hc => ?_⟩
  rcases writeRange_addresses m p bs c hc with hold | ⟨-, hnew⟩
  · exact hlt c hold
  · omega

theorem writeWords_rfInside (cfg : Config) (m : Memory) (a : Nat) (ws : List Word) (h : rfInside cfg m)
    (ha : a + ws.length ≤ cfg.nreg * cfg.w) : rfInside cfg (writeWords m a ws) := by
  refine writeRange_rfInside cfg m _ _ h ?_
  rw [length_wordBytes, Nat.mul_left_comm]
  omega

/-- A write inside an operand that exists stays inside the register file (60_exceptions R183). -/
theorem writesOperand_rfInside (cfg : Config) (o : Operand) (m m' : Memory) (h : rfInside cfg m)
    (ho : operandExists cfg o = true) (hw : writesOperand cfg o m m') : rfInside cfg m' := by
  obtain ⟨-, hext⟩ := (operandExists_iff cfg o).1 ho
  rcases hw with ⟨ws, hlen, rfl⟩ | ⟨k, b, hk, rfl⟩
  · exact writeWords_rfInside cfg m _ ws h (by rw [hlen]; exact hext)
  · refine writeRange_rfInside cfg m _ [b] h ?_
    rw [physAddr_eq, List.length_singleton, Nat.mul_left_comm]
    omega

/-- A command whose checks pass keeps the register file in form and within its bounds. -/
theorem effectOf_rfInside (i : Instr) (s : State) (hlegal : operandFault s.cfg i = none) (h : rfInside s.cfg s.rf) :
    rfInside s.cfg (effectOf i s).rf := by
  cases hi : storesToRf i with
  | false => rwa [effectOf_rf i s hi]
  | true =>
    obtain ⟨-, hall, -⟩ := (operandFault_eq_none_iff s.cfg i).1 hlegal
    obtain ⟨o, ho, hw⟩ := effectOf_rf_of_stores i s hi
    exact writesOperand_rfInside s.cfg o s.rf _ h (List.all_eq_true.1 hall o ho) hw

/-! ### The invariant: the fault record -/

/-- The fault record is empty while FAULT is 0 and else that of the word it names, as `State.Inv` asks (10_state R36, R37). -/
def recordHolds (s : State) : Prop :=
  (s.fault = false → s.fcode = 0 ∧ s.fcmd = 0) ∧
    (s.fault = true → ∃ code, wordFault s.cfg s.fcmd = some code ∧ s.fcode = faultByte code)

theorem inv_iff (s : State) :
    s.Inv ↔ s.cfg.valid ∧ rfInside s.cfg s.rf ∧ s.scratch.length = s.cfg.w ∧ recordHolds s := by
  unfold State.Inv rfInside recordHolds
  simp only [and_assoc]

/-- A record cleared, or empty and left alone, is a record that holds. -/
theorem recordHolds_of_empty (s : State) (hf : s.fault = false) (hcode : s.fcode = 0) (hcmd : s.fcmd = 0) :
    recordHolds s :=
  ⟨fun _ => ⟨hcode, hcmd⟩, fun h => by rw [hf] at h; cases h⟩

theorem recordHolds_raiseFault (code : FaultCode) (c : Word) (s : State) (h : wordFault s.cfg c = some code) :
    recordHolds (raiseFault code c s) :=
  ⟨fun hf => Bool.noConfusion hf, fun _ => ⟨code, h, rfl⟩⟩

theorem recordHolds_effectOf (i : Instr) (s : State) (h : recordHolds s) : recordHolds (effectOf i s) := by
  simpa [recordHolds] using h

theorem recordHolds_faultReturn (s : State) (h : recordHolds s) : recordHolds (faultReturn s) := by
  obtain ⟨hempty, -⟩ := h
  apply recordHolds_of_empty _ (faultReturn_fault s)
  · rw [faultReturn_fcode]; split
    · rfl
    · next hf => exact (hempty (by simpa using hf)).1
  · rw [faultReturn_fcmd]; split
    · rfl
    · next hf => exact (hempty (by simpa using hf)).2

/-! ### The invariant is kept -/

theorem inv_resetOf (cfg : Config) (h : cfg.valid) : (State.resetOf cfg).Inv :=
  (inv_iff _).2 ⟨h, nil_rfInside cfg, by simp, recordHolds_of_empty _ rfl rfl rfl⟩

theorem issueCommand_keeps_inv (c : Word) (s t : State) (hinv : s.Inv) (h : issueCommand c s = .next t) : t.Inv := by
  obtain ⟨hcfg, hrf, hscratch, hrec⟩ := (inv_iff s).1 hinv
  rcases issueCommand_cases c s t h with ⟨-, rfl⟩ | ⟨code, -, hcode, rfl⟩ | ⟨i, -, -, hlegal, rfl⟩
  · exact hinv
  · exact (inv_iff _).2 ⟨hcfg, hrf, hscratch, recordHolds_raiseFault code c s hcode⟩
  · rw [inv_iff, effectOf_cfg]
    exact ⟨hcfg, effectOf_rfInside i s hlegal hrf, effectOf_scratch_length i s hscratch, recordHolds_effectOf i s hrec⟩

theorem resetEvent_keeps_inv (s : State) (hinv : s.Inv) : (resetEvent s).Inv := by
  obtain ⟨hcfg, -, -, -⟩ := (inv_iff s).1 hinv
  have hrf : rfInside s.cfg (resetEvent s).rf :=
    writeWords_rfInside s.cfg [] 0 _ (nil_rfInside s.cfg) (by simp)
  exact (inv_iff _).2 ⟨hcfg, hrf, by simp, recordHolds_of_empty _ rfl rfl rfl⟩

theorem hostEffect_keeps_inv (tr : HostTransaction) (s t : State) (hinv : s.Inv) (h : HostEffect tr s t) : t.Inv := by
  obtain ⟨hcfg, hrf, hscratch, hrec⟩ := (inv_iff s).1 hinv
  cases h with
  | command c h => exact issueCommand_keeps_inv c s t hinv h
  | reset => exact resetEvent_keeps_inv s hinv
  | faultReturn =>
    rw [inv_iff, faultReturn_cfg, faultReturn_rf, faultReturn_scratch]
    exact ⟨hcfg, hrf, hscratch, recordHolds_faultReturn s hrec⟩
  | window p bs hp => exact (inv_iff _).2 ⟨hcfg, writeRange_rfInside s.cfg s.rf p bs hrf hp, hscratch, hrec⟩
  | registers => exact hinv

/-- Settles O54: each way a step can change the state keeps the invariant, which does not speak of the host's list. -/
theorem everyStepKeepsTheInvariant : Obligations.EveryStepKeepsTheInvariant := by
  intro s t hinv hstep
  rcases step_cases s t hstep with ⟨-, rfl⟩ | ⟨tr, rest, -, heff⟩
  · exact hinv
  · exact hostEffect_keeps_inv tr { s with pending := rest } t hinv heff

/-! ### S is not observable -/

/-- The same state with other words in S. -/
def State.withScratch (s : State) (x : List Word) : State := { s with scratch := x }

/-- Two steps end alike: in states that differ in S only, or in the same stop (10_state R26). No refusal is alike to anything. -/
inductive OutcomesAlike : Host.Outcome State Fault Refusal → Host.Outcome State Fault Refusal → Prop where
  | next (t : State) (y : List Word) : OutcomesAlike (.next t) (.next (t.withScratch y))
  | fault (f : Fault) : OutcomesAlike (.fault f) (.fault f)

/-- No effect reads S: with other words in it a command does the same, and those that use S overwrite it (10_state R26). -/
theorem effectOf_withScratch (i : Instr) (s : State) (x : List Word) :
    effectOf i (s.withScratch x) =
      (effectOf i s).withScratch (if usesScratch i then (effectOf i s).scratch else x) := by
  cases i <;> rfl

theorem faultReturn_withScratch (s : State) (x : List Word) :
    faultReturn (s.withScratch x) = (faultReturn s).withScratch x := by
  cases hf : s.fault <;> simp [faultReturn, State.withScratch, hf]

/-- No control register shows S. -/
theorem controlValue_withScratch (n : Nat) (s : State) (x : List Word) :
    controlValue n (s.withScratch x) = controlValue n s := rfl

theorem exec_alike (i : Instr) (s : State) (x : List Word) : OutcomesAlike (exec i s) (exec i (s.withScratch x)) := by
  rw [exec_eq_perform_effectOf, exec_eq_perform_effectOf]
  cases hf : operandFault s.cfg i with
  | some code =>
    rw [perform_of_fault i s _ code hf, perform_of_fault i (s.withScratch x) _ code hf]
    exact .next (raiseFault code (encode i) s) x
  | none =>
    rw [perform_of_legal i s _ hf, perform_of_legal i (s.withScratch x) _ hf, effectOf_withScratch]
    exact .next (effectOf i s) _

theorem issueCommand_alike (c : Word) (s : State) (x : List Word) :
    OutcomesAlike (issueCommand c s) (issueCommand c (s.withScratch x)) := by
  simp only [issueCommand]
  show OutcomesAlike _ (if s.fault = true then _ else _)
  split
  · exact .next s x
  · cases decode c with
    | error code => exact .next (raiseFault code c s) x
    | ok i => exact exec_alike i s x

theorem writeControl_alike (s : State) (x : List Word) :
    ∀ (n : Nat) (v : Word), OutcomesAlike (writeControl n v s) (writeControl n v (s.withScratch x))
  | 0, c => issueCommand_alike c s x
  | 1, v => .next { s with opa := v } x
  | 2, _ | 5, _ | 6, _ => .next s x
  | 3, v => .next (setFlags v s) x
  | 4, v => by
    simp only [writeControl, faultReturn_withScratch]
    split
    · exact .next (faultReturn s) x
    · exact .next s x
  | 7, v => .next { s with col := v.setWidth 32 } x
  | _ + 8, _ => .fault .noSuchControlRegister

theorem transact_alike (tr : HostTransaction) (s : State) (x : List Word) :
    OutcomesAlike (transact tr s) (transact tr (s.withScratch x)) := by
  cases tr with
  | writeControl n v => exact writeControl_alike s x n v
  | readControl n =>
    simp only [transact, controlValue_withScratch]
    cases controlValue n s with
    | some v => exact .next (reply (.word v) s) x
    | none => exact .fault _
  | writeWord a v =>
    simp only [transact]
    show OutcomesAlike _ (if wordInWindow s.cfg a then _ else _)
    split
    · exact .next { s with rf := writeWord s.rf a v } x
    · exact .fault _
  | readWord a =>
    simp only [transact]
    show OutcomesAlike _ (if wordInWindow s.cfg a then _ else _)
    split
    · exact .next (reply (.word (readWord s.rf a)) s) x
    · exact .fault _
  | writeByte p b =>
    simp only [transact]
    show OutcomesAlike _ (if byteInWindow s.cfg p then _ else _)
    split
    · exact .next { s with rf := writeByte s.rf p b } x
    · exact .fault _
  | readByte p =>
    simp only [transact]
    show OutcomesAlike _ (if byteInWindow s.cfg p then _ else _)
    split
    · exact .next (reply (.byte (readByte s.rf p)) s) x
    · exact .fault _
  | reset => exact .next (resetEvent s) (resetEvent s).scratch

theorem step_alike (s : State) (x : List Word) : OutcomesAlike (step s) (step (s.withScratch x)) := by
  cases hp : s.pending with
  | nil =>
    rw [step_of_pending_nil s hp, step_of_pending_nil (s.withScratch x) hp]
    exact .next s x
  | cons tr rest =>
    rw [step_of_pending_cons s tr rest hp, step_of_pending_cons (s.withScratch x) tr rest hp]
    exact transact_alike tr { s with pending := rest } x

/-- Settles O56: the two steps end alike. -/
theorem scratchIsNotObservable : Obligations.ScratchIsNotObservable := by
  intro s x
  have halike : OutcomesAlike (step s) (step { s with scratch := x }) := step_alike s x
  generalize step s = o, step { s with scratch := x } = o' at halike
  cases halike with
  | next t y =>
    refine ⟨fun u hu => ?_, fun f hf => ?_, fun f hf => ?_⟩
    · cases hu; exact ⟨y, rfl⟩
    · cases hf
    · cases hf
  | fault f =>
    refine ⟨fun u hu => ?_, fun g hg => hg, fun g hg => ?_⟩
    · cases hu
    · cases hg

/-! ### Which command writes what -/

/-- Settles O57: taking a fault writes the fault record only, and an effect writes what its rule names. -/
theorem commandsWriteOnlyTheirState : Obligations.CommandsWriteOnlyTheirState := by
  intro i s t h
  rcases exec_cases i s t h with ⟨code, -, rfl⟩ | ⟨-, rfl⟩
  · simp
  · exact ⟨effectOf_cfg i s, effectOf_opa i s, effectOf_pending i s, effectOf_replies i s, effectOf_rf i s, effectOf_res i s,
      effectOf_cf i s, effectOf_zf i s, effectOf_ge i s, effectOf_txt i s, effectOf_col i s,
      fun hi => ⟨effectOf_scratch i s hi, effectOf_draws i s hi⟩⟩

/-! ### TXT -/

theorem issueCommand_txt_appends (c : Word) (s t : State) (h : issueCommand c s = .next t) :
    ∃ out, t.txt = s.txt ++ out := by
  rcases issueCommand_cases c s t h with ⟨-, rfl⟩ | ⟨code, -, -, rfl⟩ | ⟨i, -, -, -, rfl⟩
  · exact ⟨[], (List.append_nil _).symm⟩
  · exact ⟨[], (List.append_nil _).symm⟩
  · exact effectOf_txt_appends i s

theorem hostEffect_txt_appends (tr : HostTransaction) (s t : State) (htr : tr ≠ .reset) (h : HostEffect tr s t) :
    ∃ out, t.txt = s.txt ++ out := by
  cases h with
  | command c h => exact issueCommand_txt_appends c s t h
  | reset hreset => exact absurd hreset htr
  | faultReturn => exact ⟨[], by simp⟩
  | window | registers => exact ⟨[], (List.append_nil _).symm⟩

/-- Settles O58. -/
theorem textIsAppendOnly : Obligations.TextIsAppendOnly := by
  intro s t h
  cases hp : s.pending with
  | nil =>
    rw [step_of_pending_nil s hp] at h
    cases h
    exact ⟨fun _ => ⟨[], (List.append_nil _).symm⟩, fun hr => by cases hr⟩
  | cons tr rest =>
    rw [step_of_pending_cons s tr rest hp] at h
    refine ⟨fun hne => ?_, fun hr => ?_⟩
    · exact hostEffect_txt_appends tr { s with pending := rest } t (fun e => hne (by rw [e]; rfl)) (transact_effect tr _ t h)
    · obtain rfl : tr = .reset := by simpa using hr
      cases h
      rfl

/-! ### The write to CMD -/

/-- With FAULT 0, a write to CMD of a word that decodes is its command's transition (10_state R35). -/
theorem issueCommand_of_decode (c : Word) (i : Instr) (s : State) (hf : s.fault = false) (hd : decode c = .ok i) :
    issueCommand c s = exec i s := by
  simp [issueCommand, hf, hd]

/-- The hook's next step is the write of its word, on the state with no fault pending (log entry 10). -/
theorem step_withCommandNext (c : Word) (s : State) : step (withCommandNext c s) = issueCommand c (faultReturn s) := by
  rw [step_of_pending_cons (withCommandNext c s) (.writeControl 0 c) s.pending rfl]
  have hsame : { withCommandNext c s with pending := s.pending } = faultReturn s := by
    rw [withCommandNext, ← faultReturn_pending s]
  rw [hsame]
  rfl

theorem decode_of_decodeTableWord (nbits w : Nat) (i : Instr) (h : decodeTableWord nbits w = some i) :
    decode (tableWord nbits w) = .ok i := by
  unfold decodeTableWord at h
  split at h
  · next hd => cases h; exact hd
  · cases h

/-- Settles O5. -/
theorem stepRunsTheDecodedCommand : Obligations.StepRunsTheDecodedCommand := by
  constructor
  · intro s c rest i hp hf hd
    rw [step_of_pending_cons s _ rest hp]
    exact issueCommand_of_decode c i { s with pending := rest } hf hd
  · intro s nbits w i h
    rw [State.withFetchWord, step_withCommandNext]
    exact issueCommand_of_decode _ i _ (faultReturn_fault s) (decode_of_decodeTableWord nbits w i h)

/-! ### The control registers -/

/-- FLAGS reads back the three flag bits of the word written (10_state R30). -/
theorem flagsWord_setFlags (v : Word) (s : State) : flagsWord (setFlags v s) = v &&& 7#64 := by
  apply BitVec.eq_of_toNat_eq
  have hmask : (v &&& 7#64).toNat = v.toNat % 2 ^ 3 := by
    rw [BitVec.toNat_and]; exact Nat.and_two_pow_sub_one_eq_mod v.toNat 3
  have hbit : ∀ k, (v.getLsbD k).toNat = v.toNat / 2 ^ k % 2 := fun k => by
    rw [BitVec.getLsbD, Nat.toNat_testBit]
  rw [hmask, flagsWord, setFlags_cf, setFlags_zf, setFlags_ge, hbit, hbit, hbit, BitVec.toNat_ofNat]
  omega

/-- COL reads back the low 32 bits of the word written (10_state R39). -/
theorem setWidth_setWidth_eq_and (v : Word) : (v.setWidth 32).setWidth 64 = v &&& 0xFFFFFFFF#64 := by
  apply BitVec.eq_of_toNat_eq
  have hmask : (v &&& 0xFFFFFFFF#64).toNat = v.toNat % 2 ^ 32 := by
    rw [BitVec.toNat_and]; exact Nat.and_two_pow_sub_one_eq_mod v.toNat 32
  rw [hmask, BitVec.toNat_setWidth, BitVec.toNat_setWidth]
  omega

/-- A field of a word, read off the word's number. -/
theorem extractLsb'_eq {start len : Nat} (x : Word) (y : BitVec len) (h : x.toNat / 2 ^ start % 2 ^ len = y.toNat) :
    x.extractLsb' start len = y := by
  apply BitVec.eq_of_toNat_eq
  rw [BitVec.extractLsb'_toNat, Nat.shiftRight_eq_div_pow, h]

theorem statusWord_toNat (s : State) : (statusWord s).toNat = s.fault.toNat + 2 ^ 8 * s.fcode.toNat := by
  have hcode := s.fcode.isLt
  have hfault := Bool.toNat_le s.fault
  rw [statusWord, BitVec.toNat_ofNat]
  omega

/-- The fields of STATUS: FAULT in bit 0, FCODE in bits 15:8, the reserved bits 0 (10_state R36). -/
theorem statusWord_fields (s : State) :
    (statusWord s).getLsbD 0 = s.fault ∧ (statusWord s).extractLsb' 8 8 = s.fcode ∧
      (statusWord s).extractLsb' 1 7 = 0 ∧ (statusWord s).extractLsb' 16 48 = 0 := by
  have hcode := s.fcode.isLt
  have hfault := Bool.toNat_le s.fault
  have hval := statusWord_toNat s
  refine ⟨?_, extractLsb'_eq _ _ ?_, extractLsb'_eq _ _ ?_, extractLsb'_eq _ _ ?_⟩
  · have hbit : (s.fault.toNat + 2 ^ 8 * s.fcode.toNat) % 2 = s.fault.toNat := by omega
    rw [BitVec.getLsbD, hval, Nat.testBit_zero, hbit]
    cases s.fault <;> rfl
  · omega
  · show _ = 0; omega
  · show _ = 0; omega

theorem configWord_toNat (cfg : Config) (h : cfg.valid) : (configWord cfg).toNat = cfg.w + 2 ^ 32 * cfg.nreg := by
  obtain ⟨⟨-, hw⟩, ⟨-, hnreg⟩, -⟩ := h
  rw [configWord, BitVec.toNat_ofNat]
  omega

/-- The fields of CONFIG, for parameters in range: W, NREG, and the reserved bits 0 (10_state R38). -/
theorem configWord_fields (cfg : Config) (h : cfg.valid) :
    ((configWord cfg).extractLsb' 0 32).toNat = cfg.w ∧ ((configWord cfg).extractLsb' 32 16).toNat = cfg.nreg ∧
      (configWord cfg).extractLsb' 48 16 = 0 := by
  have hval := configWord_toNat cfg h
  obtain ⟨⟨-, hw⟩, ⟨-, hnreg⟩, -⟩ := h
  refine ⟨?_, ?_, extractLsb'_eq _ _ ?_⟩
  · rw [BitVec.extractLsb'_toNat, hval, Nat.shiftRight_eq_div_pow]; omega
  · rw [BitVec.extractLsb'_toNat, hval, Nat.shiftRight_eq_div_pow]; omega
  · show _ = 0; omega

/-- Reading a control register returns its value and leaves the engine as it is (10_state R34). -/
theorem transact_readControl (n : Nat) (s : State) (x : Word) (h : controlValue n s = some x) :
    transact (.readControl n) s = .next (reply (.word x) s) := by
  simp [transact, h]

/-- Control registers 0 to 7 exist (10_state R34). -/
theorem controlValue_exists (s : State) : ∀ n < 8, ∃ x, controlValue n s = some x
  | 0, _ | 1, _ | 2, _ | 3, _ | 4, _ | 5, _ | 6, _ | 7, _ => ⟨_, rfl⟩
  | _ + 8, h => absurd h (by omega)

/-- Settles O14. -/
theorem controlRegistersReadAndWrite : Obligations.ControlRegistersReadAndWrite := by
  intro s v hcfg
  refine ⟨⟨_, rfl, rfl, rfl⟩, ⟨_, rfl, congrArg some (flagsWord_setFlags v s), rfl⟩,
    ⟨_, rfl, congrArg some (setWidth_setWidth_eq_and v), rfl⟩, ⟨rfl, rfl, rfl⟩, ⟨rfl, rfl, rfl⟩,
    ⟨_, rfl, statusWord_fields s⟩, ⟨_, rfl, configWord_fields s.cfg hcfg⟩, fun n hn => ?_⟩
  obtain ⟨x, hx⟩ := controlValue_exists s n hn
  exact ⟨x, hx, transact_readControl n s x hx⟩

/-! ### The state after reset -/

/-- Settles O55: the reference parameters are in range, and HS1 and HS2 are read off the state. -/
theorem resetStateMeetsTheInvariant : Obligations.ResetStateMeetsTheInvariant :=
  ⟨inv_resetOf Config.reference (by decide), rfl, by decide, by decide⟩

end Sys2Proof.Machine
end

section
/-! PROOFS. The family 20_memory: the host's windows onto the register file, and the logical bytes of a buffer as the digits of its
value. -/

namespace Sys2Proof.Machine

/-! ### The byte lanes of a word -/

/-- Byte lane k of a word, as a number's base-256 digit and as a field of bits (20_memory R51). -/
theorem ofNat_div_eq_extractLsb' (x : Word) (k : Nat) : BitVec.ofNat 8 (x.toNat / 256 ^ k) = x.extractLsb' (8 * k) 8 := by
  symm
  apply extractLsb'_eq
  rw [BitVec.toNat_ofNat, Nat.pow_mul]

/-- The byte at physical address p is bits `8*(p&7)+7 : 8*(p&7)` of `RF[p >> 3]` (20_memory R51). -/
theorem readByte_eq_extractLsb' (m : Memory) (p : Nat) :
    readByte m p = (readWord m (p / 8)).extractLsb' (8 * (p % 8)) 8 := by
  have hbyte := readByte_eq_readWord m (p / 8) (p % 8) (by omega)
  rwa [Nat.div_add_mod, ofNat_div_eq_extractLsb'] at hbyte

/-- Bit j of a word is bit `j mod 8` of the byte in lane `j / 8` (20_memory R51). -/
theorem getLsbD_readWord (m : Memory) (a j : Nat) (hj : j < 64) :
    (readWord m a).getLsbD j = (readByte m (8 * a + j / 8)).getLsbD (j % 8) := by
  have hword : (8 * a + j / 8) / 8 = a := by omega
  have hlane : (8 * a + j / 8) % 8 = j / 8 := by omega
  have hbit : j % 8 < 8 := by omega
  rw [readByte_eq_extractLsb', hword, hlane, BitVec.getLsbD_extractLsb', Nat.div_add_mod, decide_eq_true hbit, Bool.true_and]

/-! ### Words after a byte is written -/

theorem readWord_writeByte_of_ne (m : Memory) (p a : Nat) (b : Byte) (h : a ≠ p / 8) :
    readWord (writeByte m p b) a = readWord m a :=
  readWord_congr _ _ _ _ fun k hk => by rw [readByte_writeByte, if_neg (by omega)]

/-- A byte written replaces its lane of its word and no other bit (20_memory R57). -/
theorem getLsbD_readWord_writeByte (m : Memory) (p j : Nat) (b : Byte) (hj : j < 64) :
    (readWord (writeByte m p b) (p / 8)).getLsbD j =
      if j / 8 = p % 8 then b.getLsbD (j % 8) else (readWord m (p / 8)).getLsbD j := by
  have hlane : 8 * (p / 8) + j / 8 = p ↔ j / 8 = p % 8 := by omega
  rw [getLsbD_readWord _ _ _ hj, getLsbD_readWord _ _ _ hj, readByte_writeByte]
  simp only [hlane]
  split <;> rfl

/-! ### The word window and the byte window inside the register file -/

theorem transact_writeWord (s : State) (a : Nat) (v : Word) (h : a < s.cfg.nreg * s.cfg.w) :
    transact (.writeWord a v) s = .next { s with rf := writeWord s.rf a v } := by
  simp [transact, wordInWindow, h]

theorem transact_readWord (s : State) (a : Nat) (h : a < s.cfg.nreg * s.cfg.w) :
    transact (.readWord a) s = .next (reply (.word (readWord s.rf a)) s) := by
  simp [transact, wordInWindow, h]

theorem transact_writeByte (s : State) (p : Nat) (b : Byte) (h : p < s.cfg.nreg * (8 * s.cfg.w)) :
    transact (.writeByte p b) s = .next { s with rf := writeByte s.rf p b } := by
  simp [transact, byteInWindow, h]

theorem transact_readByte (s : State) (p : Nat) (h : p < s.cfg.nreg * (8 * s.cfg.w)) :
    transact (.readByte p) s = .next (reply (.byte (readByte s.rf p)) s) := by
  simp [transact, byteInWindow, h]

/-- Settles O15. -/
theorem hostWindowsReadAndWrite : Obligations.HostWindowsReadAndWrite := by
  intro s
  refine ⟨fun a v ha => ⟨⟨_, transact_writeWord s a v ha, rfl, fun c => ?_⟩, transact_readWord s a ha⟩,
    fun p b hp => ⟨⟨_, transact_writeByte s p b hp, rfl, fun a ha => ?_, fun j hj => ?_⟩, transact_readByte s p hp⟩,
    readByte_eq_extractLsb' s.rf⟩
  · exact readWord_writeWord s.rf a c v
  · exact readWord_writeByte_of_ne s.rf p a b ha
  · exact getLsbD_readWord_writeByte s.rf p j b hj

/-! ### Logical bytes as digits -/

/-- The n low base-256 digits of a number, weighted, are its residue. -/
theorem sum_digits_eq_mod (v n : Nat) : ∑ k ∈ Finset.range n, v / 256 ^ k % 256 * 256 ^ k = v % 256 ^ n := by
  induction n with
  | zero => simp [Nat.mod_one]
  | succ n ih => rw [Finset.sum_range_succ, ih, Nat.mod_pow_succ, Nat.mul_comm]

/-- Digit k of word m of a number, counted from the least significant word, is its base-256 digit `8m + k`. -/
theorem word_digit_eq_digit (v m k : Nat) (hk : k < 8) :
    v / 2 ^ (64 * m) % 2 ^ 64 / 256 ^ k % 256 = v / 256 ^ (8 * m + k) % 256 := by
  have hwords : (2 : Nat) ^ (64 * m) = 256 ^ (8 * m) := by
    rw [show 64 * m = 8 * (8 * m) by omega, Nat.pow_mul]
  have hword : (2 : Nat) ^ 64 = 256 ^ k * 256 ^ (8 - k) := by
    rw [← Nat.pow_add, Nat.add_sub_cancel' hk.le]; norm_num
  have hdvd : 256 ∣ 256 ^ (8 - k) := dvd_pow_self 256 (by omega)
  rw [hwords, hword, Nat.mod_mul_right_div_self, Nat.mod_mod_of_dvd _ hdvd, Nat.div_div_eq_div_mul, ← Nat.pow_add]

/-- Logical byte i is a field of its word, the most significant byte of each word first (20_memory R53). -/
theorem byte_eq_extractLsb' (s : State) (r i : Nat) :
    s.byte r i = (s.word r (i / 8)).extractLsb' (56 - 8 * (i % 8)) 8 := by
  have hlane : 56 - 8 * (i % 8) = 8 * (7 - i % 8) := by omega
  rw [byte_eq_word, ofNat_div_eq_extractLsb', hlane]

/-- Logical byte i of an L-word buffer is a base-256 digit of its value, the most significant first (20_memory R53). -/
theorem byte_toNat_eq_digit (s : State) (r L i : Nat) (h : i < 8 * L) :
    (s.byte r i).toNat = s.val r L / 256 ^ (8 * L - 1 - i) % 256 := by
  have hplace : 8 * (L - 1 - i / 8) + (7 - i % 8) = 8 * L - 1 - i := by omega
  rw [byte_eq_word, BitVec.toNat_ofNat, word_toNat s r L (i / 8) (by omega)]
  exact (word_digit_eq_digit _ _ _ (by omega)).trans (by rw [hplace])

theorem val_lt_pow_256 (s : State) (r L : Nat) : s.val r L < 256 ^ (8 * L) := by
  have hlt := val_lt s r L
  rwa [show 64 * L = 8 * (8 * L) by omega, Nat.pow_mul] at hlt

/-- The value of a buffer is its logical bytes in base 256 (20_memory R53). -/
theorem val_eq_sum_bytes (s : State) (r L : Nat) :
    s.val r L = ∑ i ∈ Finset.range (8 * L), (s.byte r i).toNat * 256 ^ (8 * L - 1 - i) := by
  calc s.val r L
      = s.val r L % 256 ^ (8 * L) := (Nat.mod_eq_of_lt (val_lt_pow_256 s r L)).symm
    _ = ∑ k ∈ Finset.range (8 * L), s.val r L / 256 ^ k % 256 * 256 ^ k := (sum_digits_eq_mod _ _).symm
    _ = ∑ i ∈ Finset.range (8 * L), s.val r L / 256 ^ (8 * L - 1 - i) % 256 * 256 ^ (8 * L - 1 - i) :=
        (Finset.sum_range_reflect (fun k => s.val r L / 256 ^ k % 256 * 256 ^ k) (8 * L)).symm
    _ = ∑ i ∈ Finset.range (8 * L), (s.byte r i).toNat * 256 ^ (8 * L - 1 - i) :=
        Finset.sum_congr rfl fun i hi => by rw [byte_toNat_eq_digit s r L i (Finset.mem_range.1 hi)]

/-- Settles O17. -/
theorem logicalBytesAreTheValuesDigits : Obligations.LogicalBytesAreTheValuesDigits :=
  ⟨byte_eq_extractLsb', val_eq_sum_bytes⟩

end Sys2Proof.Machine
end

section
/-! PROOFS. The family 30_encoding: the encoder and the decoder are inverse to each other, and the decoder is the opcode
table's match and mask pairs. -/

namespace Sys2Proof

/-! ### Round trips -/

/-- The fields of a well-formed command fit the command word (30_encoding R71 to R73). -/
theorem fieldsFor_inRange (i : Instr) (h : wellFormed i = true) : (fieldsFor i).inRange := by
  cases i with
  | set rd b => exact Laws.FieldsFit.set rd b h
  | mov rd rs1 => exact Laws.FieldsFit.mov rd rs1 h
  | getb rs1 idx => exact Laws.FieldsFit.getb rs1 idx h
  | setb rd idx => exact Laws.FieldsFit.setb rd idx h
  | shw rd rs1 n => exact Laws.FieldsFit.shw rd rs1 n h
  | add rd rs1 len => exact Laws.FieldsFit.add rd rs1 len h
  | adc rd rs1 len => exact Laws.FieldsFit.adc rd rs1 len h
  | sub rd rs1 len => exact Laws.FieldsFit.sub rd rs1 len h
  | sbb rd rs1 len => exact Laws.FieldsFit.sbb rd rs1 len h
  | adds rd idx => exact Laws.FieldsFit.adds rd idx h
  | cmpge rs1 rs2 => exact Laws.FieldsFit.cmpge rs1 rs2 h
  | muls rd len => exact Laws.FieldsFit.muls rd len h
  | mul pd rs1 rs2 => exact Laws.FieldsFit.mul pd rs1 rs2 h
  | divs rd len => exact Laws.FieldsFit.divs rd len h
  | div pd rs1 rs2 => exact Laws.FieldsFit.div pd rs1 rs2 h
  | i2bcd pd rs1 => exact Laws.FieldsFit.i2bcd pd rs1 h
  | f2bcd pd rs1 => exact Laws.FieldsFit.f2bcd pd rs1 h
  | prhex rs1 lenBytes => exact Laws.FieldsFit.prhex rs1 lenBytes h
  | prhexz rs1 lenBytes => exact Laws.FieldsFit.prhexz rs1 lenBytes h
  | prdig => exact Laws.FieldsFit.prdig h
  | prbcdi ps1 => exact Laws.FieldsFit.prbcdi ps1 h
  | prbcdf ps1 => exact Laws.FieldsFit.prbcdf ps1 h

/-- A command is read back from its fields. Two operands are not held in a field as they are: SET's byte, above which
the field is reserved, and SHW's signed count (30_encoding R73). -/
theorem commandOf_fieldsFor (i : Instr) (h : wellFormed i = true) : commandOf (fieldsFor i) = .ok i := by
  cases i with
  | set rd b =>
    have hhigh : bitField b.toNat 31 8 = 0 := by have := b.isLt; unfold bitField; omega
    simp [fieldsFor, commandOf, ifReservedZero, unusedZero, hhigh]
  | shw rd rs1 n =>
    have hn : shiftFits n = true := (Bool.and_eq_true_iff.1 h).2
    simp [fieldsFor, commandOf, ifReservedZero, unusedZero, sext32_wrap32 n hn]
  | _ => rfl

/-- Settles O1: the word keeps the fields, and the fields keep the command. -/
theorem decodeOfEncodeIsTheCommand : Obligations.DecodeOfEncodeIsTheCommand := by
  intro i h
  rw [decode, encode, fieldsOf_pack _ (fieldsFor_inRange i h), commandOf_fieldsFor i h]

/-- Fields in range hold operands in range. -/
theorem wellFormed_of_commandOf (f : Fields) (i : Instr) (hf : f.inRange) (h : commandOf f = .ok i) :
    wellFormed i = true := by
  obtain ⟨-, hrd, hrs1, hrs2, hn⟩ := hf
  have hshift := shiftFits_sext32 f.n hn
  unfold commandOf at h
  split at h
  case h_23 => cases h
  all_goals
    obtain ⟨-, rfl⟩ := (ifReservedZero_ok _ _ _).1 h
    simp_all [wellFormed, registerFits, countFits]

/-- Settles O2. -/
theorem encodeOfDecodeIsTheWord : Obligations.EncodeOfDecodeIsTheWord := fun c i h =>
  ⟨wellFormed_of_commandOf (fieldsOf c) i (fieldsOf_inRange c) h, Machine.encode_of_decode c i h⟩

/-! ### Masks, field by field -/

theorem bitField_and (x y hi lo : Nat) : bitField (x &&& y) hi lo = bitField x hi lo &&& bitField y hi lo := by
  simp only [bitField, Nat.and_div_two_pow, Nat.and_mod_two_pow]

/-- The fields `f` are zero where `m` has a bit, OP aside. -/
def Fields.zeroOn (m f : Fields) : Prop :=
  f.rd &&& m.rd = 0 ∧ f.rs1 &&& m.rs1 = 0 ∧ f.rs2 &&& m.rs2 = 0 ∧ f.n &&& m.n = 0

@[simp] theorem fieldsOf_op (c : Word) : (fieldsOf c).op = c.toNat % 256 := by
  simp [fieldsOf, bitField]

/-- A mask that covers OP leaves of a word its OP alone if and only if the word's other fields are zero on the mask. -/
theorem and_mask_eq_op_iff (c m : Word) (hop : (fieldsOf m).op = 2 ^ 8 - 1) :
    c.toNat &&& m.toNat = c.toNat % 256 ↔ (fieldsOf m).zeroOn (fieldsOf c) := by
  have hlt : c.toNat &&& m.toNat < 2 ^ 64 := lt_of_le_of_lt Nat.and_le_left c.isLt
  have hlow : (c.toNat &&& m.toNat) % 256 = c.toNat % 256 :=
    calc (c.toNat &&& m.toNat) % 2 ^ 8
        = c.toNat % 2 ^ 8 &&& (2 ^ 8 - 1) := by rw [Nat.and_mod_two_pow, ← hop, fieldsOf_op]
      _ = c.toNat % 2 ^ 8 := by rw [Nat.and_two_pow_sub_one_eq_mod, Nat.mod_mod]
  simp only [Fields.zeroOn, fieldsOf, ← bitField_and]
  generalize c.toNat &&& m.toNat = x at *
  simp only [bitField]
  omega

/-- The mask of a sub-format: OP and every field it does not use (30_encoding R72, R76). -/
def formatMask : SubFormat → Fields
  | .c0 => ⟨0xFF, 0xFF, 0xFF, 0xFF, 0xFFFFFFFF⟩
  | .cDN => ⟨0xFF, 0, 0xFF, 0xFF, 0⟩
  | .cSN => ⟨0xFF, 0xFF, 0, 0xFF, 0⟩
  | .cS => ⟨0xFF, 0xFF, 0, 0xFF, 0xFFFFFFFF⟩
  | .cDS => ⟨0xFF, 0, 0, 0xFF, 0xFFFFFFFF⟩
  | .cDSN => ⟨0xFF, 0, 0, 0xFF, 0⟩
  | .cSS => ⟨0xFF, 0xFF, 0, 0, 0xFFFFFFFF⟩
  | .cDSS => ⟨0xFF, 0, 0, 0, 0xFFFFFFFF⟩

theorem formatMask_op (sf : SubFormat) : (formatMask sf).op = 2 ^ 8 - 1 := by cases sf <;> rfl

theorem formatMask_inRange (sf : SubFormat) : (formatMask sf).inRange := by
  cases sf <;> simp [Fields.inRange, formatMask]

/-- A word's unused fields are zero where they are zero on the sub-format's mask (30_encoding R76). -/
theorem unusedZero_iff_zeroOn (sf : SubFormat) (f : Fields) (hf : f.inRange) :
    unusedZero sf f = true ↔ (formatMask sf).zeroOn f := by
  obtain ⟨-, hrd, hrs1, hrs2, hn⟩ := hf
  have hrd : f.rd &&& 255 = f.rd := Nat.and_two_pow_sub_one_of_lt_two_pow hrd
  have hrs1 : f.rs1 &&& 255 = f.rs1 := Nat.and_two_pow_sub_one_of_lt_two_pow hrs1
  have hrs2 : f.rs2 &&& 255 = f.rs2 := Nat.and_two_pow_sub_one_of_lt_two_pow hrs2
  have hn : f.n &&& 4294967295 = f.n := Nat.and_two_pow_sub_one_of_lt_two_pow hn
  cases sf <;> simp [unusedZero, formatMask, Fields.zeroOn, hrd, hrs1, hrs2, hn, and_assoc]

/-- SET's mask: that of its sub-format and N[31:8] (30_encoding R73, R76). -/
def setMask : Fields := { formatMask .cDN with n := 0xFFFFFF00 }

theorem setMask_inRange : setMask.inRange := by simp [Fields.inRange, setMask, formatMask]

theorem setUnusedZero_iff_zeroOn (f : Fields) (hf : f.inRange) :
    (unusedZero .cDN f && bitField f.n 31 8 == 0) = true ↔ setMask.zeroOn f := by
  have hn : f.n &&& 0xFFFFFF00 = 0 ↔ bitField f.n 31 8 = 0 := by
    have hlow : (f.n &&& 0xFFFFFF00) % 2 ^ 8 = f.n % 2 ^ 8 &&& 0 := Nat.and_mod_two_pow
    have hhigh : bitField (f.n &&& 0xFFFFFF00) 31 8 = bitField f.n 31 8 &&& (2 ^ 24 - 1) := bitField_and _ _ _ _
    have hlt : f.n &&& 0xFFFFFF00 < 2 ^ 32 := Nat.and_lt_two_pow _ (by decide)
    rw [Nat.and_two_pow_sub_one_eq_mod] at hhigh
    rw [Nat.and_zero] at hlow
    unfold bitField at *
    omega
  rw [Bool.and_eq_true, unusedZero_iff_zeroOn .cDN f hf, beq_iff_eq, ← hn]
  simp [setMask, formatMask, Fields.zeroOn, and_assoc]

/-! ### The rows of the opcode table -/

/-- A word with the row's opcode is a command of the row if its masked bits are the row's, else RESERVED_NONZERO. -/
def OpcodeRow.decodes (row : OpcodeRow) (c : Word) : Prop :=
  c.toNat % 256 = row.pattern →
    ∃ i, mnemonicOf i = row.mnemonic ∧ decode c = ifReservedZero (decide (c.toNat &&& row.mask = row.pattern)) i

/-- A line of the opcode map whose reserved bits are those of the mask `m` decodes as the row with that mask. -/
theorem decodes_of_mask {c : Word} {mnemonic : String} {op : Nat} {m : Fields} {reservedZero : Fields → Bool}
    (command : Fields → Instr) (hm : m.inRange) (hop : m.op = 2 ^ 8 - 1)
    (hreserved : ∀ f : Fields, f.inRange → (reservedZero f = true ↔ m.zeroOn f))
    (hmap : ∀ f : Fields, f.op = op → commandOf f = ifReservedZero (reservedZero f) (command f))
    (hname : ∀ f, mnemonicOf (command f) = mnemonic) :
    OpcodeRow.decodes ⟨mnemonic, op, (pack m).toNat⟩ c := by
  rintro rfl
  have hpack : fieldsOf (pack m) = m := fieldsOf_pack m hm
  have hbits : reservedZero (fieldsOf c) = decide (c.toNat &&& (pack m).toNat = c.toNat % 256) := by
    rw [Bool.eq_iff_iff, decide_eq_true_iff, and_mask_eq_op_iff c (pack m) (by rw [hpack, hop]), hpack]
    exact hreserved _ (fieldsOf_inRange c)
  exact ⟨command (fieldsOf c), hname _, by rw [decode, hmap _ (fieldsOf_op c), hbits]⟩

/-- A line of the opcode map that reserves only the fields its sub-format does not use: every line but SET's. -/
theorem decodes_of_format {c : Word} {mnemonic : String} {op : Nat} (sf : SubFormat) (command : Fields → Instr)
    (hmap : ∀ f : Fields, f.op = op → commandOf f = ifReservedZero (unusedZero sf f) (command f))
    (hname : ∀ f, mnemonicOf (command f) = mnemonic) :
    OpcodeRow.decodes ⟨mnemonic, op, (pack (formatMask sf)).toNat⟩ c :=
  decodes_of_mask command (formatMask_inRange sf) (formatMask_op sf) (unusedZero_iff_zeroOn sf) hmap hname

/-- Every row of the table is its line of the opcode map (30_encoding R75, R76). -/
theorem opcodeTable_decodes (c : Word) : ∀ row ∈ opcodeTable, row.decodes c := by
  simp only [opcodeTable, List.forall_mem_cons]
  exact ⟨
    decodes_of_mask (fun f => .set f.rd (BitVec.ofNat 8 f.n)) setMask_inRange rfl setUnusedZero_iff_zeroOn
      (fun f h => by simp [commandOf, h]) (fun _ => rfl),
    decodes_of_format .cDS (fun f => .mov f.rd f.rs1) (fun f h => by simp [commandOf, h]) (fun _ => rfl),
    decodes_of_format .cSN (fun f => .getb f.rs1 f.n) (fun f h => by simp [commandOf, h]) (fun _ => rfl),
    decodes_of_format .cDN (fun f => .setb f.rd f.n) (fun f h => by simp [commandOf, h]) (fun _ => rfl),
    decodes_of_format .cDSN (fun f => .shw f.rd f.rs1 (sext32 f.n)) (fun f h => by simp [commandOf, h]) (fun _ => rfl),
    decodes_of_format .cDSN (fun f => .add f.rd f.rs1 f.n) (fun f h => by simp [commandOf, h]) (fun _ => rfl),
    decodes_of_format .cDSN (fun f => .adc f.rd f.rs1 f.n) (fun f h => by simp [commandOf, h]) (fun _ => rfl),
    decodes_of_format .cDSN (fun f => .sub f.rd f.rs1 f.n) (fun f h => by simp [commandOf, h]) (fun _ => rfl),
    decodes_of_format .cDSN (fun f => .sbb f.rd f.rs1 f.n) (fun f h => by simp [commandOf, h]) (fun _ => rfl),
    decodes_of_format .cDN (fun f => .adds f.rd f.n) (fun f h => by simp [commandOf, h]) (fun _ => rfl),
    decodes_of_format .cSS (fun f => .cmpge f.rs1 f.rs2) (fun f h => by simp [commandOf, h]) (fun _ => rfl),
    decodes_of_format .cDN (fun f => .muls f.rd f.n) (fun f h => by simp [commandOf, h]) (fun _ => rfl),
    decodes_of_format .cDSS (fun f => .mul f.rd f.rs1 f.rs2) (fun f h => by simp [commandOf, h]) (fun _ => rfl),
    decodes_of_format .cDN (fun f => .divs f.rd f.n) (fun f h => by simp [commandOf, h]) (fun _ => rfl),
    decodes_of_format .cDSS (fun f => .div f.rd f.rs1 f.rs2) (fun f h => by simp [commandOf, h]) (fun _ => rfl),
    decodes_of_format .cDS (fun f => .i2bcd f.rd f.rs1) (fun f h => by simp [commandOf, h]) (fun _ => rfl),
    decodes_of_format .cDS (fun f => .f2bcd f.rd f.rs1) (fun f h => by simp [commandOf, h]) (fun _ => rfl),
    decodes_of_format .cSN (fun f => .prhex f.rs1 f.n) (fun f h => by simp [commandOf, h]) (fun _ => rfl),
    decodes_of_format .cSN (fun f => .prhexz f.rs1 f.n) (fun f h => by simp [commandOf, h]) (fun _ => rfl),
    decodes_of_format .c0 (fun f => .prdig) (fun f h => by simp [commandOf, h]) (fun _ => rfl),
    decodes_of_format .cS (fun f => .prbcdi f.rs1) (fun f h => by simp [commandOf, h]) (fun _ => rfl),
    decodes_of_format .cS (fun f => .prbcdf f.rs1) (fun f h => by simp [commandOf, h]) (fun _ => rfl),
    List.forall_mem_nil _⟩

/-- No opcode of the map is missing from the table (30_encoding R77). -/
theorem commandOf_illegalOpcode (f : Fields) (h : ∀ row ∈ opcodeTable, f.op ≠ row.pattern) :
    commandOf f = .error .illegalOpcode := by
  simp only [opcodeTable, List.forall_mem_cons] at h
  unfold commandOf
  split <;> simp_all

/-- The opcode of a command is that of the row with its mnemonic (30_encoding R75). -/
theorem op_of_mnemonicOf (i : Instr) :
    ∀ row ∈ opcodeTable, mnemonicOf i = row.mnemonic → (fieldsFor i).op = row.pattern := by
  cases i <;> simp [opcodeTable, mnemonicOf, fieldsFor]

/-- Every mask covers OP, and every pattern has no bit above OP. -/
theorem opcodeTable_mask_covers_op :
    ∀ row ∈ opcodeTable, row.mask % 2 ^ 8 = 2 ^ 8 - 1 ∧ row.pattern % 2 ^ 8 = row.pattern := by
  decide

/-- A word that matches a row has the row's opcode. -/
theorem op_of_match (c : Word) (row : OpcodeRow) (hrow : row ∈ opcodeTable) (h : c.toNat &&& row.mask = row.pattern) :
    c.toNat % 256 = row.pattern := by
  obtain ⟨hmask, hpattern⟩ := opcodeTable_mask_covers_op row hrow
  calc c.toNat % 2 ^ 8
      = c.toNat % 2 ^ 8 &&& row.mask % 2 ^ 8 := by rw [hmask, Nat.and_two_pow_sub_one_eq_mod, Nat.mod_mod]
    _ = row.pattern := by rw [← Nat.and_mod_two_pow, h, hpattern]

/-- Settles O3. -/
theorem decodeMatchesOpcodeTable : Obligations.DecodeMatchesOpcodeTable := by
  intro c
  refine ⟨fun row hrow => ⟨⟨fun hmatch => ?_, ?_⟩, fun hop hne => ?_⟩, fun h => ?_⟩
  · obtain ⟨i, hname, hdec⟩ := opcodeTable_decodes c row hrow (op_of_match c row hrow hmatch)
    exact ⟨i, by simpa [hmatch, ifReservedZero] using hdec, hname⟩
  · rintro ⟨i, hdec, hname⟩
    have hop : c.toNat % 256 = row.pattern := by
      rw [← op_of_mnemonicOf i row hrow hname,
        Machine.fieldsFor_of_commandOf (fieldsOf c) i (fieldsOf_inRange c) hdec, fieldsOf_op]
    obtain ⟨j, -, hrowdec⟩ := opcodeTable_decodes c row hrow hop
    exact of_decide_eq_true ((ifReservedZero_ok _ _ _).1 (hrowdec.symm.trans hdec)).1
  · obtain ⟨i, -, hdec⟩ := opcodeTable_decodes c row hrow hop
    simpa [hne, ifReservedZero] using hdec
  · exact commandOf_illegalOpcode (fieldsOf c) (by simpa using h)

/-! ### Fixed words -/

/-- Settles O4, by running the decoder on each word. -/
theorem workedEncodingsDecode : Obligations.WorkedEncodingsDecode := by
  unfold Obligations.WorkedEncodingsDecode
  decide

end Sys2Proof
end

section
/-! PROOFS. The family 40_storage: what SET, MOV, GETB and SETB write, and that writing back the byte just read changes
nothing. -/

namespace Sys2Proof.Machine

/-! ### When the storage commands are legal -/

/-- A command whose checks pass has its effect (40_storage R100). -/
theorem exec_of_legal (i : Instr) (s : State) (h : operandFault s.cfg i = none) : exec i s = .next (effectOf i s) := by
  rw [exec_eq_perform_effectOf, perform_of_legal i s _ h]

theorem set_legal (cfg : Config) (rd : Nat) (b : Byte) (h : rd < cfg.nreg) : operandFault cfg (.set rd b) = none := by
  rw [operandFault_eq_none_iff]
  simp [countInRange, operandsOf, operandsClash, operandExists_iff, h, register_inside cfg rd h]

theorem mov_legal (cfg : Config) (rd rs1 : Nat) (hrd : rd < cfg.nreg) (hrs1 : rs1 < cfg.nreg) :
    operandFault cfg (.mov rd rs1) = none := by
  rw [operandFault_eq_none_iff]
  simp [countInRange, operandsOf, operandsClash, operandExists_iff, hrd, hrs1, register_inside cfg rd hrd,
    register_inside cfg rs1 hrs1]

theorem getb_legal (s : State) (r idx : Nat) (hidx : idx < 16 * s.cfg.w) (hr : s.holds r (idx / 8 + 1)) :
    operandFault s.cfg (.getb r idx) = none := by
  rw [operandFault_eq_none_iff]
  simp [countInRange, operandsOf, operandsClash, operandExists_iff, hidx, hr]

/-- SETB is checked as GETB is (60_exceptions R183). -/
theorem setb_legal (s : State) (r idx : Nat) (hidx : idx < 16 * s.cfg.w) (hr : s.holds r (idx / 8 + 1)) :
    operandFault s.cfg (.setb r idx) = none :=
  getb_legal s r idx hidx hr

/-! ### Whole registers -/

/-- Writing words from register r on changes no byte outside them. -/
theorem sameOutside_setWords (s : State) (r L : Nat) (ws : List Word) (h : ws.length = L) :
    s.sameOutside (s.setWords r ws) r L := by
  subst h
  exact setWords_readByte_outside s r ws

/-- The word SET writes does not wrap (40_storage R101). -/
theorem filledWord_toNat (b : Byte) :
    (BitVec.ofNat 64 (b.toNat * 0x0101010101010101)).toNat = b.toNat * 0x0101010101010101 := by
  have hb := b.isLt
  rw [BitVec.toNat_ofNat]
  omega

/-- The number of the word SET writes is that of eight equal bytes (40_storage R101). -/
theorem bytesValue_replicate_eight (b : Byte) : bytesValue (List.replicate 8 b) = b.toNat * 0x0101010101010101 := by
  simp only [List.replicate, bytesValue]
  omega

/-- Every byte lane of the word SET writes is the byte (40_storage R101). -/
theorem filledWord_lane (b : Byte) (k : Nat) (hk : k < 8) :
    BitVec.ofNat 8 (b.toNat * 0x0101010101010101 / 256 ^ k) = b := by
  have hbytes := valueBytes_bytesValue (List.replicate 8 b)
  rw [List.length_replicate, bytesValue_replicate_eight] at hbytes
  have hlane := valueBytes_getElem? 8 (b.toNat * 0x0101010101010101) k hk
  rw [hbytes, List.getElem?_replicate, if_pos hk] at hlane
  exact (Option.some.inj hlane).symm

/-- Settles O18. -/
theorem setFillsTheRegister : Obligations.SetFillsTheRegister := by
  intro s rd b hrd
  have hword : ∀ k < s.cfg.w,
      ((effectOf (.set rd b) s).word rd k).toNat = b.toNat * 0x0101010101010101 := fun k hk => by
    rw [effectOf, setWords_word s rd _ k (by simpa using hk), List.getElem_replicate, filledWord_toNat]
  refine ⟨_, exec_of_legal _ s (set_legal s.cfg rd b hrd), rfl, hword, fun i hi => ?_,
    sameOutside_setWords s rd _ _ List.length_replicate⟩
  rw [byte_eq_word, hword (i / 8) (by omega), filledWord_lane b _ (by omega)]

/-- Writing back the words just read changes no byte. -/
theorem readByte_writeWords_readWords (m : Memory) (a L q : Nat) :
    readByte (writeWords m a (readWords m a L)) q = readByte m q := by
  by_cases h : 8 * a ≤ q ∧ q < 8 * a + 8 * L
  · obtain ⟨i, k, hi, hk, rfl⟩ : ∃ i k, i < L ∧ k < 8 ∧ q = 8 * (a + i) + k :=
      ⟨q / 8 - a, q % 8, by omega, by omega, by omega⟩
    rw [readByte_writeWords m a _ i k (by simpa using hi) hk, getElem_readWords, readByte_eq_readWord m _ k hk]
  · exact readByte_writeWords_outside m a _ q (by rw [length_readWords]; omega)

/-- Settles O19. -/
theorem movCopiesTheRegister : Obligations.MovCopiesTheRegister := by
  intro s rd rs1 hrd hrs1
  refine ⟨_, exec_of_legal _ s (mov_legal s.cfg rd rs1 hrd hrs1), rfl, fun k hk => ?_,
    sameOutside_setWords s rd _ _ (length_words s rs1 _), ?_⟩
  · rw [effectOf, setWords_word s rd _ k (by simpa using hk), getElem_words]
  · rintro rfl q
    exact readByte_writeWords_readWords s.rf (s.base rd) s.cfg.w q

/-! ### Single bytes -/

/-- GETB zero-extends the byte it reads (40_storage R103). -/
theorem effectOf_getb_res_toNat (s : State) (r idx : Nat) :
    (effectOf (.getb r idx) s).res.toNat = (s.byte r idx).toNat :=
  BitVec.toNat_setWidth_of_le (by decide)

/-- Settles O20. -/
theorem getbReadsTheLogicalByte : Obligations.GetbReadsTheLogicalByte := by
  intro s r idx hidx hr
  refine ⟨_, exec_of_legal _ s (getb_legal s r idx hidx hr), rfl, effectOf_getb_res_toNat s r idx, fun L hL => ?_⟩
  rw [effectOf_getb_res_toNat, byte_toNat_eq_digit s r L idx hL]

/-- Writing a logical byte replaces its lane of its word and no other bit (20_memory R53). -/
theorem getLsbD_word_setByte (s : State) (r i j : Nat) (b : Byte) (hj : j < 64) :
    ((s.setByte r i b).word r (i / 8)).getLsbD j =
      if j / 8 = 7 - i % 8 then b.getLsbD (j % 8) else (s.word r (i / 8)).getLsbD j := by
  have hword : physAddr s.cfg.w r i / 8 = s.base r + i / 8 := by rw [physAddr_eq, State.base]; omega
  have hlane : physAddr s.cfg.w r i % 8 = 7 - i % 8 := by rw [physAddr_eq]; omega
  have hbit := getLsbD_readWord_writeByte s.rf (physAddr s.cfg.w r i) j b hj
  rwa [hword, hlane] at hbit

/-- Settles O21. -/
theorem setbWritesEightBits : Obligations.SetbWritesEightBits := by
  intro s rd idx hidx hrd
  refine ⟨_, exec_of_legal _ s (setb_legal s rd idx hidx hrd), rfl, fun j hj => ?_, fun q hq => ?_⟩
  · have hlow : (s.opa.setWidth 8).getLsbD (j % 8) = s.opa.getLsbD (j % 8) := by
      simp [Nat.mod_lt]
    rw [effectOf, getLsbD_word_setByte s rd idx j _ hj, hlow]
  · rw [effectOf, setByte_readByte, if_neg hq]

/-! ### Writing back the byte just read -/

/-- Writing back the byte just read changes no byte. -/
theorem readByte_writeByte_readByte (m : Memory) (p q : Nat) :
    readByte (writeByte m p (readByte m p)) q = readByte m q := by
  rw [readByte_writeByte]
  split
  · next h => rw [h]
  · rfl

/-- GETB, the host's copy of RES to OPA, and SETB at the same place write back the byte read (40_storage R105). -/
theorem getb_then_setb (s : State) (r idx : Nat) (hidx : idx < 16 * s.cfg.w) (hr : s.holds r (idx / 8 + 1)) :
    ∃ t u, exec (.getb r idx) s = .next t ∧ exec (.setb r idx) { t with opa := t.res } = .next u ∧
      u.rf = writeByte s.rf (physAddr s.cfg.w r idx) (s.byte r idx) := by
  have hbyte : ((s.byte r idx).setWidth 64).setWidth 8 = s.byte r idx := by simp
  refine ⟨_, _, exec_of_legal _ s (getb_legal s r idx hidx hr), exec_of_legal _ _ (setb_legal s r idx hidx hr), ?_⟩
  exact congrArg (writeByte s.rf (physAddr s.cfg.w r idx)) hbyte

/-- Settles O22: the byte written is the one read, and GETB reads the digits in order. -/
theorem setbOfGetbLeavesTheRegisterFile : Obligations.SetbOfGetbLeavesTheRegisterFile := by
  refine ⟨fun s r idx hidx hr => ?_, fun s r L i hL hr hi => ?_⟩
  · obtain ⟨t, u, hget, hset, hrf⟩ := getb_then_setb s r idx hidx hr
    exact ⟨t, u, hget, hset, fun q => by rw [hrf]; exact readByte_writeByte_readByte s.rf _ q⟩
  · obtain ⟨hreg, hext⟩ := hr
    obtain ⟨t, hget, -, -, hdigit⟩ := getbReadsTheLogicalByte s r i (by omega) ⟨hreg, by omega⟩
    exact ⟨t, hget, hdigit L hi⟩

/-- Settles O59: both lists are canonical and read alike. -/
theorem writingBackKeepsTheCanonicalList : Obligations.WritingBackKeepsTheCanonicalList := by
  intro s r idx hwf hidx hr
  obtain ⟨t, u, hget, hset, hrf⟩ := getb_then_setb s r idx hidx hr
  refine ⟨t, u, hget, hset, ?_⟩
  rw [hrf]
  exact eq_of_readByte_eq _ s.rf (writeByte_wf s.rf hwf _ _) hwf (readByte_writeByte_readByte s.rf _)

end Sys2Proof.Machine
end

section
/-! PROOFS. The family 41_carry_primitives: the sum, the difference and their flags as one equation of numbers, which the
commands and the word-by-word chains share; the shift by whole words; and the compare. -/

namespace Sys2Proof.Machine

/-! ### Values, word by word -/

@[simp] theorem val_zero (s : State) (r : Nat) : s.val r 0 = 0 := rfl

theorem val_succ (s : State) (r L : Nat) : s.val r (L + 1) = s.val r L * 2 ^ 64 + (s.word r L).toNat := by
  simpa using wordsValue_words_append s r L 1

/-- Two buffers hold one number exactly when they hold the same words (00_scope R9). -/
theorem val_eq_iff (s t : State) (r r' L : Nat) :
    s.val r L = t.val r' L ↔ ∀ k < L, s.word r k = t.word r' k := by
  induction L with
  | zero => simp
  | succ L ih =>
    have hs := (s.word r L).isLt
    have ht := (t.word r' L).isLt
    rw [val_succ, val_succ, Nat.forall_lt_succ_right, ← ih, ← BitVec.toNat_inj]
    omega

/-- The order of numbers is the lexicographic order of their words, the most significant first (41_carry_primitives R117). -/
theorem val_lt_iff (s : State) (r r' L : Nat) :
    s.val r L < s.val r' L ↔
      ∃ k < L, (∀ j < k, s.word r' j = s.word r j) ∧ (s.word r k).toNat < (s.word r' k).toNat := by
  induction L with
  | zero => simp
  | succ L ih =>
    have hr := (s.word r L).isLt
    have hr' := (s.word r' L).isLt
    rw [val_succ, val_succ, Nat.exists_lt_succ_right, ← ih, ← val_eq_iff]
    omega

theorem valueWords_mod (L v : Nat) : valueWords L (v % 2 ^ (64 * L)) = valueWords L v := by
  have hwords := valueWords_wordsValue (valueWords L v)
  rwa [length_valueWords, wordsValue_valueWords] at hwords

/-- The words of a number are those of its high part and then those of its low part (00_scope R9). -/
theorem valueWords_append (L M v : Nat) :
    valueWords (L + M) v = valueWords L (v / 2 ^ (64 * M)) ++ valueWords M v := by
  induction L with
  | zero => simp [valueWords]
  | succ L ih =>
    rw [Nat.succ_add_eq_add_succ, Nat.add_succ, valueWords_succ, valueWords_succ, ih, List.cons_append,
      Nat.div_div_eq_div_mul, ← Nat.pow_add, ← Nat.mul_add, Nat.add_comm M L]

/-- Writing a run of words is writing its second part and then its first. -/
theorem readByte_writeWords_append (m : Memory) (a : Nat) (xs ys : List Word) (q : Nat) :
    readByte (writeWords m a (xs ++ ys)) q = readByte (writeWords (writeWords m (a + xs.length) ys) a xs) q := by
  by_cases h : 8 * a ≤ q ∧ q < 8 * a + 8 * (xs.length + ys.length)
  · obtain ⟨i, k, hi, hk, rfl⟩ : ∃ i k, i < xs.length + ys.length ∧ k < 8 ∧ q = 8 * (a + i) + k :=
      ⟨q / 8 - a, q % 8, by omega, by omega, by omega⟩
    rw [readByte_writeWords m a _ i k (by simpa using hi) hk]
    by_cases hx : i < xs.length
    · rw [readByte_writeWords _ a xs i k hx hk, List.getElem_append_left hx]
    · obtain ⟨j, rfl⟩ := Nat.exists_eq_add_of_le (Nat.not_lt.1 hx)
      rw [readByte_writeWords_outside _ a xs _ (by omega), ← Nat.add_assoc,
        readByte_writeWords m _ ys j k (by omega) hk, List.getElem_append_right (by omega)]
      simp
  · rw [readByte_writeWords_outside _ a _ q (by rw [List.length_append]; omega),
      readByte_writeWords_outside _ a xs q (by omega), readByte_writeWords_outside _ _ ys q (by omega)]

/-! ### A number below P and a flag that counts P -/

theorem eq_of_add_mul_flag {P x y : Nat} {b c : Bool} (hx : x < P) (hy : y < P)
    (h : x + P * b.toNat = y + P * c.toNat) : x = y ∧ b = c := by
  have hxy : x = y := by
    simpa only [Nat.add_mul_mod_self_left, Nat.mod_eq_of_lt hx, Nat.mod_eq_of_lt hy] using congrArg (· % P) h
  subst hxy
  have hnat : b.toNat = c.toNat := Nat.eq_of_mul_eq_mul_left (by omega) (Nat.add_left_cancel h)
  have hflag : b = c := by rw [Bool.eq_iff_iff, ← Bool.toNat_eq_one, hnat, Bool.toNat_eq_one]
  exact ⟨rfl, hflag⟩

/-- Words and a flag are determined by the number they make together. -/
theorem words_flag_eq {xs ys : List Word} {b c : Bool} {L : Nat} (hxs : xs.length = L) (hys : ys.length = L)
    (h : wordsValue xs + 2 ^ (64 * L) * b.toNat = wordsValue ys + 2 ^ (64 * L) * c.toNat) : xs = ys ∧ b = c := by
  have hxsLt := wordsValue_lt xs
  have hysLt := wordsValue_lt ys
  rw [hxs] at hxsLt
  rw [hys] at hysLt
  obtain ⟨hval, hflag⟩ := eq_of_add_mul_flag hxsLt hysLt h
  refine ⟨?_, hflag⟩
  rw [← valueWords_wordsValue xs, ← valueWords_wordsValue ys, hval, hxs, hys]

/-! ### When the commands are legal -/

/-- The check of ADD, which is that of ADC, SUB and SBB too (60_exceptions R183, R184). -/
theorem inPlace_legal (s : State) (rd rs1 L : Nat) (hL : L ≤ 2 * s.cfg.w) (hrd : s.holds rd L) (hrs1 : s.holds rs1 L)
    (hapart : s.sameOrApart rd rs1 L) : operandFault s.cfg (.add rd rs1 L) = none := by
  rw [operandFault_eq_none_iff]
  refine ⟨by simpa [countInRange] using hL, by simp [operandsOf, operandExists_iff, hrd, hrs1], ?_⟩
  rcases hapart with rfl | happart
  · simp [operandsClash, prefixesClash]
  · simp only [operandsClash, prefixesClash, rangesMeet, Bool.and_eq_false_iff, decide_eq_false_iff_not]
    omega

theorem adds_legal (s : State) (rd idx : Nat) (hidx : idx < 2 * s.cfg.w) (hrd : s.holds rd (idx + 1)) :
    operandFault s.cfg (.adds rd idx) = none := by
  rw [operandFault_eq_none_iff]
  simp [countInRange, operandsOf, operandsClash, operandExists_iff, hidx, hrd]

/-- SHW is checked as MOV is (60_exceptions R183). -/
theorem shw_legal (cfg : Config) (rd rs1 : Nat) (n : Int) (hrd : rd < cfg.nreg) (hrs1 : rs1 < cfg.nreg) :
    operandFault cfg (.shw rd rs1 n) = none :=
  mov_legal cfg rd rs1 hrd hrs1

/-- CMPGE is checked as MOV is (60_exceptions R183). -/
theorem cmpge_legal (cfg : Config) (rs1 rs2 : Nat) (hrs1 : rs1 < cfg.nreg) (hrs2 : rs2 < cfg.nreg) :
    operandFault cfg (.cmpge rs1 rs2) = none :=
  mov_legal cfg rs1 rs2 hrs1 hrs2

/-! ### Sums -/

/-- The low 64L bits of T into the buffer at rd and the bits above them, as one flag, into CF: what ADD, ADC and ADDS do
(41_carry_primitives R112, R113, R116); `effectOf_add`, `effectOf_adc` and `effectOf_adds` tie it to them. -/
def State.storeSum (s : State) (rd L T : Nat) : State :=
  { s.setVal rd L (T % 2 ^ (64 * L)) with cf := carryOut T L }

theorem effectOf_add (s : State) (rd rs1 L : Nat) :
    effectOf (.add rd rs1 L) s = s.storeSum rd L (s.val rd L + s.val rs1 L) := rfl

theorem effectOf_adc (s : State) (rd rs1 L : Nat) :
    effectOf (.adc rd rs1 L) s = s.storeSum rd L (s.val rd L + s.val rs1 L + s.cf.toNat) := rfl

theorem effectOf_adds (s : State) (rd idx : Nat) :
    effectOf (.adds rd idx) s = s.storeSum rd (idx + 1) (s.val rd (idx + 1) + s.opa.toNat) := rfl

theorem storeSum_val (s : State) (rd L T : Nat) : (s.storeSum rd L T).val rd L = T % 2 ^ (64 * L) :=
  (setVal_val_same s rd L _).trans (Nat.mod_mod T _)

theorem storeSum_sameOutside (s : State) (rd L T : Nat) : s.sameOutside (s.storeSum rd L T) rd L :=
  setVal_readByte_outside s rd L _

theorem storeSum_val_disjoint (s : State) (rd L T r' L' : Nat)
    (h : s.base r' + L' ≤ s.base rd ∨ s.base rd + L ≤ s.base r') : (s.storeSum rd L T).val r' L' = s.val r' L' :=
  setVal_val_disjoint s rd L _ r' L' h

theorem storeSum_cf_toNat (s : State) (rd L T : Nat) (h : T < 2 * 2 ^ (64 * L)) :
    (s.storeSum rd L T).cf.toNat = T / 2 ^ (64 * L) := by
  have hbit : T / 2 ^ (64 * L) < 2 := Nat.div_lt_of_lt_mul (by rwa [Nat.mul_comm])
  show (carryOut T L).toNat = _
  unfold carryOut
  interval_cases T / 2 ^ (64 * L) <;> rfl

/-- The buffer and CF together hold the sum exactly. -/
theorem storeSum_exact (s : State) (rd L T : Nat) (h : T < 2 * 2 ^ (64 * L)) :
    (s.storeSum rd L T).val rd L + 2 ^ (64 * L) * (s.storeSum rd L T).cf.toNat = T := by
  rw [storeSum_val, storeSum_cf_toNat s rd L T h, Nat.mod_add_div]

/-- Two buffers and a carry in make a sum with one carry bit. -/
theorem sum_lt (s : State) (rd rs1 L : Nat) (c : Bool) : s.val rd L + s.val rs1 L + c.toNat < 2 * 2 ^ (64 * L) := by
  have hrd := val_lt s rd L
  have hrs1 := val_lt s rs1 L
  have hc := c.toNat_le
  omega

/-- OPA is below the weight of the carry out, however short the buffer (41_carry_primitives R116). -/
theorem adds_sum_lt (s : State) (rd idx : Nat) : s.val rd (idx + 1) + s.opa.toNat < 2 * 2 ^ (64 * (idx + 1)) := by
  have hrd := val_lt s rd (idx + 1)
  have hopa := s.opa.isLt
  have hpow : 2 ^ 64 ≤ 2 ^ (64 * (idx + 1)) := Nat.pow_le_pow_right (by omega) (by omega)
  omega

/-- Settles O24. -/
theorem addAdcWriteSumAndCarry : Obligations.AddAdcWriteSumAndCarry := by
  intro s rd rs1 L hL hrd hrs1 hapart
  have hlegal := inPlace_legal s rd rs1 L hL hrd hrs1 hapart
  exact ⟨⟨_, exec_of_legal (.add rd rs1 L) s hlegal, rfl, storeSum_sameOutside s rd L _, storeSum_val s rd L _,
      storeSum_cf_toNat s rd L _ (sum_lt s rd rs1 L false)⟩,
    ⟨_, exec_of_legal (.adc rd rs1 L) s hlegal, rfl, storeSum_sameOutside s rd L _, storeSum_val s rd L _,
      storeSum_cf_toNat s rd L _ (sum_lt s rd rs1 L s.cf)⟩⟩

/-- ADDS of 0 writes back the words just read, without a carry (41_carry_primitives R116). -/
theorem storeSum_val_self (s : State) (rd L : Nat) :
    (s.storeSum rd L (s.val rd L)).cf = false ∧
      ∀ q, readByte (s.storeSum rd L (s.val rd L)).rf q = readByte s.rf q := by
  have hlt := val_lt s rd L
  constructor
  · simp [State.storeSum, carryOut, Nat.div_eq_of_lt hlt]
  · intro q
    show readByte (writeWords s.rf (s.base rd) (valueWords L (s.val rd L % 2 ^ (64 * L)))) q = _
    rw [valueWords_mod, valueWords_val]
    exact readByte_writeWords_readWords s.rf (s.base rd) L q

/-- Settles O26. -/
theorem addsAddsAtTheWord : Obligations.AddsAddsAtTheWord := by
  intro s rd idx hidx hrd
  refine ⟨_, exec_of_legal _ s (adds_legal s rd idx hidx hrd), rfl, storeSum_sameOutside s rd _ _, storeSum_val s rd _ _,
    storeSum_cf_toNat s rd _ _ (adds_sum_lt s rd idx), fun hopa => ?_⟩
  rw [effectOf_adds, hopa]
  exact storeSum_val_self s rd (idx + 1)

/-! ### Differences -/

theorem subInto_val (s : State) (rd rs1 L k : Nat) :
    ((subInto s rd rs1 L k).val rd L : Int) = ((s.val rd L : Int) - s.val rs1 L - k) % 2 ^ (64 * L) := by
  have hval := setVal_val_same s rd L (((s.val rd L : Int) - s.val rs1 L - k) % 2 ^ (64 * L)).toNat
  have hpos : (2 ^ (64 * L) : Int) ≠ 0 := by positivity
  show (((s.setVal rd L _).val rd L : Nat) : Int) = _
  rw [hval]
  push_cast
  rw [Int.toNat_of_nonneg (Int.emod_nonneg _ hpos), Int.emod_emod_of_dvd _ dvd_rfl]

theorem subInto_cf_iff (s : State) (rd rs1 L k : Nat) :
    (subInto s rd rs1 L k).cf = true ↔ s.val rd L < s.val rs1 L + k := by
  rw [subInto_cf, borrowOut, decide_eq_true_iff]
  omega

theorem subInto_sameOutside (s : State) (rd rs1 L k : Nat) : s.sameOutside (subInto s rd rs1 L k) rd L :=
  setVal_readByte_outside s rd L _

/-- The buffer written, less the borrow CF stands for, holds the difference exactly. -/
theorem subInto_exact (s : State) (rd rs1 L : Nat) (c : Bool) :
    (subInto s rd rs1 L c.toNat).val rd L + s.val rs1 L + c.toNat =
      s.val rd L + 2 ^ (64 * L) * (subInto s rd rs1 L c.toNat).cf.toNat := by
  have hval := subInto_val s rd rs1 L c.toNat
  have hrd := val_lt s rd L
  have hrs1 := val_lt s rs1 L
  have hc := c.toNat_le
  zify at hrd hrs1 ⊢
  by_cases hlt : s.val rd L < s.val rs1 L + c.toNat
  · rw [← Int.add_emod_right, Int.emod_eq_of_lt (by omega) (by omega)] at hval
    rw [(subInto_cf_iff s rd rs1 L c.toNat).2 hlt, Bool.toNat_true]
    omega
  · rw [Int.emod_eq_of_lt (by omega) (by omega)] at hval
    rw [Bool.eq_false_iff.2 (mt (subInto_cf_iff s rd rs1 L c.toNat).1 hlt), Bool.toNat_false]
    omega

/-- Settles O25. -/
theorem subSbbWriteDifferenceAndBorrow : Obligations.SubSbbWriteDifferenceAndBorrow := by
  intro s rd rs1 L hL hrd hrs1 hapart
  have hlegal := inPlace_legal s rd rs1 L hL hrd hrs1 hapart
  exact ⟨⟨_, exec_of_legal (.sub rd rs1 L) s hlegal, rfl, subInto_sameOutside s rd rs1 L 0,
      by simpa [effectOf] using subInto_val s rd rs1 L 0, subInto_cf_iff s rd rs1 L 0⟩,
    ⟨_, exec_of_legal (.sbb rd rs1 L) s hlegal, rfl, subInto_sameOutside s rd rs1 L s.cf.toNat,
      subInto_val s rd rs1 L s.cf.toNat, subInto_cf_iff s rd rs1 L s.cf.toNat⟩⟩

/-- ADD and then SUB add and take away one number, and the ADD's carry is what the SUB has to borrow
(41_carry_primitives R118). -/
theorem subInto_addInto (s : State) (rd rs1 L : Nat)
    (h : s.base rs1 + L ≤ s.base rd ∨ s.base rd + L ≤ s.base rs1) :
    (subInto (addInto s rd rs1 L 0) rd rs1 L 0).val rd L = s.val rd L ∧
      (subInto (addInto s rd rs1 L 0) rd rs1 L 0).cf = (addInto s rd rs1 L 0).cf := by
  have hadd : (addInto s rd rs1 L 0).val rd L + 2 ^ (64 * L) * (addInto s rd rs1 L 0).cf.toNat
      = s.val rd L + s.val rs1 L :=
    storeSum_exact s rd L _ (sum_lt s rd rs1 L false)
  have hrs1 : (addInto s rd rs1 L 0).val rs1 L = s.val rs1 L := storeSum_val_disjoint s rd L _ rs1 L h
  have hsub : (subInto (addInto s rd rs1 L 0) rd rs1 L 0).val rd L + (addInto s rd rs1 L 0).val rs1 L
      = (addInto s rd rs1 L 0).val rd L + 2 ^ (64 * L) * (subInto (addInto s rd rs1 L 0) rd rs1 L 0).cf.toNat :=
    subInto_exact (addInto s rd rs1 L 0) rd rs1 L false
  obtain ⟨hval, hcf⟩ := eq_of_add_mul_flag (val_lt (subInto (addInto s rd rs1 L 0) rd rs1 L 0) rd L) (val_lt s rd L)
    (b := (addInto s rd rs1 L 0).cf) (c := (subInto (addInto s rd rs1 L 0) rd rs1 L 0).cf) (by omega)
  exact ⟨hval, hcf.symm⟩

/-- Settles O28. -/
theorem subUndoesAdd : Obligations.SubUndoesAdd := by
  intro s rd rs1 L hL hrd hrs1 hapart hne
  have hlegal := inPlace_legal s rd rs1 L hL hrd hrs1 hapart
  obtain ⟨hval, hcf⟩ := subInto_addInto s rd rs1 L (hapart.resolve_left hne).symm
  exact ⟨_, _, exec_of_legal _ s hlegal, exec_of_legal (.sub rd rs1 L) _ hlegal, hval,
    (val_eq_iff _ s rd rd L).1 hval, hcf⟩

/-! ### One ADD in two parts -/

/-- Pairs with no register in common have no word in common. -/
theorem sameOrApart_of_pairs (s : State) (rd rs1 : Nat) (h : rd = rs1 ∨ rd + 2 ≤ rs1 ∨ rs1 + 2 ≤ rd) :
    s.sameOrApart rd rs1 (2 * s.cfg.w) := by
  unfold State.sameOrApart
  rw [← Nat.add_mul, ← Nat.add_mul]
  exact h.imp_right (Or.imp (Nat.mul_le_mul_right _) (Nat.mul_le_mul_right _))

/-- The value of a register and of M words of the next one (00_scope R9). -/
theorem val_register_append (s : State) (r M : Nat) :
    s.val r (s.cfg.w + M) = s.val r s.cfg.w * 2 ^ (64 * M) + s.val (r + 1) M := by
  have hword : ∀ k, s.word r (s.cfg.w + k) = s.word (r + 1) k := fun k => by
    simp only [State.word, State.base, add_one_mul, Nat.add_assoc]
  rw [wordsValue_words_append]
  simp only [hword]
  rw [← words_eq]
  rfl

/-- The low part of a joined sum makes a carry into the sum of the high parts (41_carry_primitives R113). -/
theorem joined_sum (P ah al bh bl : Nat) :
    ah * P + al + (bh * P + bl) = (al + bl) % P + P * (ah + bh + (al + bl) / P) := by
  have hlow := Nat.mod_add_div (al + bl) P
  calc ah * P + al + (bh * P + bl) = (al + bl) + P * (ah + bh) := by ring
    _ = (al + bl) % P + P * ((al + bl) / P) + P * (ah + bh) := by rw [hlow]
    _ = _ := by ring

/-- Storing a number in a register and M words of the next one is storing its low part there and then its high part in the
register (41_carry_primitives R113). -/
theorem storeSum_append (s : State) (rd M lo hi : Nat) :
    ((s.storeSum (rd + 1) M lo).storeSum rd s.cfg.w hi).cf =
        (s.storeSum rd (s.cfg.w + M) (lo % 2 ^ (64 * M) + 2 ^ (64 * M) * hi)).cf ∧
      ∀ q, readByte ((s.storeSum (rd + 1) M lo).storeSum rd s.cfg.w hi).rf q =
        readByte (s.storeSum rd (s.cfg.w + M) (lo % 2 ^ (64 * M) + 2 ^ (64 * M) * hi)).rf q := by
  have hpos : 0 < 2 ^ (64 * M) := Nat.two_pow_pos _
  have hhi : (lo % 2 ^ (64 * M) + 2 ^ (64 * M) * hi) / 2 ^ (64 * M) = hi := by
    rw [Nat.add_mul_div_left _ _ hpos, Nat.div_eq_of_lt (Nat.mod_lt _ hpos), Nat.zero_add]
  have hlo : valueWords M (lo % 2 ^ (64 * M) + 2 ^ (64 * M) * hi) = valueWords M (lo % 2 ^ (64 * M)) := by
    rw [← valueWords_mod, Nat.add_mul_mod_self_left, Nat.mod_mod]
  constructor
  · show carryOut hi s.cfg.w = carryOut _ (s.cfg.w + M)
    rw [carryOut, carryOut, Nat.mul_add, Nat.add_comm (64 * _), Nat.pow_add, ← Nat.div_div_eq_div_mul, hhi]
  · intro q
    have hbase : s.base (rd + 1) = s.base rd + s.cfg.w := add_one_mul rd s.cfg.w
    show readByte (writeWords (writeWords s.rf (s.base (rd + 1)) (valueWords M (lo % 2 ^ (64 * M)))) (s.base rd)
        (valueWords s.cfg.w (hi % 2 ^ (64 * s.cfg.w)))) q =
      readByte (writeWords s.rf (s.base rd) (valueWords (s.cfg.w + M) (_ % 2 ^ (64 * (s.cfg.w + M))))) q
    rw [valueWords_mod s.cfg.w, valueWords_mod (s.cfg.w + M), valueWords_append, readByte_writeWords_append,
      length_valueWords, hbase, hhi, hlo]

/-- ADC on the high registers after ADD on the low ones adds the high parts and the carry of the low sum
(41_carry_primitives R113). -/
theorem adc_after_add (s : State) (rd rs1 M : Nat) (hM : M ≤ s.cfg.w) (hapart : s.sameOrApart rd rs1 (2 * s.cfg.w)) :
    effectOf (.adc rd rs1 s.cfg.w) (effectOf (.add (rd + 1) (rs1 + 1) M) s) =
      (s.storeSum (rd + 1) M (s.val (rd + 1) M + s.val (rs1 + 1) M)).storeSum rd s.cfg.w
        (s.val rd s.cfg.w + s.val rs1 s.cfg.w + (s.val (rd + 1) M + s.val (rs1 + 1) M) / 2 ^ (64 * M)) := by
  have hnext := add_one_mul rd s.cfg.w
  have hrs1 : rs1 * s.cfg.w + s.cfg.w ≤ (rd + 1) * s.cfg.w ∨ (rd + 1) * s.cfg.w + M ≤ rs1 * s.cfg.w := by
    rcases hapart with rfl | happart <;> omega
  rw [effectOf_adc, effectOf_add, storeSum_val_disjoint _ _ _ _ rd _ (.inl hnext.ge),
    storeSum_val_disjoint _ _ _ _ rs1 _ hrs1,
    storeSum_cf_toNat _ _ _ _ (by simpa using sum_lt s (rd + 1) (rs1 + 1) M false)]

/-- Settles O30. -/
theorem addThenAdcIsOneAdd : Obligations.AddThenAdcIsOneAdd := by
  intro s rd rs1 M hM hrd hrs1 hpairs
  have hrdPair := pair_inside s.cfg rd hrd
  have hrs1Pair := pair_inside s.cfg rs1 hrs1
  have hrdNext := add_one_mul rd s.cfg.w
  have hrs1Next := add_one_mul rs1 s.cfg.w
  have hapart := sameOrApart_of_pairs s rd rs1 hpairs
  have hlow := inPlace_legal s (rd + 1) (rs1 + 1) M (by omega) (by omega) (by omega) (by omega)
  have hhigh := inPlace_legal s rd rs1 s.cfg.w (by omega) (by omega) (by omega) (by omega)
  have hjoined := inPlace_legal s rd rs1 (s.cfg.w + M) (by omega) (by omega) (by omega) (by omega)
  refine ⟨_, _, _, exec_of_legal _ s hlow, exec_of_legal (.adc rd rs1 s.cfg.w) _ hhigh, exec_of_legal _ s hjoined, ?_⟩
  rw [adc_after_add s rd rs1 M hM hapart, effectOf_add, val_register_append, val_register_append, joined_sum]
  exact storeSum_append s rd M _ _

/-! ### The chains of words -/

theorem adc64_exact (a b : Word) (c : Bool) :
    (adc64 a b c).1.toNat + 2 ^ 64 * (adc64 a b c).2.toNat = a.toNat + b.toNat + c.toNat := by
  have ha := a.isLt
  have hb := b.isLt
  have hc := c.toNat_le
  simp only [adc64, BitVec.toNat_ofNat]
  by_cases h : (a.toNat + b.toNat + c.toNat) / 2 ^ 64 = 0
  · simp only [h, ne_eq, not_true, decide_false, Bool.toNat_false]; omega
  · simp only [h, ne_eq, not_false_eq_true, decide_true, Bool.toNat_true]; omega

theorem sbb64_exact (a b : Word) (c : Bool) :
    (sbb64 a b c).1.toNat + b.toNat + c.toNat = a.toNat + 2 ^ 64 * (sbb64 a b c).2.toNat := by
  have ha := a.isLt
  have hb := b.isLt
  have hc := c.toNat_le
  simp only [sbb64, BitVec.toNat_ofInt]
  by_cases h : (a.toNat : Int) - b.toNat - c.toNat < 0
  · simp only [h, decide_true, Bool.toNat_true]; omega
  · simp only [h, decide_false, Bool.toNat_false]; omega

theorem length_addChain (xs ys : List Word) (c : Bool) (h : xs.length = ys.length) :
    (addChain xs ys c).1.length = xs.length := by
  induction xs generalizing ys with
  | nil => rfl
  | cons x xs ih =>
    obtain _ | ⟨y, ys⟩ := ys
    · cases h
    · simp [addChain, ih ys (Nat.succ.inj h)]

theorem length_subChain (xs ys : List Word) (c : Bool) (h : xs.length = ys.length) :
    (subChain xs ys c).1.length = xs.length := by
  induction xs generalizing ys with
  | nil => rfl
  | cons x xs ih =>
    obtain _ | ⟨y, ys⟩ := ys
    · cases h
    · simp [subChain, ih ys (Nat.succ.inj h)]

/-- The words of the chain and the carry it leaves hold the sum exactly (41_carry_primitives R112, R113). -/
theorem addChain_exact (xs ys : List Word) (c : Bool) (h : xs.length = ys.length) :
    wordsValue (addChain xs ys c).1 + 2 ^ (64 * xs.length) * (addChain xs ys c).2.toNat =
      wordsValue xs + wordsValue ys + c.toNat := by
  induction xs generalizing ys with
  | nil =>
    obtain rfl := List.length_eq_zero_iff.1 h.symm
    simp [addChain]
  | cons x xs ih =>
    obtain _ | ⟨y, ys⟩ := ys
    · cases h
    · have hlen : xs.length = ys.length := Nat.succ.inj h
      have hlow := ih ys hlen
      have hword := adc64_exact x y (addChain xs ys c).2
      simp only [addChain, wordsValue_cons, length_addChain xs ys c hlen, ← hlen, List.length_cons, Nat.mul_add,
        Nat.pow_add]
      linear_combination 2 ^ (64 * xs.length) * hword + hlow

/-- The words of the chain, less what the borrow it leaves stands for, hold the difference exactly (41_carry_primitives R114,
R115). -/
theorem subChain_exact (xs ys : List Word) (c : Bool) (h : xs.length = ys.length) :
    wordsValue (subChain xs ys c).1 + wordsValue ys + c.toNat =
      wordsValue xs + 2 ^ (64 * xs.length) * (subChain xs ys c).2.toNat := by
  induction xs generalizing ys with
  | nil =>
    obtain rfl := List.length_eq_zero_iff.1 h.symm
    simp [subChain]
  | cons x xs ih =>
    obtain _ | ⟨y, ys⟩ := ys
    · cases h
    · have hlen : xs.length = ys.length := Nat.succ.inj h
      have hlow := ih ys hlen
      have hword := sbb64_exact x y (subChain xs ys c).2
      simp only [subChain, wordsValue_cons, length_subChain xs ys c hlen, ← hlen, List.length_cons, Nat.mul_add,
        Nat.pow_add]
      linear_combination 2 ^ (64 * xs.length) * hword + hlow

/-- A stored sum is what a chain leaves that adds up to it. -/
theorem storeSum_eq_addChain (s : State) (rd L T : Nat) (xs ys : List Word) (c : Bool) (hxs : xs.length = L)
    (hys : ys.length = L) (hsum : wordsValue xs + wordsValue ys + c.toNat = T) (hT : T < 2 * 2 ^ (64 * L)) :
    ((s.storeSum rd L T).words rd L, (s.storeSum rd L T).cf) = addChain xs ys c := by
  have hlen : xs.length = ys.length := hxs.trans hys.symm
  have hout := (length_addChain xs ys c hlen).trans hxs
  have hchain := addChain_exact xs ys c hlen
  rw [hxs, hsum] at hchain
  obtain ⟨hwords, hcf⟩ := words_flag_eq (length_words (s.storeSum rd L T) rd L) hout
    ((storeSum_exact s rd L T hT).trans hchain.symm)
  exact Prod.ext hwords hcf

/-- A stored difference is what the chain leaves: the two have the same operands, so they are the same number once each is
given the other's borrow. -/
theorem subInto_eq_subChain (s : State) (rd rs1 L : Nat) (c : Bool) :
    ((subInto s rd rs1 L c.toNat).words rd L, (subInto s rd rs1 L c.toNat).cf) =
      subChain (s.words rd L) (s.words rs1 L) c := by
  have hlen : (s.words rd L).length = (s.words rs1 L).length := by simp
  have hout := length_subChain _ _ c hlen
  have hchain := subChain_exact _ _ c hlen
  have hexact := subInto_exact s rd rs1 L c
  rw [length_words] at hout hchain
  simp only [State.val] at hexact
  obtain ⟨hwords, hcf⟩ := words_flag_eq (b := (subChain (s.words rd L) (s.words rs1 L) c).2)
    (c := (subInto s rd rs1 L c.toNat).cf)
    (length_words (subInto s rd rs1 L c.toNat) rd L) hout (by omega)
  exact Prod.ext hwords hcf.symm

/-- A command whose checks pass answers with its effect and nothing else. -/
theorem eq_effectOf_of_exec (i : Instr) (s t : State) (hlegal : operandFault s.cfg i = none) (h : exec i s = .next t) :
    t = effectOf i s := by
  rw [exec_of_legal i s hlegal] at h
  cases h
  rfl

theorem wordsValue_replicate_zero (n : Nat) : wordsValue (List.replicate n 0) = 0 := by
  induction n with
  | zero => rfl
  | succ n ih => rw [List.replicate_succ, wordsValue_cons, ih]; simp

/-- Settles O31. -/
theorem addChainsAgree : Obligations.AddChainsAgree := by
  refine ⟨fun s t u rd rs1 L hlegal ht hu => ?_, fun s t rd idx hlegal ht => ?_⟩
  · obtain rfl := eq_effectOf_of_exec _ s t hlegal ht
    obtain rfl := eq_effectOf_of_exec (.adc rd rs1 L) s u hlegal hu
    exact ⟨storeSum_eq_addChain s rd L _ _ _ false (by simp) (by simp) rfl (sum_lt s rd rs1 L false),
      storeSum_eq_addChain s rd L _ _ _ s.cf (by simp) (by simp) rfl (sum_lt s rd rs1 L s.cf)⟩
  · obtain rfl := eq_effectOf_of_exec _ s t hlegal ht
    refine storeSum_eq_addChain s rd (idx + 1) _ _ _ false (by simp) (by simp) ?_ (adds_sum_lt s rd idx)
    rw [wordsValue_append, wordsValue_replicate_zero]
    simp [State.val]

/-- Settles O32. -/
theorem subChainsAgree : Obligations.SubChainsAgree := by
  intro s t u rd rs1 L hlegal ht hu
  obtain rfl := eq_effectOf_of_exec _ s t hlegal ht
  obtain rfl := eq_effectOf_of_exec (.sbb rd rs1 L) s u hlegal hu
  exact ⟨subInto_eq_subChain s rd rs1 L false, subInto_eq_subChain s rd rs1 L s.cf⟩

/-! ### Shifts by whole words -/

/-- The first words of a number are what its division by the weight of the others leaves. -/
theorem wordsValue_take (ws : List Word) (k : Nat) :
    wordsValue (ws.take (ws.length - k)) = wordsValue ws / 2 ^ (64 * k) := by
  by_cases hk : k ≤ ws.length
  · have hlen : (ws.drop (ws.length - k)).length = k := by simp; omega
    have hlt := wordsValue_lt (ws.drop (ws.length - k))
    have happend := wordsValue_append (ws.take (ws.length - k)) (ws.drop (ws.length - k))
    rw [hlen] at hlt happend
    rw [List.take_append_drop] at happend
    rw [happend, Nat.mul_comm, Nat.mul_add_div (Nat.two_pow_pos _), Nat.div_eq_of_lt hlt, Nat.add_zero]
  · have hlt : wordsValue ws < 2 ^ (64 * k) :=
      (wordsValue_lt ws).trans_le (Nat.pow_le_pow_right (by omega) (by omega))
    rw [Nat.sub_eq_zero_of_le (by omega), List.take_zero, Nat.div_eq_of_lt hlt, wordsValue_nil]

/-- The last words of a number are its residue. -/
theorem wordsValue_drop (ws : List Word) (k : Nat) :
    wordsValue (ws.drop k) = wordsValue ws % 2 ^ (64 * (ws.length - k)) := by
  have hlt := wordsValue_lt (ws.drop k)
  have happend := wordsValue_append (ws.take k) (ws.drop k)
  rw [List.take_append_drop, List.length_drop] at happend
  rw [List.length_drop] at hlt
  rw [happend, Nat.mul_comm, Nat.mul_add_mod, Nat.mod_eq_of_lt hlt]

theorem wordsValue_shiftWords_right (ws : List Word) (n : Int) (hn : 0 ≤ n) :
    wordsValue (shiftWords ws n) = wordsValue ws / 2 ^ (64 * n.toNat) := by
  rw [shiftWords, if_pos hn, wordsValue_append, wordsValue_replicate_zero, wordsValue_take, Nat.zero_mul, Nat.zero_add]

theorem wordsValue_shiftWords_left (ws : List Word) (n : Int) (hn : n < 0) :
    wordsValue (shiftWords ws n) = wordsValue ws * 2 ^ (64 * (-n).toNat) % 2 ^ (64 * ws.length) := by
  rw [shiftWords, if_neg (by omega), wordsValue_append, wordsValue_replicate_zero, wordsValue_drop, List.length_replicate,
    Nat.add_zero]
  by_cases hk : (-n).toNat ≤ ws.length
  · have hlen : 64 * ws.length = 64 * (ws.length - (-n).toNat) + 64 * (-n).toNat := by omega
    rw [Nat.min_eq_left hk, hlen, Nat.pow_add, Nat.mul_mod_mul_right]
  · have hdvd : 2 ^ (64 * ws.length) ∣ wordsValue ws * 2 ^ (64 * (-n).toNat) :=
      Dvd.dvd.mul_left (Nat.pow_dvd_pow 2 (by omega)) _
    rw [Nat.sub_eq_zero_of_le (by omega), Nat.mul_zero, Nat.pow_zero, Nat.mod_one, Nat.zero_mul, Nat.mod_eq_zero_of_dvd hdvd]

/-- Word k of a register shifted right is the word n places before it, or 0 when there is none (41_carry_primitives R111). -/
theorem getElem_shiftWords_right (s : State) (r k : Nat) (n : Int) (hn : 0 ≤ n)
    (hk : k < (shiftWords (s.words r s.cfg.w) n).length) :
    (shiftWords (s.words r s.cfg.w) n)[k] = if n ≤ k then s.word r (k - n.toNat) else 0 := by
  rw [length_shiftWords, length_words] at hk
  simp only [shiftWords, if_pos hn, length_words, List.getElem_append, List.length_replicate]
  by_cases h : n ≤ k
  · rw [if_pos h, dif_neg (by omega), List.getElem_take, getElem_words, Nat.min_eq_left (by omega)]
  · rw [if_neg h, dif_pos (by omega), List.getElem_replicate]

/-- Word k of a register shifted left is the word -n places after it, or 0 when there is none (41_carry_primitives R111). -/
theorem getElem_shiftWords_left (s : State) (r k : Nat) (n : Int) (hn : n < 0)
    (hk : k < (shiftWords (s.words r s.cfg.w) n).length) :
    (shiftWords (s.words r s.cfg.w) n)[k] = if (k : Int) - n < s.cfg.w then s.word r (k + (-n).toNat) else 0 := by
  rw [length_shiftWords, length_words] at hk
  simp only [shiftWords, if_neg (Int.not_le.2 hn), List.getElem_append, List.length_drop, length_words]
  by_cases h : (k : Int) - n < s.cfg.w
  · rw [if_pos h, dif_pos (by omega), List.getElem_drop, getElem_words, Nat.add_comm]
  · rw [if_neg h, dif_neg (by omega), List.getElem_replicate]

/-- What SHW leaves in its register. -/
theorem effectOf_shw_words (s : State) (rd rs1 : Nat) (n : Int) :
    (effectOf (.shw rd rs1 n) s).words rd s.cfg.w = shiftWords (s.words rs1 s.cfg.w) n := by
  have hwords := setWords_words_same s rd (shiftWords (s.words rs1 s.cfg.w) n)
  rwa [length_shiftWords, length_words] at hwords

theorem effectOf_shw_word (s : State) (rd rs1 k : Nat) (n : Int) (hk : k < (shiftWords (s.words rs1 s.cfg.w) n).length) :
    (effectOf (.shw rd rs1 n) s).word rd k = (shiftWords (s.words rs1 s.cfg.w) n)[k] :=
  setWords_word s rd _ k hk

/-- Settles O23. -/
theorem shwShiftsWholeWords : Obligations.ShwShiftsWholeWords := by
  intro s rd rs1 n hrd hrs1
  refine ⟨_, exec_of_legal _ s (shw_legal s.cfg rd rs1 n hrd hrs1), rfl, sameOutside_setWords s rd _ _ (by simp),
    fun hn => ⟨fun k hk => ?_, ?_⟩, fun hn => ⟨fun k hk => ?_, ?_⟩⟩
  · rw [effectOf_shw_word s rd rs1 k n (by simpa using hk), getElem_shiftWords_right s rs1 k n hn]
  · rw [State.val, effectOf_shw_words, wordsValue_shiftWords_right _ n hn, State.val]
  · rw [effectOf_shw_word s rd rs1 k n (by simpa using hk), getElem_shiftWords_left s rs1 k n hn]
  · rw [State.val, effectOf_shw_words, wordsValue_shiftWords_left _ n hn, length_words, State.val]

/-! ### Compares -/

theorem effectOf_cmpge_ge_iff (s : State) (rs1 rs2 : Nat) :
    (effectOf (.cmpge rs1 rs2) s).ge = true ↔ s.val rs2 s.cfg.w ≤ s.val rs1 s.cfg.w :=
  decide_eq_true_iff

/-- Settles O27. -/
theorem cmpgeComparesMagnitudes : Obligations.CmpgeComparesMagnitudes := by
  intro s rs1 rs2 hrs1 hrs2
  refine ⟨_, exec_of_legal _ s (cmpge_legal s.cfg rs1 rs2 hrs1 hrs2), rfl, effectOf_cmpge_ge_iff s rs1 rs2, ?_⟩
  rw [effectOf_cmpge_ge_iff, ← val_eq_iff, ← val_lt_iff, eq_comm, Nat.le_iff_lt_or_eq, or_comm]

/-- Settles O29: the order of numbers is total. -/
theorem compareIsTotal : Obligations.CompareIsTotal := by
  intro s a b ha hb
  obtain ⟨t, ht, -, hab, -⟩ := cmpgeComparesMagnitudes s a b ha hb
  obtain ⟨u, hu, -, hba, -⟩ := cmpgeComparesMagnitudes s b a hb ha
  refine ⟨t, u, ht, hu, fun hne => ?_, fun heq => ⟨hab.2 heq.ge, hba.2 heq.le⟩⟩
  rw [Bool.eq_not_iff, Ne, Bool.eq_iff_iff, hab, hba]
  omega

end Sys2Proof.Machine
end

section
/-! PROOFS. The family 42_multiply_divide: the products and quotients as one equation of numbers each, a pair as its two
registers, the round trips, and the procedures of the source against the equations. -/

namespace Sys2Proof.Machine

/-! ### When the commands are legal -/

theorem muls_legal (s : State) (rd L : Nat) (hL : L ≤ 2 * s.cfg.w) (hrd : s.holds rd L) :
    operandFault s.cfg (.muls rd L) = none := by
  rw [operandFault_eq_none_iff]
  simp [countInRange, operandsOf, operandsClash, operandExists_iff, hL, hrd]

/-- DIVS is checked as MULS is (60_exceptions R183). -/
theorem divs_legal (s : State) (rd L : Nat) (hL : L ≤ 2 * s.cfg.w) (hrd : s.holds rd L) :
    operandFault s.cfg (.divs rd L) = none :=
  muls_legal s rd L hL hrd

theorem mul_legal (cfg : Config) (pd rs1 rs2 : Nat) (hpd : pd + 1 < cfg.nreg) (hrs1 : rs1 < cfg.nreg)
    (hrs2 : rs2 < cfg.nreg) (hout1 : outsidePair pd rs1) (hout2 : outsidePair pd rs2) :
    operandFault cfg (.mul pd rs1 rs2) = none := by
  rw [operandFault_eq_none_iff]
  have hfirst : pd < cfg.nreg := by omega
  simp [countInRange, operandsOf, operandsClash, operandExists_iff, insidePair, hfirst, hrs1, hrs2, hout1, hout2,
    pair_inside cfg pd hpd, register_inside cfg rs1 hrs1, register_inside cfg rs2 hrs2]

/-- DIV is checked as MUL is (60_exceptions R183, R184). -/
theorem div_legal (cfg : Config) (pd rs1 rs2 : Nat) (hpd : pd + 1 < cfg.nreg) (hrs1 : rs1 < cfg.nreg)
    (hrs2 : rs2 < cfg.nreg) (hout1 : outsidePair pd rs1) (hout2 : outsidePair pd rs2) :
    operandFault cfg (.div pd rs1 rs2) = none :=
  mul_legal cfg pd rs1 rs2 hpd hrs1 hrs2 hout1 hout2

/-! ### A value and what its words must be -/

theorem word_eq_zero_iff (v : Word) : v = 0 ↔ v.toNat = 0 := BitVec.toNat_inj.symm

theorem val_eq_zero_iff (s : State) (r L : Nat) : s.val r L = 0 ↔ ∀ k < L, s.word r k = 0 := by
  induction L with
  | zero => simp
  | succ L ih =>
    rw [val_succ, Nat.forall_lt_succ_right, ← ih, word_eq_zero_iff]
    omega

/-- The greatest value is the one whose words are all ones. -/
theorem val_allOnes_iff (s : State) (r L : Nat) :
    s.val r L + 1 = 2 ^ (64 * L) ↔ ∀ k < L, s.word r k = 0xFFFFFFFFFFFFFFFF#64 := by
  induction L with
  | zero => simp
  | succ L ih =>
    have hword := (s.word r L).isLt
    rw [val_succ, Nat.forall_lt_succ_right, ← ih, ← BitVec.toNat_inj, BitVec.toNat_ofNat, Nat.mul_add, Nat.pow_add]
    omega

/-- A buffer that is zero but for word i holds that word with its weight (00_scope R9). -/
theorem val_eq_single_iff (s : State) (r L i : Nat) (a : Word) (hi : i < L) :
    s.val r L = a.toNat * 2 ^ (64 * (L - 1 - i)) ↔ ∀ k < L, s.word r k = if k = i then a else 0 := by
  induction L with
  | zero => omega
  | succ L ih =>
    have hword := (s.word r L).isLt
    rw [val_succ, Nat.forall_lt_succ_right]
    rcases Nat.eq_or_lt_of_le (Nat.le_of_lt_succ hi) with rfl | hlt
    · have hzero : (∀ k < i, s.word r k = if k = i then a else 0) ↔ s.val r i = 0 := by
        rw [val_eq_zero_iff]
        exact forall₂_congr fun k hk => by rw [if_neg hk.ne]
      have ha := a.isLt
      rw [hzero, if_pos rfl, ← BitVec.toNat_inj, Nat.add_sub_cancel, Nat.sub_self, Nat.mul_zero, Nat.pow_zero]
      omega
    · have hweight : 64 * (L + 1 - 1 - i) = 64 * (L - 1 - i) + 64 := by omega
      rw [← ih hlt, if_neg hlt.ne', word_eq_zero_iff, hweight, Nat.pow_add, ← Nat.mul_assoc]
      omega

/-- Words outside the buffer a command writes are as before. -/
theorem val_of_sameOutside {s t : State} {r L : Nat} (h : s.sameOutside t r L) (hcfg : t.cfg = s.cfg) (r' L' : Nat)
    (hapart : r' * s.cfg.w + L' ≤ r * s.cfg.w ∨ r * s.cfg.w + L ≤ r' * s.cfg.w) : t.val r' L' = s.val r' L' := by
  have hbase := base_bytes s r
  rw [val_eq_iff]
  intro k hk
  simp only [State.word, State.base, hcfg] at hbase ⊢
  exact readWord_congr _ _ _ _ fun j hj => h _ (by omega)

/-! ### A pair as its two registers -/

/-- A register outside a pair has no word in common with it (60_exceptions R184). -/
theorem register_apart_of_outsidePair (s : State) {pd r : Nat} (h : outsidePair pd r) :
    r * s.cfg.w + s.cfg.w ≤ pd * s.cfg.w ∨ pd * s.cfg.w + 2 * s.cfg.w ≤ r * s.cfg.w := by
  rw [← Nat.succ_mul, ← Nat.add_mul]
  obtain ⟨hne, hne'⟩ := h
  exact (show r + 1 ≤ pd ∨ pd + 2 ≤ r by omega).imp (Nat.mul_le_mul_right _) (Nat.mul_le_mul_right _)

theorem val_pair (s : State) (pd : Nat) :
    s.val pd (2 * s.cfg.w) = s.val pd s.cfg.w * 2 ^ (64 * s.cfg.w) + s.val (pd + 1) s.cfg.w := by
  rw [Nat.two_mul, val_register_append]

/-- The first register of a pair is its high half and the second one its low half (10_state R22). -/
theorem pair_halves (s : State) (pd hi lo : Nat) (hlo : lo < 2 ^ (64 * s.cfg.w))
    (h : s.val pd (2 * s.cfg.w) = hi * 2 ^ (64 * s.cfg.w) + lo) :
    s.val pd s.cfg.w = hi ∧ s.val (pd + 1) s.cfg.w = lo := by
  have hlow := val_lt s (pd + 1) s.cfg.w
  rw [val_pair, Nat.mul_comm, Nat.mul_comm hi] at h
  have hhi := congrArg (· / 2 ^ (64 * s.cfg.w)) h
  simp only [Nat.mul_add_div (Nat.two_pow_pos _), Nat.div_eq_of_lt hlow, Nat.div_eq_of_lt hlo, Nat.add_zero] at hhi
  subst hhi
  exact ⟨rfl, Nat.add_left_cancel h⟩

/-- Two registers multiply to a number that fits a pair. -/
theorem mul_register_lt {w a b : Nat} (ha : a < 2 ^ (64 * w)) (hb : b < 2 ^ (64 * w)) : a * b < 2 ^ (64 * (2 * w)) := by
  rw [show 64 * (2 * w) = 64 * w + 64 * w by omega, Nat.pow_add]
  exact Nat.mul_lt_mul'' ha hb

/-! ### Products -/

theorem effectOf_muls_val (s : State) (rd L : Nat) :
    (effectOf (.muls rd L) s).val rd L = s.val rd L * s.opa.toNat % 2 ^ (64 * L) :=
  (setVal_val_same s rd L _).trans (Nat.mod_mod _ _)

/-- The part of the product above the buffer is one word (42_multiply_divide R131). -/
theorem effectOf_muls_res_toNat (s : State) (rd L : Nat) :
    (effectOf (.muls rd L) s).res.toNat = s.val rd L * s.opa.toNat / 2 ^ (64 * L) := by
  have hhigh : s.val rd L * s.opa.toNat / 2 ^ (64 * L) < 2 ^ 64 :=
    Nat.div_lt_of_lt_mul (Nat.mul_lt_mul'' (val_lt s rd L) s.opa.isLt)
  exact (BitVec.toNat_ofNat _ 64).trans (Nat.mod_eq_of_lt hhigh)

/-- Settles O33. -/
theorem mulsWritesProductAndHighWord : Obligations.MulsWritesProductAndHighWord := by
  intro s rd L hL hrd
  exact ⟨_, exec_of_legal _ s (muls_legal s rd L hL hrd), rfl, setVal_readByte_outside s rd L _, effectOf_muls_val s rd L,
    effectOf_muls_res_toNat s rd L⟩

theorem effectOf_mul_val (s : State) (pd rs1 rs2 : Nat) :
    (effectOf (.mul pd rs1 rs2) s).val pd (2 * s.cfg.w) = s.val rs1 s.cfg.w * s.val rs2 s.cfg.w :=
  (setVal_val_same s pd (2 * s.cfg.w) _).trans
    (Nat.mod_eq_of_lt (mul_register_lt (val_lt s rs1 s.cfg.w) (val_lt s rs2 s.cfg.w)))

/-- Settles O34. -/
theorem mulWritesTheFullProduct : Obligations.MulWritesTheFullProduct := by
  intro s pd rs1 rs2 hpd hrs1 hrs2 hout1 hout2
  have hval := effectOf_mul_val s pd rs1 rs2
  exact ⟨_, exec_of_legal _ s (mul_legal s.cfg pd rs1 rs2 hpd hrs1 hrs2 hout1 hout2), rfl,
    setVal_readByte_outside s pd _ _, hval,
    pair_halves _ pd _ _ (Nat.mod_lt _ (Nat.two_pow_pos _)) (hval.trans (Nat.div_add_mod' _ _).symm)⟩

/-! ### Quotients by OPA -/

theorem divsInto_of_ne (s : State) (rd L : Nat) (h : s.opa ≠ 0) :
    divsInto s rd L =
      { s.setVal rd L (s.val rd L / s.opa.toNat) with
        res := BitVec.ofNat 64 (s.val rd L % s.opa.toNat), zf := quotientZero (s.val rd L / s.opa.toNat) } := by
  simp only [divsInto, divsWords, if_neg h]
  rfl

theorem opa_toNat_pos {s : State} (h : s.opa ≠ 0) : 0 < s.opa.toNat :=
  Nat.pos_of_ne_zero (mt (word_eq_zero_iff s.opa).2 h)

theorem divsInto_val (s : State) (rd L : Nat) (h : s.opa ≠ 0) :
    (divsInto s rd L).val rd L = s.val rd L / s.opa.toNat := by
  rw [divsInto_of_ne s rd L h]
  exact (setVal_val_same s rd L _).trans (Nat.mod_eq_of_lt ((Nat.div_le_self _ _).trans_lt (val_lt s rd L)))

theorem divsInto_res_toNat (s : State) (rd L : Nat) (h : s.opa ≠ 0) :
    (divsInto s rd L).res.toNat = s.val rd L % s.opa.toNat := by
  rw [divsInto_of_ne s rd L h]
  exact (BitVec.toNat_ofNat _ 64).trans
    (Nat.mod_eq_of_lt ((Nat.mod_lt _ (opa_toNat_pos h)).trans s.opa.isLt))

/-- ZF says that the quotient written is zero (42_multiply_divide R134). -/
theorem divsInto_zf_iff (s : State) (rd L : Nat) (h : s.opa ≠ 0) :
    (divsInto s rd L).zf = true ↔ ∀ k < L, (divsInto s rd L).word rd k = 0 := by
  rw [← val_eq_zero_iff, divsInto_val s rd L h, divsInto_of_ne s rd L h]
  exact decide_eq_true_iff

theorem divsInto_sameOutside (s : State) (rd L : Nat) : s.sameOutside (divsInto s rd L) rd L :=
  sameOutside_setWords s rd L (divsWords s rd L) (length_divsWords s rd L)

/-- Settles O35. -/
theorem divsWritesQuotientAndRemainder : Obligations.DivsWritesQuotientAndRemainder := by
  intro s rd L hL hrd hopa
  exact ⟨_, exec_of_legal _ s (divs_legal s rd L hL hrd), rfl, divsInto_sameOutside s rd L, divsInto_val s rd L hopa,
    divsInto_res_toNat s rd L hopa, divsInto_zf_iff s rd L hopa⟩

theorem divsInto_of_zero (s : State) (rd L : Nat) (h : s.opa = 0) :
    divsInto s rd L = { s.setWords rd (List.replicate L sentinel) with zf := false } := by
  simp only [divsInto, divsWords, if_pos h]
  rfl

/-- A buffer filled with the sentinel is all ones (42_multiply_divide R134, R138). -/
theorem setWords_sentinel_word (s : State) (r L k : Nat) (hk : k < L) :
    (s.setWords r (List.replicate L sentinel)).word r k = 0xFFFFFFFFFFFFFFFF#64 := by
  rw [setWords_word s r _ k (by simpa using hk), List.getElem_replicate]
  rfl

/-- Settles O36. -/
theorem divsByZeroWritesTheSentinel : Obligations.DivsByZeroWritesTheSentinel := by
  intro s rd L hL hrd hopa
  have heffect : effectOf (.divs rd L) s = _ := divsInto_of_zero s rd L hopa
  refine ⟨_, exec_of_legal _ s (divs_legal s rd L hL hrd), ?_, divsInto_sameOutside s rd L, ?_⟩
  · rw [heffect]
    rfl
  · rw [heffect]
    exact setWords_sentinel_word s rd L

/-! ### Quotients by a register -/

/-- The quotient of a register, shifted up by one register, fits a pair (42_multiply_divide R136). -/
theorem shifted_quotient_lt {w N D : Nat} (hN : N < 2 ^ (64 * w)) : N * 2 ^ (64 * w) / D < 2 ^ (64 * (2 * w)) := by
  rw [show 64 * (2 * w) = 64 * w + 64 * w by omega, Nat.pow_add]
  exact (Nat.div_le_self _ _).trans_lt (Nat.mul_lt_mul_of_pos_right hN (Nat.two_pow_pos _))

/-- The shifted quotient is the integer quotient and, below it, that of the shifted remainder. -/
theorem shifted_quotient_split (N D P : Nat) (hD : 0 < D) : N * P / D = N / D * P + N % D * P / D := by
  have hN : N * P = D * (N / D * P) + N % D * P := by
    conv_lhs => rw [← Nat.div_add_mod N D]
    ring
  rw [hN, Nat.mul_add_div hD]

theorem shifted_remainder_lt (N D P : Nat) (hD : 0 < D) (hP : 0 < P) : N % D * P / D < P :=
  Nat.div_lt_of_lt_mul (Nat.mul_lt_mul_of_pos_right (Nat.mod_lt N hD) hP)

theorem effectOf_div_val (s : State) (pd rs1 rs2 : Nat) (hD : s.val rs2 s.cfg.w ≠ 0) :
    (effectOf (.div pd rs1 rs2) s).val pd (2 * s.cfg.w) =
      s.val rs1 s.cfg.w * 2 ^ (64 * s.cfg.w) / s.val rs2 s.cfg.w := by
  show (s.setWords pd (quotientWords s.cfg.w _ _)).val pd (2 * s.cfg.w) = _
  rw [quotientWords, if_neg hD]
  exact (setVal_val_same s pd _ _).trans (Nat.mod_eq_of_lt (shifted_quotient_lt (val_lt s rs1 s.cfg.w)))

theorem effectOf_div_word_of_zero (s : State) (pd rs1 rs2 : Nat) (hD : s.val rs2 s.cfg.w = 0) :
    ∀ k < 2 * s.cfg.w, (effectOf (.div pd rs1 rs2) s).word pd k = 0xFFFFFFFFFFFFFFFF#64 := by
  show ∀ k < 2 * s.cfg.w, (s.setWords pd (quotientWords s.cfg.w _ _)).word pd k = _
  rw [quotientWords, if_pos hD]
  exact setWords_sentinel_word s pd _

theorem effectOf_div_sameOutside (s : State) (pd rs1 rs2 : Nat) :
    s.sameOutside (effectOf (.div pd rs1 rs2) s) pd (2 * s.cfg.w) :=
  sameOutside_setWords s pd _ _ (length_quotientWords _ _ _)

/-- Settles O37. -/
theorem divWritesIntegerAndFraction : Obligations.DivWritesIntegerAndFraction := by
  intro s pd rs1 rs2 hpd hrs1 hrs2 hout1 hout2 hD
  have hpos := Nat.pos_of_ne_zero hD
  have hval := effectOf_div_val s pd rs1 rs2 hD
  exact ⟨_, exec_of_legal _ s (div_legal s.cfg pd rs1 rs2 hpd hrs1 hrs2 hout1 hout2), rfl,
    effectOf_div_sameOutside s pd rs1 rs2, hval,
    pair_halves _ pd _ _ (shifted_remainder_lt _ _ _ hpos (Nat.two_pow_pos _))
      (hval.trans (shifted_quotient_split _ _ _ hpos))⟩

/-- No quotient of a register is all ones over a pair: the numerator's low half is zero (42_multiply_divide R138). -/
theorem shifted_quotient_not_allOnes {w N D : Nat} (hw : 1 ≤ w) (hN : N < 2 ^ (64 * w)) :
    N * 2 ^ (64 * w) / D + 1 ≠ 2 ^ (64 * (2 * w)) := by
  have hle : N * 2 ^ (64 * w) / D ≤ N * 2 ^ (64 * w) := Nat.div_le_self _ _
  have hhigh : (N + 1) * 2 ^ (64 * w) ≤ 2 ^ (64 * w) * 2 ^ (64 * w) := Nat.mul_le_mul_right _ hN
  have hP : 2 ^ 1 ≤ 2 ^ (64 * w) := Nat.pow_le_pow_right (by omega) (by omega)
  rw [show 64 * (2 * w) = 64 * w + 64 * w by omega, Nat.pow_add]
  rw [Nat.succ_mul] at hhigh
  omega

/-- Settles O38. -/
theorem divSentinelMeansZeroDivisor : Obligations.DivSentinelMeansZeroDivisor := by
  intro s pd rs1 rs2 hw hpd hrs1 hrs2 hout1 hout2
  refine ⟨_, exec_of_legal _ s (div_legal s.cfg pd rs1 rs2 hpd hrs1 hrs2 hout1 hout2), rfl,
    effectOf_div_sameOutside s pd rs1 rs2, fun hones => ?_, effectOf_div_word_of_zero s pd rs1 rs2⟩
  by_contra hD
  rw [← val_allOnes_iff, effectOf_div_val s pd rs1 rs2 hD] at hones
  exact shifted_quotient_not_allOnes hw (val_lt s rs1 s.cfg.w) hones

/-! ### Round trips -/

/-- Settles O39: with RES = 0 the buffer holds the whole product, which OPA divides. -/
theorem divsUndoesMuls : Obligations.DivsUndoesMuls := by
  intro s rd L hL hrd hopa
  refine ⟨_, _, exec_of_legal _ s (muls_legal s rd L hL hrd),
    exec_of_legal _ (effectOf (.muls rd L) s) (divs_legal (effectOf (.muls rd L) s) rd L hL hrd), fun hfits => ?_⟩
  have hval := effectOf_muls_val s rd L
  have hres := effectOf_muls_res_toNat s rd L
  have hquot : (effectOf (.divs rd L) (effectOf (.muls rd L) s)).val rd L = _ := divsInto_val _ rd L hopa
  have hrem : (effectOf (.divs rd L) (effectOf (.muls rd L) s)).res.toNat = _ := divsInto_res_toNat _ rd L hopa
  rw [(word_eq_zero_iff _).1 hfits, eq_comm, Nat.div_eq_zero_iff_lt (Nat.two_pow_pos _)] at hres
  rw [hval, effectOf_opa, Nat.mod_eq_of_lt hres] at hquot hrem
  rw [Nat.mul_div_cancel _ (opa_toNat_pos hopa), val_eq_iff] at hquot
  rw [Nat.mul_mod_left, ← word_eq_zero_iff] at hrem
  exact ⟨hquot, hrem⟩

/-- Settles O40: the product fits register pd + 1, and rb divides it. -/
theorem divUndoesMul : Obligations.DivUndoesMul := by
  intro s pd pe ra rb hpd hpe hra hrb hpdra hpdrb hpepd hperb hfits hB
  obtain ⟨t, hmul, hframe, hsame, -, hhigh, hlow⟩ := mulWritesTheFullProduct s pd ra rb hpd hra hrb hpdra hpdrb
  have hcfg : t.cfg = s.cfg := by rw [hframe]
  have hrbT : t.val rb s.cfg.w = s.val rb s.cfg.w :=
    val_of_sameOutside hsame hcfg rb s.cfg.w (register_apart_of_outsidePair s hpdrb)
  obtain ⟨u, hdiv, -, -, -, hint, hfrac⟩ := divWritesIntegerAndFraction t pe (pd + 1) rb (hcfg ▸ hpe) (hcfg ▸ hpd)
    (hcfg ▸ hrb) hpepd hperb (by rwa [hcfg, hrbT])
  rw [Nat.div_eq_of_lt hfits] at hhigh
  rw [Nat.mod_eq_of_lt hfits] at hlow
  rw [hcfg, hrbT, hlow] at hint hfrac
  rw [Nat.mul_div_cancel _ (Nat.pos_of_ne_zero hB)] at hint
  rw [Nat.mul_mod_left, Nat.zero_mul, Nat.zero_div] at hfrac
  exact ⟨t, u, hmul, hdiv, hhigh, hlow, hint, hfrac⟩

/-- A quarter of 1.0 is the word 2^62 one place lower, without a remainder (42_multiply_divide R141). -/
theorem quarter_of_one (w : Nat) (hw : 1 ≤ w) :
    (1 : Word).toNat * 2 ^ (64 * (2 * w - 1 - (w - 1))) / (4 : Word).toNat =
        (0x4000000000000000#64).toNat * 2 ^ (64 * (2 * w - 1 - w)) ∧
      (1 : Word).toNat * 2 ^ (64 * (2 * w - 1 - (w - 1))) % (4 : Word).toNat = 0 := by
  have hweight : 64 * (2 * w - 1 - (w - 1)) = 64 * (2 * w - 1 - w) + 64 := by omega
  have hone : (1 : Word).toNat = 1 := rfl
  have hfour : (4 : Word).toNat = 4 := rfl
  have hquarter : (0x4000000000000000#64).toNat = 2 ^ 62 := rfl
  rw [hweight, Nat.pow_add, hone, hfour, hquarter]
  omega

/-- Settles O41. -/
theorem oneDividedByFourIsAQuarter : Obligations.OneDividedByFourIsAQuarter := by
  intro s hw hnreg hopa hone
  have hholds : s.holds 0 (2 * s.cfg.w) := ⟨by omega, by simpa using Nat.mul_le_mul_right s.cfg.w hnreg⟩
  obtain ⟨hquot, hrem⟩ := quarter_of_one s.cfg.w hw
  rw [← val_eq_single_iff s 0 _ _ 1 (by omega)] at hone
  rw [← hone, ← hopa] at hquot hrem
  have hfour : s.opa ≠ 0 := by rw [hopa]; decide
  obtain ⟨t, ht, hframe, -, htval, htres, htzf⟩ :=
    divsWritesQuotientAndRemainder s 0 (2 * s.cfg.w) le_rfl hholds hfour
  have hcfg : t.cfg = s.cfg := by rw [hframe]
  obtain ⟨u, hu, -, -, huval, hures, huzf⟩ :=
    divsWritesQuotientAndRemainder { t with opa := 1 } 0 (2 * s.cfg.w) (by rw [hcfg])
      (by simpa only [State.holds, hcfg] using hholds) (show (1 : Word) ≠ 0 by decide)
  have hquarter := (val_eq_single_iff t 0 _ s.cfg.w _ (by omega)).1 (htval.trans hquot)
  have hwords := (val_eq_iff u t 0 0 _).1 (huval.trans (Nat.div_one _))
  have hnonzero : t.word 0 s.cfg.w ≠ 0 := by
    rw [hquarter s.cfg.w (by omega), if_pos rfl]
    decide
  refine ⟨t, u, ht, hu, hquarter, (word_eq_zero_iff _).2 (htres.trans hrem), ?_, hwords,
    (word_eq_zero_iff _).2 (hures.trans (Nat.mod_one _)), ?_⟩
  · exact Bool.eq_false_iff.2 fun hzf => hnonzero (htzf.1 hzf _ (by omega))
  · exact Bool.eq_false_iff.2 fun hzf => hnonzero ((hwords _ (by omega)).symm.trans (huzf.1 hzf _ (by omega)))

/-! ### The word-by-word procedures of MULS and DIVS -/

/-- One step of MULS: the two words of `x * v + c`, which never pass 128 bits (42_multiply_divide R131). -/
theorem mulWord_eq (x v c : Word) :
    (adc64 (mul64 x v).2 c false).1 = BitVec.ofNat 64 (x.toNat * v.toNat + c.toNat) ∧
      (mul64 x v).1 + BitVec.ofNat 64 (adc64 (mul64 x v).2 c false).2.toNat =
        BitVec.ofNat 64 ((x.toNat * v.toNat + c.toNat) / 2 ^ 64) := by
  have hsum := adc64_exact (mul64 x v).2 c false
  have hlow := (adc64 (mul64 x v).2 c false).1.isLt
  have hcarry := (adc64 (mul64 x v).2 c false).2.toNat_le
  have hproduct : (mul64 x v).2.toNat = x.toNat * v.toNat % 2 ^ 64 := by simp [mul64]
  have hhigh : (mul64 x v).1 = BitVec.ofNat 64 (x.toNat * v.toNat / 2 ^ 64) := rfl
  rw [hproduct, Bool.toNat_false] at hsum
  constructor
  · apply BitVec.eq_of_toNat_eq
    rw [BitVec.toNat_ofNat]
    omega
  · rw [hhigh, ← BitVec.ofNat_add]
    congr 1
    omega

/-- The chain leaves the low words of the product and the word above them (42_multiply_divide R131). -/
theorem mulScalarChain_eq (v : Word) (xs : List Word) :
    mulScalarChain v xs = (valueWords xs.length (wordsValue xs * v.toNat),
      BitVec.ofNat 64 (wordsValue xs * v.toNat / 2 ^ (64 * xs.length))) := by
  induction xs with
  | nil => simp [mulScalarChain, valueWords]
  | cons x xs ih =>
    have hcarry : wordsValue xs * v.toNat / 2 ^ (64 * xs.length) < 2 ^ 64 :=
      Nat.div_lt_of_lt_mul (Nat.mul_lt_mul'' (wordsValue_lt xs) v.isLt)
    have hsplit : wordsValue (x :: xs) * v.toNat =
        2 ^ (64 * xs.length) * (x.toNat * v.toNat) + wordsValue xs * v.toNat := by
      rw [wordsValue_cons]
      ring
    have hdiv : wordsValue (x :: xs) * v.toNat / 2 ^ (64 * xs.length) =
        x.toNat * v.toNat + wordsValue xs * v.toNat / 2 ^ (64 * xs.length) := by
      rw [hsplit, Nat.mul_add_div (Nat.two_pow_pos _)]
    have hlow : valueWords xs.length (wordsValue (x :: xs) * v.toNat) =
        valueWords xs.length (wordsValue xs * v.toNat) := by
      rw [← valueWords_mod, hsplit, Nat.mul_add_mod, valueWords_mod]
    obtain ⟨hword, hhigh⟩ := mulWord_eq x v (BitVec.ofNat 64 (wordsValue xs * v.toNat / 2 ^ (64 * xs.length)))
    rw [BitVec.toNat_ofNat, Nat.mod_eq_of_lt hcarry, ← hdiv] at hword hhigh
    rw [Nat.div_div_eq_div_mul, ← Nat.pow_add] at hhigh
    simp only [mulScalarChain, ih, hword, hhigh, List.length_cons, valueWords_succ, hlow, Nat.mul_succ]

/-- One step of DIVS, for a remainder below the divisor (42_multiply_divide R134). -/
theorem div128_toNat {hi d : Word} (lo : Word) (h : hi.toNat < d.toNat) :
    (div128 hi lo d).1.toNat = (hi.toNat * 2 ^ 64 + lo.toNat) / d.toNat ∧
      (div128 hi lo d).2.toNat = (hi.toNat * 2 ^ 64 + lo.toNat) % d.toNat := by
  have hlo := lo.isLt
  have hquot : (hi.toNat * 2 ^ 64 + lo.toNat) / d.toNat < 2 ^ 64 :=
    Nat.div_lt_of_lt_mul (by omega)
  have hrem := (Nat.mod_lt (hi.toNat * 2 ^ 64 + lo.toNat) (Nat.zero_lt_of_lt h)).trans d.isLt
  exact ⟨(BitVec.toNat_ofNat _ 64).trans (Nat.mod_eq_of_lt hquot), (BitVec.toNat_ofNat _ 64).trans (Nat.mod_eq_of_lt hrem)⟩

/-- One step of DIVS divides the leading two words; the quotient's other words come from what it leaves
(42_multiply_divide R134). -/
theorem divWord_split {r d x : Word} (xs : List Word) (hr : r.toNat < d.toNat) :
    r.toNat * 2 ^ (64 * (xs.length + 1)) + wordsValue (x :: xs) =
      d.toNat * (2 ^ (64 * xs.length) * (div128 r x d).1.toNat) +
        ((div128 r x d).2.toNat * 2 ^ (64 * xs.length) + wordsValue xs) := by
  obtain ⟨hq, hrem⟩ := div128_toNat x hr
  have hstep := Nat.div_add_mod (r.toNat * 2 ^ 64 + x.toNat) d.toNat
  rw [← hq, ← hrem] at hstep
  rw [wordsValue_cons, Nat.mul_succ, Nat.pow_add]
  calc r.toNat * (2 ^ (64 * xs.length) * 2 ^ 64) + (x.toNat * 2 ^ (64 * xs.length) + wordsValue xs)
      = (r.toNat * 2 ^ 64 + x.toNat) * 2 ^ (64 * xs.length) + wordsValue xs := by ring
    _ = _ := by rw [← hstep]; ring

/-- A remainder and the words after it are below the divisor's weight, so their quotient fits those words. -/
theorem partial_quotient_lt {r d : Word} (xs : List Word) (hr : r.toNat < d.toNat) :
    (r.toNat * 2 ^ (64 * xs.length) + wordsValue xs) / d.toNat < 2 ^ (64 * xs.length) := by
  have hxs := wordsValue_lt xs
  have hle := Nat.mul_le_mul_right (2 ^ (64 * xs.length)) (Nat.succ_le_of_lt hr)
  rw [Nat.succ_mul] at hle
  exact Nat.div_lt_of_lt_mul (by omega)

/-- A quotient is zero when its first word and the rest of it are. -/
theorem quotientZero_mul_add {P : Nat} (hP : 0 < P) (q : Word) (v : Nat) :
    quotientZero (P * q.toNat + v) = (decide (q = 0) && quotientZero v) := by
  rw [Bool.eq_iff_iff, Bool.and_eq_true]
  simp only [quotientZero, decide_eq_true_iff, word_eq_zero_iff, Nat.add_eq_zero_iff, Nat.mul_eq_zero, hP.ne', false_or]

/-- The chain divides the number the remainder and the words make together (42_multiply_divide R134). -/
theorem divScalarChain_eq (d r : Word) (z : Bool) (xs : List Word) (hr : r.toNat < d.toNat) :
    divScalarChain d r z xs =
      (valueWords xs.length ((r.toNat * 2 ^ (64 * xs.length) + wordsValue xs) / d.toNat),
        BitVec.ofNat 64 ((r.toNat * 2 ^ (64 * xs.length) + wordsValue xs) % d.toNat),
        z && quotientZero ((r.toNat * 2 ^ (64 * xs.length) + wordsValue xs) / d.toNat)) := by
  induction xs generalizing r z with
  | nil => simp [divScalarChain, valueWords, quotientZero, Nat.mod_eq_of_lt hr, Nat.div_eq_of_lt hr]
  | cons x xs ih =>
    have hd : 0 < d.toNat := Nat.zero_lt_of_lt hr
    have hP : 0 < 2 ^ (64 * xs.length) := Nat.two_pow_pos _
    have hnext : (div128 r x d).2.toNat < d.toNat := (div128_toNat x hr).2 ▸ Nat.mod_lt _ hd
    have hlow := partial_quotient_lt xs hnext
    rw [divScalarChain, ih _ _ hnext, List.length_cons, divWord_split xs hr, Nat.mul_add_div hd, Nat.mul_add_mod,
      valueWords_succ, Nat.mul_add_div hP, Nat.div_eq_of_lt hlow, ← valueWords_mod xs.length (_ + _), Nat.mul_add_mod,
      valueWords_mod, quotientZero_mul_add hP, Nat.add_zero, BitVec.ofNat_toNat, BitVec.setWidth_eq, Bool.and_assoc]

/-- From a zero remainder on, the chain divides the number the words hold. -/
theorem divScalarChain_zero (d : Word) (xs : List Word) (hd : 0 < d.toNat) :
    divScalarChain d 0 true xs =
      (valueWords xs.length (wordsValue xs / d.toNat), BitVec.ofNat 64 (wordsValue xs % d.toNat),
        quotientZero (wordsValue xs / d.toNat)) := by
  simpa using divScalarChain_eq d 0 true xs hd

/-- Settles O42. -/
theorem scalarChainsAgree : Obligations.ScalarChainsAgree := by
  refine ⟨fun s t rd L hlegal ht => ?_, fun s t rd L hlegal hopa ht => ?_⟩
  · obtain rfl := eq_effectOf_of_exec _ s t hlegal ht
    have hwords : (effectOf (.muls rd L) s).words rd L = _ := setVal_words_same s rd L _
    rw [mulScalarChain_eq, length_words, hwords, valueWords_mod]
    rfl
  · obtain rfl := eq_effectOf_of_exec _ s t hlegal ht
    rw [divScalarChain_zero s.opa _ (opa_toNat_pos hopa), length_words, effectOf, divsInto_of_ne s rd L hopa]
    exact Prod.ext (setVal_words_same s rd L (s.val rd L / s.opa.toNat)) rfl

/-! ### The schoolbook product -/

/-- A fold whose every step adds to a number, modulo M, adds the sum. -/
theorem foldl_modEq {α β : Type} (M : Nat) (ok : β → Prop) (value : β → Nat) (f : β → α → β) (g : α → Nat) (l : List α)
    (hf : ∀ acc, ok acc → ∀ j ∈ l, ok (f acc j) ∧ value (f acc j) ≡ value acc + g j [MOD M]) (acc : β) (hacc : ok acc) :
    ok (l.foldl f acc) ∧ value (l.foldl f acc) ≡ value acc + (l.map g).sum [MOD M] := by
  induction l generalizing acc with
  | nil => exact ⟨hacc, Nat.ModEq.refl _⟩
  | cons j l ih =>
    obtain ⟨hok, hvalue⟩ := hf acc hacc j List.mem_cons_self
    obtain ⟨hokRest, hrest⟩ := ih (fun acc hacc k hk => hf acc hacc k (List.mem_cons_of_mem j hk)) (f acc j) hok
    refine ⟨hokRest, hrest.trans ?_⟩
    rw [List.map_cons, List.sum_cons, ← Nat.add_assoc]
    exact hvalue.add_right _

/-- The value of words is the sum of the words by their weights (00_scope R9). -/
theorem wordsValue_eq_sum (ws : List Word) :
    wordsValue ws = ((List.range ws.length).map fun j => (ws.getD j 0).toNat * 2 ^ (64 * (ws.length - 1 - j))).sum := by
  induction ws with
  | nil => rfl
  | cons w ws ih =>
    rw [wordsValue_cons, ih, List.length_cons, List.range_succ_eq_map, List.map_cons, List.sum_cons, List.map_map]
    congr 2
    refine List.map_congr_left fun j _ => ?_
    simp only [Function.comp, List.getD_cons_succ]
    congr 3
    omega

theorem length_addScalarChain (xs : List Word) (v : Word) (h : 0 < xs.length) :
    (addScalarChain xs v).1.length = xs.length :=
  length_addChain _ _ _ (by simp; omega)

theorem addScalarChain_exact (xs : List Word) (v : Word) (h : 0 < xs.length) :
    wordsValue (addScalarChain xs v).1 + 2 ^ (64 * xs.length) * (addScalarChain xs v).2.toNat =
      wordsValue xs + v.toNat := by
  have hchain := addChain_exact xs (List.replicate (xs.length - 1) 0 ++ [v]) false (by simp; omega)
  rw [wordsValue_append, wordsValue_replicate_zero] at hchain
  simpa [addScalarChain] using hchain

/-- Adding at a word adds the word's weight, but for the carry past word 0 (42_multiply_divide R133). -/
theorem accumulate_modEq (acc : List Word) (idx : Nat) (v : Word) (h : idx < acc.length) :
    (accumulate acc idx v).length = acc.length ∧
      wordsValue (accumulate acc idx v) ≡ wordsValue acc + v.toNat * 2 ^ (64 * (acc.length - 1 - idx))
        [MOD 2 ^ (64 * acc.length)] := by
  have htake : (acc.take (idx + 1)).length = idx + 1 := by simp; omega
  have hdrop : (acc.drop (idx + 1)).length = acc.length - 1 - idx := by simp; omega
  have hlen := length_addScalarChain (acc.take (idx + 1)) v (by omega)
  have hadd := addScalarChain_exact (acc.take (idx + 1)) v (by omega)
  have hacc := wordsValue_append (acc.take (idx + 1)) (acc.drop (idx + 1))
  have hweight : 64 * acc.length = 64 * (acc.length - 1 - idx) + 64 * (idx + 1) := by omega
  rw [htake] at hlen hadd
  rw [List.take_append_drop, hdrop] at hacc
  have hexact : wordsValue (accumulate acc idx v) +
        2 ^ (64 * acc.length) * (addScalarChain (acc.take (idx + 1)) v).2.toNat =
      wordsValue acc + v.toNat * 2 ^ (64 * (acc.length - 1 - idx)) := by
    rw [accumulate, wordsValue_append, hdrop, hacc, hweight, Nat.pow_add]
    linear_combination 2 ^ (64 * (acc.length - 1 - idx)) * hadd
  refine ⟨by rw [accumulate, List.length_append, hlen, hdrop]; omega, ?_⟩
  rw [← hexact]
  exact (Nat.add_mul_mod_self_left _ _ _).symm

theorem mul64_exact (x y : Word) : (mul64 x y).1.toNat * 2 ^ 64 + (mul64 x y).2.toNat = x.toNat * y.toNat := by
  have hhigh : x.toNat * y.toNat / 2 ^ 64 < 2 ^ 64 := Nat.div_lt_of_lt_mul (Nat.mul_lt_mul'' x.isLt y.isLt)
  simp only [mul64, BitVec.toNat_ofNat]
  omega

/-- Adding both words of a product, the high one one word above the low one (42_multiply_divide R133). -/
theorem accumulate_product_modEq (acc : List Word) (idx : Nat) (x y : Word) (h : idx + 1 < acc.length) :
    (accumulate (accumulate acc (idx + 1) (mul64 x y).2) idx (mul64 x y).1).length = acc.length ∧
      wordsValue (accumulate (accumulate acc (idx + 1) (mul64 x y).2) idx (mul64 x y).1) ≡
        wordsValue acc + x.toNat * y.toNat * 2 ^ (64 * (acc.length - 2 - idx)) [MOD 2 ^ (64 * acc.length)] := by
  obtain ⟨hlow, hlowValue⟩ := accumulate_modEq acc (idx + 1) (mul64 x y).2 h
  obtain ⟨hhigh, hhighValue⟩ :=
    accumulate_modEq (accumulate acc (idx + 1) (mul64 x y).2) idx (mul64 x y).1 (by omega)
  rw [hlow] at hhigh hhighValue
  refine ⟨hhigh, hhighValue.trans ?_⟩
  have hplace : acc.length - 1 - (idx + 1) = acc.length - 2 - idx := by omega
  have hplaceHigh : 64 * (acc.length - 1 - idx) = 64 * (acc.length - 2 - idx) + 64 := by omega
  rw [← mul64_exact, hplaceHigh, Nat.pow_add]
  rw [hplace] at hlowValue
  convert hlowValue.add_right ((mul64 x y).1.toNat * (2 ^ (64 * (acc.length - 2 - idx)) * 2 ^ 64)) using 1
  ring

/-- One row of the schoolbook product adds word i of x times y, in its place (42_multiply_divide R133). -/
theorem schoolbookRow_modEq (x : Word) (ys acc : List Word) (m i : Nat) (hi : i < m) (hacc : acc.length = m + ys.length) :
    (schoolbookRow x ys i acc).length = m + ys.length ∧
      wordsValue (schoolbookRow x ys i acc) ≡
        wordsValue acc + x.toNat * 2 ^ (64 * (m - 1 - i)) * wordsValue ys [MOD 2 ^ (64 * (m + ys.length))] := by
  rw [wordsValue_eq_sum ys, ← List.sum_map_mul_left, ← List.sum_reverse, ← List.map_reverse]
  refine foldl_modEq _ (fun acc => acc.length = m + ys.length) wordsValue _ _ _ (fun acc hacc j hj => ?_) acc hacc
  have hj : j < ys.length := by simpa using hj
  obtain ⟨hlen, hvalue⟩ := accumulate_product_modEq acc (i + j) x (ys.getD j 0) (by omega)
  have hplace : 64 * (acc.length - 2 - (i + j)) = 64 * (m - 1 - i) + 64 * (ys.length - 1 - j) := by omega
  rw [hplace, hacc, Nat.pow_add] at hvalue
  refine ⟨hlen.trans hacc, ?_⟩
  convert hvalue using 2
  ring

/-- The schoolbook procedure leaves the product's words (42_multiply_divide R133). -/
theorem schoolbook_eq (xs ys : List Word) :
    schoolbook xs ys = valueWords (xs.length + ys.length) (wordsValue xs * wordsValue ys) := by
  obtain ⟨hlen, hvalue⟩ : (schoolbook xs ys).length = xs.length + ys.length ∧ wordsValue (schoolbook xs ys) ≡
      wordsValue (List.replicate (xs.length + ys.length) 0) + wordsValue xs * wordsValue ys
        [MOD 2 ^ (64 * (xs.length + ys.length))] := by
    rw [wordsValue_eq_sum xs, ← List.sum_map_mul_right, ← List.sum_reverse, ← List.map_reverse]
    refine foldl_modEq _ (fun acc => acc.length = xs.length + ys.length) wordsValue _ _ _ (fun acc hacc i hi => ?_) _
      List.length_replicate
    exact schoolbookRow_modEq _ ys acc xs.length i (by simpa using hi) hacc
  rw [wordsValue_replicate_zero, Nat.zero_add] at hvalue
  rw [← valueWords_mod, ← hvalue, valueWords_mod, ← hlen, valueWords_wordsValue]

/-- Settles O43. -/
theorem schoolbookProductAgrees : Obligations.SchoolbookProductAgrees := by
  intro s t pd rs1 rs2 hlegal ht
  obtain rfl := eq_effectOf_of_exec _ s t hlegal ht
  rw [schoolbook_eq, length_words, length_words, ← Nat.two_mul]
  exact setVal_words_same s pd _ _

/-! ### Restoring division -/

/-- The bit injected at step n: the numerator's bits, most significant first, and then 0-bits (42_multiply_divide R137). -/
def numeratorBit (w N n : Nat) : Nat := if n < 64 * w then N / 2 ^ (64 * w - 1 - n) % 2 else 0

/-- R and Q after the first n of the 128W steps (42_multiply_divide R137); `restoringQuotient_eq` ties it to the
procedure. -/
def restoringState (w N D n : Nat) : Nat × Nat :=
  (List.range n).foldl
    (fun (RQ : Nat × Nat) t =>
      let r := restoringStep D RQ.1 (numeratorBit w N t)
      (r.1, RQ.2 + r.2 * 2 ^ (128 * w - 1 - t)))
    (0, 0)

theorem restoringQuotient_eq (w N D : Nat) : restoringQuotient w N D = (restoringState w N D (128 * w)).2 := rfl

@[simp] theorem restoringState_zero (w N D : Nat) : restoringState w N D 0 = (0, 0) := rfl

theorem restoringState_succ (w N D n : Nat) :
    restoringState w N D (n + 1) =
      ((restoringStep D (restoringState w N D n).1 (numeratorBit w N n)).1,
        (restoringState w N D n).2 +
          (restoringStep D (restoringState w N D n).1 (numeratorBit w N n)).2 * 2 ^ (128 * w - 1 - n)) := by
  rw [restoringState, List.range_succ, List.foldl_append]
  rfl

/-- The number the first n of the 128W bits of `N * 2^(64W)` make; `leadingBits_succ` ties it to the bits injected. -/
def leadingBits (w N n : Nat) : Nat := N * 2 ^ (64 * w) / 2 ^ (128 * w - n)

theorem leadingBits_zero {w N : Nat} (hN : N < 2 ^ (64 * w)) : leadingBits w N 0 = 0 := by
  rw [leadingBits, Nat.sub_zero, show 128 * w = 64 * w + 64 * w by omega, Nat.pow_add]
  exact Nat.div_eq_of_lt (Nat.mul_lt_mul_of_pos_right hN (Nat.two_pow_pos _))

theorem leadingBits_all (w N : Nat) : leadingBits w N (128 * w) = N * 2 ^ (64 * w) := by
  simp [leadingBits]

theorem numeratorBit_eq (w N n : Nat) (hn : n < 128 * w) : numeratorBit w N n = leadingBits w N (n + 1) % 2 := by
  rw [numeratorBit, leadingBits]
  split
  · next h =>
    have hplace : 128 * w - (n + 1) = (64 * w - 1 - n) + 64 * w := by omega
    rw [hplace, Nat.pow_add, Nat.mul_div_mul_right _ _ (Nat.two_pow_pos _)]
  · next h =>
    have hplace : 64 * w = (n - 64 * w + 1) + (128 * w - (n + 1)) := by omega
    conv_rhs => rw [hplace, Nat.pow_add, ← Nat.mul_assoc, Nat.mul_div_cancel _ (Nat.two_pow_pos _), Nat.pow_succ,
      ← Nat.mul_assoc, Nat.mul_mod_left]

theorem leadingBits_succ (w N n : Nat) (hn : n < 128 * w) :
    leadingBits w N (n + 1) = 2 * leadingBits w N n + numeratorBit w N n := by
  have hhalf : leadingBits w N n = leadingBits w N (n + 1) / 2 := by
    rw [leadingBits, leadingBits, Nat.div_div_eq_div_mul, ← pow_succ, show 128 * w - (n + 1) + 1 = 128 * w - n by omega]
  rw [hhalf, numeratorBit_eq w N n hn, Nat.div_add_mod]

theorem numeratorBit_lt (w N n : Nat) : numeratorBit w N n < 2 := by
  unfold numeratorBit
  split <;> omega

/-- The weight of the quotient bit of step n is half of that of the bits before it. -/
theorem step_weight (w n : Nat) (hn : n < 128 * w) : 2 ^ (128 * w - n) = 2 * 2 ^ (128 * w - 1 - n) := by
  rw [← pow_succ', show 128 * w - 1 - n + 1 = 128 * w - n by omega]

/-- One step turns quotient and remainder of m into those of `2m + b`. -/
theorem restoringStep_eq (D m b : Nat) (hD : 0 < D) (hb : b < 2) :
    (restoringStep D (m % D) b).1 = (2 * m + b) % D ∧
      2 * (m / D) + (restoringStep D (m % D) b).2 = (2 * m + b) / D := by
  have hrem := Nat.mod_lt m hD
  have hsplit : 2 * m + b = D * (2 * (m / D)) + (2 * (m % D) + b) := by
    conv_lhs => rw [← Nat.div_add_mod m D]
    ring
  rw [hsplit, Nat.mul_add_mod, Nat.mul_add_div hD, restoringStep]
  split
  · next hle =>
    have hlt : 2 * (m % D) + b - D < D := by omega
    rw [Nat.mod_eq_sub_mod hle, Nat.mod_eq_of_lt hlt, Nat.div_eq_sub_div hD hle, Nat.div_eq_of_lt hlt]
    exact ⟨rfl, rfl⟩
  · next hge =>
    rw [Nat.mod_eq_of_lt (Nat.not_le.1 hge), Nat.div_eq_of_lt (Nat.not_le.1 hge)]
    exact ⟨rfl, rfl⟩

/-- After n steps R and Q are remainder and quotient of the numerator's first n bits (42_multiply_divide R137). -/
theorem restoringState_of_pos (w N D n : Nat) (hD : 0 < D) (hN : N < 2 ^ (64 * w)) (hn : n ≤ 128 * w) :
    restoringState w N D n = (leadingBits w N n % D, leadingBits w N n / D * 2 ^ (128 * w - n)) := by
  induction n with
  | zero => simp [leadingBits_zero hN]
  | succ n ih =>
    obtain ⟨hrem, hquot⟩ := restoringStep_eq D (leadingBits w N n) (numeratorBit w N n) hD (numeratorBit_lt w N n)
    rw [restoringState_succ, ih (by omega), leadingBits_succ w N n hn, hrem, ← hquot, step_weight w n hn,
      show 128 * w - (n + 1) = 128 * w - 1 - n by omega]
    exact Prod.ext rfl (by ring)

theorem restoringStep_zero (R b : Nat) : (restoringStep 0 R b).2 = 1 := by simp [restoringStep]

/-- A zero divisor fits at every step, so every quotient bit is set (42_multiply_divide R138). -/
theorem restoringState_of_zero (w N n : Nat) (hn : n ≤ 128 * w) :
    (restoringState w N 0 n).2 + 2 ^ (128 * w - n) = 2 ^ (128 * w) := by
  induction n with
  | zero => simp
  | succ n ih =>
    rw [restoringState_succ, restoringStep_zero, ← ih (by omega), step_weight w n hn,
      show 128 * w - (n + 1) = 128 * w - 1 - n by omega]
    ring

/-- Settles O44. -/
theorem restoringDivisionAgrees : Obligations.RestoringDivisionAgrees := by
  intro s t pd rs1 rs2 hlegal ht
  obtain rfl := eq_effectOf_of_exec _ s t hlegal ht
  rw [restoringQuotient_eq]
  by_cases hD : s.val rs2 s.cfg.w = 0
  · have hones := (val_allOnes_iff _ pd _).2 (effectOf_div_word_of_zero s pd rs1 rs2 hD)
    have hsteps := restoringState_of_zero s.cfg.w (s.val rs1 s.cfg.w) _ le_rfl
    rw [Nat.sub_self, Nat.pow_zero, show 2 ^ (128 * s.cfg.w) = 2 ^ (64 * (2 * s.cfg.w)) by ring_nf, ← hones] at hsteps
    rw [hD]
    exact (Nat.add_right_cancel hsteps).symm
  · rw [effectOf_div_val s pd rs1 rs2 hD,
      restoringState_of_pos _ _ _ _ (Nat.pos_of_ne_zero hD) (val_lt s rs1 s.cfg.w) le_rfl, leadingBits_all, Nat.sub_self,
      Nat.pow_zero, Nat.mul_one]

end Sys2Proof.Machine
end

section
/-! PROOFS. The family 43_bcd: the decimal digits I2BCD and F2BCD write, the numeral PRBCDI prints of them, and the digit
procedures of the source. -/

namespace Sys2Proof.Machine

/-! ### When the commands are legal -/

theorem i2bcd_legal (cfg : Config) (pd rs1 : Nat) (hpd : pd + 1 < cfg.nreg) (hrs1 : rs1 < cfg.nreg)
    (hout : outsidePair pd rs1) : operandFault cfg (.i2bcd pd rs1) = none := by
  rw [operandFault_eq_none_iff]
  have hfirst : pd < cfg.nreg := by omega
  simp [countInRange, operandsOf, operandsClash, operandExists_iff, insidePair, hfirst, hrs1, hout,
    pair_inside cfg pd hpd, register_inside cfg rs1 hrs1]

/-- F2BCD is checked as I2BCD is (60_exceptions R183, R184). -/
theorem f2bcd_legal (cfg : Config) (pd rs1 : Nat) (hpd : pd + 1 < cfg.nreg) (hrs1 : rs1 < cfg.nreg)
    (hout : outsidePair pd rs1) : operandFault cfg (.f2bcd pd rs1) = none :=
  i2bcd_legal cfg pd rs1 hpd hrs1 hout

theorem prbcdi_legal (cfg : Config) (ps1 : Nat) (hps1 : ps1 + 1 < cfg.nreg) : operandFault cfg (.prbcdi ps1) = none := by
  rw [operandFault_eq_none_iff]
  have hfirst : ps1 < cfg.nreg := by omega
  simp [countInRange, operandsOf, operandsClash, operandExists_iff, hfirst, pair_inside cfg ps1 hps1]

/-! ### A byte of two digits -/

theorem digit_lt (n : Nat) : n % 10 < 10 := Nat.mod_lt n (by decide)

theorem bcdByte_toNat {hi lo : Nat} (hhi : hi < 10) (hlo : lo < 10) : (bcdByte hi lo).toNat = 16 * hi + lo := by
  rw [bcdByte, BitVec.toNat_ofNat]
  omega

theorem highNibble_bcdByte {hi lo : Nat} (hhi : hi < 10) (hlo : lo < 10) :
    highNibble (bcdByte hi lo) = BitVec.ofNat 4 hi := by
  apply BitVec.eq_of_toNat_eq
  rw [highNibble, BitVec.extractLsb'_toNat, bcdByte_toNat hhi hlo, Nat.shiftRight_eq_div_pow, BitVec.toNat_ofNat]
  omega

theorem lowNibble_bcdByte {hi lo : Nat} (hhi : hi < 10) (hlo : lo < 10) :
    lowNibble (bcdByte hi lo) = BitVec.ofNat 4 lo := by
  apply BitVec.eq_of_toNat_eq
  rw [lowNibble, BitVec.extractLsb'_toNat, bcdByte_toNat hhi hlo, Nat.shiftRight_eq_div_pow, BitVec.toNat_ofNat]
  omega

theorem bcdByte_eq_zero_iff {hi lo : Nat} (hhi : hi < 10) (hlo : lo < 10) : bcdByte hi lo = 0#8 ↔ hi = 0 ∧ lo = 0 := by
  rw [← BitVec.toNat_inj, bcdByte_toNat hhi hlo, BitVec.toNat_ofNat]
  omega

/-! ### The digits of an integer -/

theorem intBcd_zero (n : Nat) : intBcd n 0 = List.replicate n 0#8 := by
  induction n with
  | zero => rfl
  | succ n ih => exact congrArg (0#8 :: ·) ih

/-- Byte j from the least significant one holds digits `2j + 1` and `2j` (43_bcd R151). -/
theorem getElem_intBcd (n v j : Nat) (h : j < (intBcd n v).length) :
    (intBcd n v)[j] = bcdByte (v / 10 ^ (2 * j + 1) % 10) (v / 10 ^ (2 * j) % 10) := by
  induction n generalizing v j with
  | zero => cases h
  | succ n ih =>
    cases j with
    | zero => simp [intBcd]
    | succ j =>
      have hdiv : ∀ k, v / 10 / 10 / 10 ^ k = v / 10 ^ (k + 2) := fun k => by
        rw [Nat.div_div_eq_div_mul v, Nat.div_div_eq_div_mul, Nat.pow_add, Nat.mul_comm]
      simp only [intBcd, List.getElem_cons_succ]
      rw [ih, hdiv, hdiv]
      rfl

/-! ### Logical bytes written to a pair -/

/-- A buffer of logical bytes, byte by byte (20_memory R54). -/
theorem getElem_bytes (s : State) (r n i : Nat) (h : i < (s.bytes r n).length) : (s.bytes r n)[i] = s.byte r i := by
  rw [List.getElem_of_eq (bytes_eq s r n)]
  simp

/-- The bytes of a pair after an encoder has written them; S does not matter. -/
theorem setBytes_clobber_bytes (s : State) (pd : Nat) (bs : List Byte) (h : bs.length = 16 * s.cfg.w) :
    ((s.setBytes pd (2 * s.cfg.w) bs).clobberScratch).bytes pd (16 * s.cfg.w) = bs := by
  have hbytes := setBytes_bytes_same s pd (2 * s.cfg.w) bs (by omega)
  rwa [show 8 * (2 * s.cfg.w) = 16 * s.cfg.w by omega] at hbytes

theorem effectOf_i2bcd_bytes (s : State) (pd rs1 : Nat) :
    (effectOf (.i2bcd pd rs1) s).bytes pd (16 * s.cfg.w) = (intBcd (16 * s.cfg.w) (s.val rs1 s.cfg.w)).reverse :=
  setBytes_clobber_bytes s pd _ (by simp)

theorem effectOf_i2bcd_sameOutside (s : State) (pd rs1 : Nat) :
    s.sameOutside (effectOf (.i2bcd pd rs1) s) pd (2 * s.cfg.w) :=
  setBytes_readByte_outside s pd _ _

theorem effectOf_i2bcd_byte (s : State) (pd rs1 j : Nat) (hj : j < 16 * s.cfg.w) :
    (effectOf (.i2bcd pd rs1) s).byte pd (16 * s.cfg.w - 1 - j) =
      bcdByte (s.val rs1 s.cfg.w / 10 ^ (2 * j + 1) % 10) (s.val rs1 s.cfg.w / 10 ^ (2 * j) % 10) := by
  have hplace : 16 * s.cfg.w - 1 - (16 * s.cfg.w - 1 - j) = j := by omega
  rw [← getElem_bytes _ pd (16 * s.cfg.w) _ (by rw [length_bytes]; omega),
    List.getElem_of_eq (effectOf_i2bcd_bytes s pd rs1), List.getElem_reverse, getElem_intBcd, length_intBcd, hplace]

/-- A sum over twice n places, two places at a time. -/
theorem sum_range_two_mul (f : Nat → Nat) (n : Nat) :
    ∑ k ∈ Finset.range (2 * n), f k = ∑ j ∈ Finset.range n, (f (2 * j + 1) + f (2 * j)) := by
  induction n with
  | zero => rfl
  | succ n ih => rw [Nat.mul_succ, Finset.sum_range_succ, Finset.sum_range_succ, Finset.sum_range_succ, ih]; ring

/-- As an integer, a decimal digit of the pair has the weight of its nibble (43_bcd R151). -/
theorem effectOf_i2bcd_val (s : State) (pd rs1 : Nat) :
    (effectOf (.i2bcd pd rs1) s).val pd (2 * s.cfg.w) =
      ∑ k ∈ Finset.range (32 * s.cfg.w), s.val rs1 s.cfg.w / 10 ^ k % 10 * 16 ^ k := by
  rw [val_eq_sum_bytes, show 8 * (2 * s.cfg.w) = 16 * s.cfg.w by omega, ← Finset.sum_range_reflect,
    show 32 * s.cfg.w = 2 * (16 * s.cfg.w) by omega, sum_range_two_mul]
  refine Finset.sum_congr rfl fun j hj => ?_
  have hj : j < 16 * s.cfg.w := Finset.mem_range.1 hj
  have hplace : 16 * s.cfg.w - 1 - (16 * s.cfg.w - 1 - j) = j := by omega
  rw [effectOf_i2bcd_byte s pd rs1 j hj, bcdByte_toNat (digit_lt _) (digit_lt _), hplace,
    pow_succ 16, pow_mul 16, show (16 : Nat) ^ 2 = 256 from rfl]
  ring

/-- Settles O45: the bytes are those of the repeated division, and their nibbles weigh powers of 16. -/
theorem i2bcdWritesTheDecimalDigits : Obligations.I2bcdWritesTheDecimalDigits := by
  intro s pd rs1 hpd hrs1 hout
  refine ⟨_, exec_of_legal _ s (i2bcd_legal s.cfg pd rs1 hpd hrs1 hout), rfl, effectOf_i2bcd_sameOutside s pd rs1,
    fun j hj => ?_, effectOf_i2bcd_val s pd rs1⟩
  rw [effectOf_i2bcd_byte s pd rs1 j hj, bcdByte_toNat (digit_lt _) (digit_lt _)]

/-! ### The digits of a fraction -/

/-- What the next multiplication by ten pushes out of the residue is the next digit (43_bcd R153). -/
theorem mod_mul_ten_div (a P : Nat) (hP : 0 < P) : a % P * 10 / P = a * 10 / P % 10 := by
  have hdigit : a % P * 10 / P < 10 := Nat.div_lt_of_lt_mul (Nat.mul_lt_mul_of_pos_right (Nat.mod_lt a hP) (by omega))
  have hsplit : a * 10 = P * (a / P * 10) + a % P * 10 := by
    conv_lhs => rw [← Nat.div_add_mod a P]
    ring
  rw [hsplit, Nat.mul_add_div hP, Nat.mul_add_mod_self_right, Nat.mod_eq_of_lt hdigit]

/-- From the residue of `a` on, byte j holds the digits of `a` at places `2j + 1` and `2j + 2` below the point
(43_bcd R153). -/
theorem getElem_fracBcd (w n a j : Nat) (h : j < (fracBcd w n (a % 2 ^ (64 * w))).length) :
    (fracBcd w n (a % 2 ^ (64 * w)))[j] =
      bcdByte (a * 10 ^ (2 * j + 1) / 2 ^ (64 * w) % 10) (a * 10 ^ (2 * j + 2) / 2 ^ (64 * w) % 10) := by
  have hP : 0 < 2 ^ (64 * w) := Nat.two_pow_pos _
  induction n generalizing a j with
  | zero => cases h
  | succ n ih =>
    have hfirst : a % 2 ^ (64 * w) * 10 % 2 ^ (64 * w) = a * 10 % 2 ^ (64 * w) := by rw [Nat.mod_mul_mod]
    have hsecond : a * 10 % 2 ^ (64 * w) * 10 % 2 ^ (64 * w) = a * 10 * 10 % 2 ^ (64 * w) := by rw [Nat.mod_mul_mod]
    simp only [fracBcd, hfirst, hsecond]
    cases j with
    | zero => simp [mod_mul_ten_div _ _ hP, Nat.mul_assoc]
    | succ j =>
      have hplace : ∀ k, a * 10 * 10 * 10 ^ k = a * 10 ^ (k + 2) := fun k => by ring
      rw [List.getElem_cons_succ, ih, hplace, hplace]
      rfl

theorem effectOf_f2bcd_bytes (s : State) (pd rs1 : Nat) :
    (effectOf (.f2bcd pd rs1) s).bytes pd (16 * s.cfg.w) =
      fracBcd s.cfg.w (fracBytes s.cfg.w) (s.val rs1 s.cfg.w) ++ List.replicate (16 * s.cfg.w - fracBytes s.cfg.w) 0 := by
  have hle := fracBytes_le s.cfg.w
  exact setBytes_clobber_bytes s pd _ (by simp; omega)

theorem effectOf_f2bcd_sameOutside (s : State) (pd rs1 : Nat) :
    s.sameOutside (effectOf (.f2bcd pd rs1) s) pd (2 * s.cfg.w) :=
  setBytes_readByte_outside s pd _ _

/-- Byte j of the pair F2BCD leaves: two digits before byte B, and zero from there on (43_bcd R153). -/
theorem effectOf_f2bcd_byte (s : State) (pd rs1 j : Nat) (hj : j < 16 * s.cfg.w) :
    (effectOf (.f2bcd pd rs1) s).byte pd j =
      if j < fracBytes s.cfg.w then
        bcdByte (s.val rs1 s.cfg.w * 10 ^ (2 * j + 1) / 2 ^ (64 * s.cfg.w) % 10)
          (s.val rs1 s.cfg.w * 10 ^ (2 * j + 2) / 2 ^ (64 * s.cfg.w) % 10)
      else 0 := by
  have hbytes := effectOf_f2bcd_bytes s pd rs1
  rw [← Nat.mod_eq_of_lt (val_lt s rs1 s.cfg.w)] at hbytes
  rw [← getElem_bytes _ pd (16 * s.cfg.w) _ (by rwa [length_bytes]), List.getElem_of_eq hbytes]
  split
  · next hlt => rw [List.getElem_append_left (by simpa using hlt), getElem_fracBcd]
  · next hge => rw [List.getElem_append_right (by simpa using hge), List.getElem_replicate]

/-- Settles O46: each overflow of the repeated multiplication is a digit of the fraction. -/
theorem f2bcdWritesTheFractionDigits : Obligations.F2bcdWritesTheFractionDigits := by
  intro s pd rs1 hpd hrs1 hout
  refine ⟨_, exec_of_legal _ s (f2bcd_legal s.cfg pd rs1 hpd hrs1 hout), rfl, effectOf_f2bcd_sameOutside s pd rs1,
    fun j hj => ?_, fun j hge hj => ?_⟩
  · rw [effectOf_f2bcd_byte s pd rs1 j (hj.trans_le (fracBytes_le s.cfg.w)), fracBytes, if_pos hj,
      bcdByte_toNat (digit_lt _) (digit_lt _)]
  · rw [effectOf_f2bcd_byte s pd rs1 j hj, fracBytes, if_neg (Nat.not_lt.2 hge)]

/-! ### The numeral PRBCDI prints -/

theorem dropLeadingZeros_append (as bs : List Byte) :
    dropLeadingZeros (as ++ bs) = if dropLeadingZeros as = [] then dropLeadingZeros bs else dropLeadingZeros as ++ bs := by
  induction as with
  | nil => rfl
  | cons a as ih =>
    by_cases ha : a = 0#8
    · simpa [dropLeadingZeros, ha] using ih
    · simp [dropLeadingZeros, ha]

theorem dropLeadingZeros_replicate (n : Nat) : dropLeadingZeros (List.replicate n 0#8) = [] := by
  induction n with
  | zero => rfl
  | succ n ih => exact ih

/-- Bytes after the first digit printed are printed whole (44_text_output R164). -/
theorem integerDigits_append (as bs : List Byte) (h : integerDigits as ≠ []) :
    integerDigits (as ++ bs) = integerDigits as ++ nibbles bs := by
  unfold integerDigits at h ⊢
  rw [dropLeadingZeros_append]
  cases hdrop : dropLeadingZeros as with
  | nil => simp [hdrop] at h
  | cons c cs =>
    by_cases hc : highNibble c = 0#4 <;> simp [hc, nibbles, nibbles_append]

theorem integerDigits_zeros_append (n : Nat) (bs : List Byte) :
    integerDigits (List.replicate n 0#8 ++ bs) = integerDigits bs := by
  rw [integerDigits, dropLeadingZeros_append, dropLeadingZeros_replicate, if_pos rfl, ← integerDigits]

/-- The digits of a number as nibbles, the most significant one first; none for 0 (43_bcd R155). -/
def numeral (v : Nat) : List Nibble := (Nat.digits 10 v).reverse.map (BitVec.ofNat 4)

@[simp] theorem numeral_zero : numeral 0 = [] := by simp [numeral]

theorem numeral_of_pos {v : Nat} (hv : 0 < v) : numeral v = numeral (v / 10) ++ [BitVec.ofNat 4 (v % 10)] := by
  simp [numeral, Nat.digits_def' (by omega : 1 < 10) hv]

theorem numeral_ne_nil {v : Nat} (hv : 0 < v) : numeral v ≠ [] := by
  simp [numeral_of_pos hv]

/-- A non-zero byte prints as two digits, or as one when its high nibble is zero (44_text_output R164). -/
theorem integerDigits_singleton {b : Byte} (hb : b ≠ 0#8) :
    integerDigits [b] = if highNibble b = 0#4 then [lowNibble b] else [highNibble b, lowNibble b] := by
  simp [integerDigits, dropLeadingZeros, hb, nibbles]

/-- The digits printed of one byte of two digits are the numeral (43_bcd R155). -/
theorem integerDigits_bcdByte {v : Nat} (hv : v < 100) : integerDigits [bcdByte (v / 10 % 10) (v % 10)] = numeral v := by
  have hhi : v / 10 < 10 := by omega
  have hlo : v % 10 < 10 := by omega
  rw [Nat.mod_eq_of_lt hhi]
  rcases Nat.eq_zero_or_pos v with rfl | hpos
  · rw [numeral_zero]
    rfl
  · have hne : bcdByte (v / 10) (v % 10) ≠ 0#8 := by
      rw [Ne, bcdByte_eq_zero_iff hhi hlo]
      omega
    have hzero : BitVec.ofNat 4 (v / 10) = 0#4 ↔ v / 10 = 0 := by
      rw [← BitVec.toNat_inj, BitVec.toNat_ofNat, BitVec.toNat_ofNat]
      omega
    rw [integerDigits_singleton hne, highNibble_bcdByte hhi hlo, lowNibble_bcdByte hhi hlo, numeral_of_pos hpos]
    simp only [hzero]
    split
    · next h => rw [h, numeral_zero, List.nil_append]
    · next h =>
      rw [numeral_of_pos (Nat.pos_of_ne_zero h), Nat.div_eq_of_lt hhi, numeral_zero, Nat.mod_eq_of_lt hhi]
      rfl

/-- The digits printed of a number's BCD bytes are its numeral (43_bcd R155). -/
theorem integerDigits_intBcd (n v : Nat) (hv : v < 100 ^ n) : integerDigits (intBcd n v).reverse = numeral v := by
  induction n generalizing v with
  | zero => simp [Nat.lt_one_iff.1 hv]; rfl
  | succ n ih =>
    have hrest : v / 10 / 10 < 100 ^ n := by
      rw [Nat.div_div_eq_div_mul]
      exact Nat.div_lt_of_lt_mul (by rwa [← pow_succ'])
    rw [intBcd, List.reverse_cons]
    rcases Nat.eq_zero_or_pos (v / 10 / 10) with hsmall | hpos
    · rw [hsmall, intBcd_zero, List.reverse_replicate, integerDigits_zeros_append, integerDigits_bcdByte (by omega)]
    · rw [integerDigits_append _ _ (by rw [ih _ hrest]; exact numeral_ne_nil hpos), ih _ hrest,
        numeral_of_pos (by omega : 0 < v), numeral_of_pos (by omega : 0 < v / 10)]
      simp [nibbles, highNibble_bcdByte (digit_lt _) (digit_lt _), lowNibble_bcdByte (digit_lt _) (digit_lt _)]

theorem numeral_decChars (v : Nat) :
    (numeral v).map decChar = (Nat.digits 10 v).reverse.map fun d => BitVec.ofNat 8 (0x30 + d) := by
  rw [numeral, List.map_map]
  refine List.map_congr_left fun d hd => ?_
  have hlt : d < 10 := Nat.digits_lt_base (by omega) (List.mem_reverse.1 hd)
  rw [Function.comp, decChar, BitVec.toNat_ofNat, Nat.mod_eq_of_lt (by omega)]

/-- PRBCDI after I2BCD prints the numeral (43_bcd R155). -/
theorem effectOf_prbcdi_i2bcd (s : State) (pd rs1 : Nat) :
    effectOf (.prbcdi pd) (effectOf (.i2bcd pd rs1) s) =
      printDigits (effectOf (.i2bcd pd rs1) s) (numeral (s.val rs1 s.cfg.w)) := by
  have hfits : s.val rs1 s.cfg.w < 100 ^ (16 * s.cfg.w) := by
    have hlt := val_lt s rs1 s.cfg.w
    rw [show 64 * s.cfg.w = 4 * (16 * s.cfg.w) by omega, pow_mul] at hlt
    exact hlt.trans_le (Nat.pow_le_pow_left (by omega) _)
  show printDigits _ (integerDigits ((effectOf (.i2bcd pd rs1) s).bytes pd (16 * s.cfg.w))) = _
  rw [effectOf_i2bcd_bytes, integerDigits_intBcd _ _ hfits]

/-- Settles O47: the pair's digits without leading zeros are the numeral. -/
theorem bcdRoundTripPrintsTheNumeral : Obligations.BcdRoundTripPrintsTheNumeral := by
  intro s pd rs1 hpd hrs1 hout
  have hprint := effectOf_prbcdi_i2bcd s pd rs1
  refine ⟨_, _, exec_of_legal _ s (i2bcd_legal s.cfg pd rs1 hpd hrs1 hout),
    exec_of_legal (.prbcdi pd) _ (prbcdi_legal s.cfg pd hpd),
    fun _ => ⟨hprint, fun hwidth => ?_⟩, fun hN => ⟨fun i hi => ?_, ?_⟩⟩
  · rw [hprint, ← numeral_decChars, printDigits_txt, effectOf_cfg, hwidth, printedDigits_zero_width]
    rfl
  · rw [← getElem_bytes _ pd (16 * s.cfg.w) _ (by rwa [length_bytes]), List.getElem_of_eq (effectOf_i2bcd_bytes s pd rs1)]
    simp [hN, intBcd_zero]
  · rw [hprint, hN, numeral_zero, printDigits_nil]

/-! ### The procedures of the source -/

/-- One scalar division by ten of the working copy: its last digit and the number without it (43_bcd R152). -/
theorem divScalarChain_ten (ws : List Word) :
    wordsValue (divScalarChain 10 0 true ws).1 = wordsValue ws / 10 ∧
      (divScalarChain 10 0 true ws).2.1.toNat = wordsValue ws % 10 ∧
      ((divScalarChain 10 0 true ws).2.2 = true ↔ wordsValue ws / 10 = 0) := by
  have hlt := wordsValue_lt ws
  have hten : (10 : Word).toNat = 10 := rfl
  rw [divScalarChain_zero 10 ws (by decide), hten]
  refine ⟨?_, ?_, decide_eq_true_iff⟩
  · rw [wordsValue_valueWords, Nat.mod_eq_of_lt ((Nat.div_le_self _ _).trans_lt hlt)]
  · rw [BitVec.toNat_ofNat]
    omega

/-- Adding sixteen times a digit to a byte with an empty high nibble puts the digit there (43_bcd R152). -/
theorem ofNat_bcdByte_zero_add {hi lo : Nat} (hlo : lo < 10) :
    BitVec.ofNat 8 ((bcdByte 0 lo).toNat + 16 * hi) = bcdByte hi lo := by
  rw [bcdByte_toNat (by omega) hlo, bcdByte]
  congr 1
  omega

/-- The last of the cleared bytes before those already filled is written. -/
theorem set_last_of_zeros (m : Nat) (b c : Byte) (done : List Byte) :
    (List.replicate m 0#8 ++ b :: done).set m c = List.replicate m 0#8 ++ c :: done := by
  rw [List.set_append_right _ _ (by simp)]
  simp

/-- A turn of the loop that starts a byte (43_bcd R152). -/
theorem intBcdLoop_low (fuel m : Nat) (ws : List Word) (b : Byte) (done : List Byte) :
    intBcdLoop (fuel + 1) ws m true (List.replicate m 0#8 ++ b :: done) =
      if wordsValue ws / 10 = 0 then List.replicate m 0#8 ++ bcdByte 0 (wordsValue ws % 10) :: done
      else intBcdLoop fuel (divScalarChain 10 0 true ws).1 m false
        (List.replicate m 0#8 ++ bcdByte 0 (wordsValue ws % 10) :: done) := by
  obtain ⟨-, hdigit, hstop⟩ := divScalarChain_ten ws
  simp only [intBcdLoop, if_true, hdigit, hstop, set_last_of_zeros, Bool.not_true]

/-- A turn of the loop that completes a byte (43_bcd R152). -/
theorem intBcdLoop_high (fuel m lo : Nat) (ws : List Word) (done : List Byte) (hlo : lo < 10) :
    intBcdLoop (fuel + 1) ws m false (List.replicate m 0#8 ++ bcdByte 0 lo :: done) =
      if wordsValue ws / 10 = 0 then List.replicate m 0#8 ++ bcdByte (wordsValue ws % 10) lo :: done
      else intBcdLoop fuel (divScalarChain 10 0 true ws).1 (m - 1) true
        (List.replicate m 0#8 ++ bcdByte (wordsValue ws % 10) lo :: done) := by
  obtain ⟨-, hdigit, hstop⟩ := divScalarChain_ten ws
  have hfilled : (List.replicate m 0#8 ++ bcdByte 0 lo :: done).getD m 0 = bcdByte 0 lo := by
    simp
  simp only [intBcdLoop, Bool.false_eq_true, if_false, hdigit, hstop, hfilled, ofNat_bcdByte_zero_add hlo, set_last_of_zeros,
    Bool.not_false]

/-- With m bytes still to fill, the loop fills them with the digits of its working copy (43_bcd R152). -/
theorem intBcdLoop_eq (m : Nat) (ws : List Word) (done : List Byte) :
    intBcdLoop (2 * m) ws (m - 1) true (List.replicate m 0#8 ++ done) = (intBcd m (wordsValue ws)).reverse ++ done := by
  induction m generalizing ws done with
  | zero => rfl
  | succ m ih =>
    obtain ⟨hlowRest, -, -⟩ := divScalarChain_ten ws
    obtain ⟨hhighRest, -, -⟩ := divScalarChain_ten (divScalarChain 10 0 true ws).1
    rw [Nat.mul_succ, Nat.add_sub_cancel, List.replicate_succ', List.append_assoc, List.singleton_append, intBcdLoop_low,
      intBcd, List.reverse_cons, List.append_assoc, List.singleton_append]
    split
    · next hstop => rw [hstop, intBcd_zero, List.reverse_replicate]
    · rw [intBcdLoop_high _ _ _ _ _ (digit_lt _), hlowRest]
      split
      · next hstop => rw [hstop, intBcd_zero, List.reverse_replicate]
      · rw [ih, hhighRest, hlowRest]

/-- Settles O48: the loop fills the cleared pair from its last byte on. -/
theorem i2bcdProcedureAgrees : Obligations.I2bcdProcedureAgrees := by
  intro s t pd rs1 _ hlegal ht
  obtain rfl := eq_effectOf_of_exec _ s t hlegal ht
  have hloop := intBcdLoop_eq (16 * s.cfg.w) (s.words rs1 s.cfg.w) []
  rw [List.append_nil, List.append_nil, ← Nat.mul_assoc] at hloop
  exact (effectOf_i2bcd_bytes s pd rs1).trans hloop.symm

/-- One scalar multiplication by ten of the working copy: the digit it pushes out and the fraction it leaves
(43_bcd R154). -/
theorem mulScalarChain_ten (ws : List Word) :
    (mulScalarChain 10 ws).1.length = ws.length ∧
      wordsValue (mulScalarChain 10 ws).1 = wordsValue ws * 10 % 2 ^ (64 * ws.length) ∧
      (mulScalarChain 10 ws).2.toNat = wordsValue ws * 10 / 2 ^ (64 * ws.length) := by
  have hten : (10 : Word).toNat = 10 := rfl
  have hdigit : wordsValue ws * 10 / 2 ^ (64 * ws.length) < 10 :=
    Nat.div_lt_of_lt_mul (Nat.mul_lt_mul_of_pos_right (wordsValue_lt ws) (by omega))
  rw [mulScalarChain_eq, hten]
  exact ⟨length_valueWords _ _, wordsValue_valueWords _ _, (BitVec.toNat_ofNat _ 64).trans (Nat.mod_eq_of_lt (by omega))⟩

theorem fracBcdLoop_eq (n : Nat) (ws : List Word) : fracBcdLoop n ws = fracBcd ws.length n (wordsValue ws) := by
  induction n generalizing ws with
  | zero => rfl
  | succ n ih =>
    obtain ⟨hhighLen, hhighRest, hhigh⟩ := mulScalarChain_ten ws
    obtain ⟨hlowLen, hlowRest, hlow⟩ := mulScalarChain_ten (mulScalarChain 10 ws).1
    rw [hhighLen, hhighRest] at hlowRest hlow
    simp only [fracBcdLoop, fracBcd, ih, hhigh, hlow, hlowRest, hlowLen, hhighLen]

/-- Settles O49: two scalar multiplications make the digits of one byte. -/
theorem f2bcdProcedureAgrees : Obligations.F2bcdProcedureAgrees := by
  intro s t pd rs1 _ hlegal ht
  obtain rfl := eq_effectOf_of_exec _ s t hlegal ht
  rw [effectOf_f2bcd_bytes, fracBcdProcedure, fracBcdLoop_eq, length_words]
  rfl

end Sys2Proof.Machine
end

section
/-! PROOFS. The family 44_text_output: the hexadecimal dump of a run of bytes, the digits PRBCDI and PRBCDF keep of a pair, and
the printing of one digit. -/

namespace Sys2Proof.Machine

/-! ### When the commands are legal -/

theorem prhex_legal (s : State) (rs1 n : Nat) (hn : n ≤ 16 * s.cfg.w) (hrs1 : s.holds rs1 ((n + 7) / 8)) :
    operandFault s.cfg (.prhex rs1 n) = none := by
  rw [operandFault_eq_none_iff]
  simp [countInRange, operandsOf, operandsClash, operandExists_iff, hn, hrs1]

/-- PRHEXZ is checked as PRHEX is (60_exceptions R183). -/
theorem prhexz_legal (s : State) (rs1 n : Nat) (hn : n ≤ 16 * s.cfg.w) (hrs1 : s.holds rs1 ((n + 7) / 8)) :
    operandFault s.cfg (.prhexz rs1 n) = none :=
  prhex_legal s rs1 n hn hrs1

/-- PRDIG has no operand to check (60_exceptions R183). -/
theorem prdig_legal (cfg : Config) : operandFault cfg .prdig = none := rfl

/-- PRBCDF is checked as PRBCDI is (60_exceptions R183). -/
theorem prbcdf_legal (cfg : Config) (ps1 : Nat) (hps1 : ps1 + 1 < cfg.nreg) : operandFault cfg (.prbcdf ps1) = none :=
  prbcdi_legal cfg ps1 hps1

/-! ### A run of bytes cut in two -/

theorem map_range_split (byte : Nat → Byte) {k n : Nat} (hk : k ≤ n) :
    (List.range n).map byte = (List.range k).map byte ++ (List.range (n - k)).map fun i => byte (k + i) := by
  conv_lhs => rw [← Nat.add_sub_cancel' hk, List.range_add, List.map_append, List.map_map]
  rfl

theorem map_range_of_zero (byte : Nat → Byte) (n : Nat) (hzero : ∀ i < n, byte i = 0) :
    (List.range n).map byte = List.replicate n 0#8 := by
  rw [List.map_congr_left fun i hi => hzero i (List.mem_range.1 hi), List.map_const', List.length_range]
  rfl

/-- A run of bytes has a first non-zero one, or all are zero and it ends before any (44_text_output R162). -/
theorem exists_first_nonzero (byte : Nat → Byte) (n : Nat) :
    ∃ start ≤ n, (∀ i < start, byte i = 0) ∧ (start < n → byte start ≠ 0) := by
  induction n with
  | zero => exact ⟨0, le_rfl, by simp, by simp⟩
  | succ n ih =>
    obtain ⟨start, hle, hzero, hstart⟩ := ih
    rcases hle.lt_or_eq with hlt | rfl
    · exact ⟨start, hle.trans (Nat.le_succ n), hzero, fun _ => hstart hlt⟩
    · by_cases hnext : byte start = 0
      · exact ⟨start + 1, le_rfl, fun i hi => (Nat.lt_succ_iff_lt_or_eq.1 hi).elim (hzero i) fun h => h ▸ hnext,
          fun h => absurd h (Nat.lt_irrefl _)⟩
      · exact ⟨start, Nat.le_succ start, hzero, fun _ => hnext⟩

/-- What is left without the leading zeros begins at the first non-zero byte (44_text_output R162). -/
theorem dropLeadingZeros_map_range (byte : Nat → Byte) {start n : Nat} (hle : start ≤ n) (hzero : ∀ i < start, byte i = 0)
    (hstart : start < n → byte start ≠ 0) :
    dropLeadingZeros ((List.range n).map byte) = (List.range (n - start)).map fun i => byte (start + i) := by
  rw [map_range_split byte hle, map_range_of_zero byte start hzero, dropLeadingZeros_append, dropLeadingZeros_replicate,
    if_pos rfl]
  cases hrest : n - start with
  | zero => rfl
  | succ m =>
    have hne : ¬ byte start = 0#8 := hstart (by omega)
    rw [List.range_succ_eq_map, List.map_cons, dropLeadingZeros, Nat.add_zero, if_neg hne]

/-! ### The hexadecimal dump -/

theorem highNibble_toNat (b : Byte) : (highNibble b).toNat = b.toNat / 16 := by
  have hsplit := highNibble_lowNibble b
  have hlow := (lowNibble b).isLt
  omega

theorem lowNibble_toNat (b : Byte) : (lowNibble b).toNat = b.toNat % 16 := by
  have hsplit := highNibble_lowNibble b
  have hlow := (lowNibble b).isLt
  omega

theorem hexChar_eq_hexCode (v : Nibble) : hexChar v = hexCode v.toNat := by
  unfold hexChar hexCode
  split <;> rfl

/-- The dump of one more byte after n others: its two characters, and the line break if it fills a line
(44_text_output R161). -/
def hexByte (width n : Nat) (b : Byte) : List Byte :=
  hexCode (b.toNat / 16) :: hexCode (b.toNat % 16) :: if width ∣ n + 1 then [newline] else []

/-- The bytes on the line, `n % width`, reach the width as n + 1 reaches a multiple of it. -/
theorem line_full_iff (width n : Nat) : width ≠ 0 ∧ n % width + 1 = width ↔ width ∣ n + 1 := by
  rcases Nat.eq_zero_or_pos width with rfl | hpos
  · simp
  · have hlt := Nat.mod_lt n hpos
    rw [Nat.dvd_iff_mod_eq_zero, ← Nat.mod_add_mod]
    refine ⟨fun ⟨_, hfull⟩ => by rw [hfull, Nat.mod_self], fun hfull => ⟨hpos.ne', ?_⟩⟩
    by_contra hopen
    rw [Nat.mod_eq_of_lt (by omega)] at hfull
    omega

/-- A byte that does not fill the line is one more on it. -/
theorem succ_mod_of_line_open {width n : Nat} (hopen : ¬ width ∣ n + 1) : (n + 1) % width = n % width + 1 := by
  rcases Nat.eq_zero_or_pos width with rfl | hpos
  · simp
  · have hlt := Nat.mod_lt n hpos
    rw [← line_full_iff] at hopen
    rw [← Nat.mod_add_mod, Nat.mod_eq_of_lt (by omega)]

theorem hexDump_cons (width n : Nat) (b : Byte) (bs : List Byte) :
    hexDump width (n % width) (b :: bs) = hexByte width n b ++ hexDump width ((n + 1) % width) bs := by
  simp only [hexDump, hexByte, hexChar_eq_hexCode, highNibble_toNat, lowNibble_toNat, line_full_iff]
  split
  · next hfull => rw [Nat.mod_eq_zero_of_dvd hfull]; rfl
  · next hopen => rw [succ_mod_of_line_open hopen]; rfl

theorem hexDump_append (width n : Nat) (as bs : List Byte) :
    hexDump width (n % width) (as ++ bs) =
      hexDump width (n % width) as ++ hexDump width ((n + as.length) % width) bs := by
  induction as generalizing n with
  | nil => rfl
  | cons a as ih =>
    rw [List.cons_append, hexDump_cons, ih, hexDump_cons, List.append_assoc, List.length_cons, Nat.add_assoc n 1,
      Nat.add_comm 1]

/-- One more byte at the end of a dump (44_text_output R161). -/
theorem isHexDump_succ {width n : Nat} {byte : Nat → Byte} {out : List Byte} (h : isHexDump width n byte out) :
    isHexDump width (n + 1) byte (out ++ hexByte width n (byte n)) := by
  obtain ⟨hlen, hchars, hbreaks⟩ := h
  have hdiv : (n + 1) / width = n / width + if width ∣ n + 1 then 1 else 0 := Nat.succ_div
  refine ⟨?_, fun i hi => ?_, fun j hj => ?_⟩
  · rw [List.length_append, hlen, hdiv, hexByte]
    split <;> simp <;> omega
  · rcases Nat.lt_succ_iff_lt_or_eq.1 hi with hlt | rfl
    · have hle : i / width ≤ n / width := Nat.div_le_div_right hlt.le
      rw [List.getElem?_append_left (by omega), List.getElem?_append_left (by omega)]
      exact hchars i hlt
    · rw [← hlen, List.getElem?_append_right le_rfl, List.getElem?_append_right (Nat.le_add_right _ 1), Nat.sub_self,
        Nat.add_sub_cancel_left]
      exact ⟨rfl, rfl⟩
  · by_cases hlt : j < n / width
    · have hle : (j + 1) * width ≤ n := (Nat.mul_le_mul_right width hlt).trans (Nat.div_mul_le_self n width)
      rw [List.getElem?_append_left (by omega)]
      exact hbreaks j hlt
    · have hfull : width ∣ n + 1 := by
        by_contra hopen
        rw [hdiv, if_neg hopen] at hj
        exact hlt hj
      rw [if_pos hfull] at hdiv
      obtain rfl : j = n / width := by omega
      rw [← hdiv, Nat.div_mul_cancel hfull, show 2 * (n + 1) + n / width = out.length + 2 by omega,
        List.getElem?_append_right (Nat.le_add_right _ _), Nat.add_sub_cancel_left, hexByte, if_pos hfull]
      rfl

/-- The dump of a run of bytes has every character and every line break in its place (44_text_output R161). -/
theorem isHexDump_hexDump (width n : Nat) (byte : Nat → Byte) :
    isHexDump width n byte (hexDump width 0 ((List.range n).map byte)) := by
  induction n with
  | zero => exact ⟨by simp [hexDump], by simp, by simp⟩
  | succ n ih =>
    have hsnoc : hexDump width 0 ((List.range (n + 1)).map byte) =
        hexDump width 0 ((List.range n).map byte) ++ hexByte width n (byte n) := by
      have happ := hexDump_append width 0 ((List.range n).map byte) [byte n]
      rw [List.length_map, List.length_range, Nat.zero_add, hexDump_cons, Nat.zero_mod] at happ
      rw [List.range_succ, List.map_append, List.map_singleton, happ, hexDump, List.append_nil]
    rw [hsnoc]
    exact isHexDump_succ ih

/-- Settles O50: PRHEXZ is the dump from the first non-zero byte on. -/
theorem prhexDumpsTheBytes : Obligations.PrhexDumpsTheBytes := by
  intro s rs1 n hn hrs1
  obtain ⟨start, hle, hzero, hstart⟩ := exists_first_nonzero (s.byte rs1) n
  refine ⟨⟨_, exec_of_legal _ s (prhex_legal s rs1 n hn hrs1), ?_⟩,
    ⟨_, start, exec_of_legal _ s (prhexz_legal s rs1 n hn hrs1), hle, hzero, hstart, ?_⟩⟩
  · rw [bytes_eq]
    exact isHexDump_hexDump _ _ _
  · rw [bytes_eq, dropLeadingZeros_map_range _ hle hzero hstart]
    exact isHexDump_hexDump _ _ _

/-! ### The digits of a pair -/

/-- The digits of a run of bytes, byte after byte (44_text_output R164). -/
theorem nibbles_map_range (byte : Nat → Byte) (a n : Nat) :
    nibbles ((List.range n).map fun i => byte (a + i)) = digitPairs byte a n := by
  induction n with
  | zero => rfl
  | succ n ih =>
    rw [digitPairs, List.range_succ, List.map_append, nibbles_append, ih, List.flatMap_append]
    rfl

theorem highNibble_eq_zero_iff (b : Byte) : highNibble b = 0#4 ↔ b.toNat < 16 := by
  rw [← BitVec.toNat_inj, highNibble_toNat, BitVec.toNat_ofNat]
  omega

theorem integerDigits_singleton_ne_nil {b : Byte} (hb : b ≠ 0#8) : integerDigits [b] ≠ [] := by
  rw [integerDigits_singleton hb]
  split <;> simp

/-- The digits PRBCDI prints: those of the first non-zero byte k, then both of every later one (44_text_output R164). -/
theorem integerDigits_map_range (byte : Nat → Byte) {k n : Nat} (hk : k < n) (hzero : ∀ i < k, byte i = 0)
    (hne : byte k ≠ 0) :
    integerDigits ((List.range n).map byte) =
      (if (byte k).toNat < 16 then [(byte k).extractLsb' 0 4] else digitPairs byte k 1) ++
        digitPairs byte (k + 1) (n - 1 - k) := by
  have hbytes : (List.range n).map byte =
      List.replicate k 0#8 ++ ([byte k] ++ (List.range (n - 1 - k)).map fun i => byte (k + 1 + i)) := by
    rw [map_range_split byte (Nat.succ_le_of_lt hk), List.range_succ, List.map_append, map_range_of_zero byte k hzero,
      List.append_assoc, show n - (k + 1) = n - 1 - k by omega]
    rfl
  rw [hbytes, integerDigits_zeros_append, integerDigits_append _ _ (integerDigits_singleton_ne_nil hne), nibbles_map_range,
    integerDigits_singleton hne]
  simp only [highNibble_eq_zero_iff]
  rfl

/-- A byte before one that is kept is kept (44_text_output R165). -/
theorem dropTrailingZeros_cons_of_ne_nil (b : Byte) {bs : List Byte} (h : dropTrailingZeros bs ≠ []) :
    dropTrailingZeros (b :: bs) = b :: dropTrailingZeros bs := by
  rw [dropTrailingZeros]
  split
  · next hnil => exact absurd hnil h
  · next hcons => rw [hcons]

theorem dropTrailingZeros_append (as bs : List Byte) :
    dropTrailingZeros (as ++ bs) =
      if dropTrailingZeros bs = [] then dropTrailingZeros as else as ++ dropTrailingZeros bs := by
  induction as with
  | nil =>
    split
    · next hbs => exact hbs
    · rfl
  | cons a as ih =>
    by_cases hbs : dropTrailingZeros bs = []
    · rw [if_pos hbs] at ih ⊢
      rw [List.cons_append, dropTrailingZeros, ih, dropTrailingZeros]
    · rw [if_neg hbs] at ih ⊢
      rw [List.cons_append, dropTrailingZeros_cons_of_ne_nil a (by simp [ih, hbs]), ih, List.cons_append]

theorem dropTrailingZeros_replicate (n : Nat) : dropTrailingZeros (List.replicate n 0#8) = [] := by
  induction n with
  | zero => rfl
  | succ n ih => rw [List.replicate_succ, dropTrailingZeros, ih]; rfl

/-- What is left without the trailing zeros ends at the last non-zero byte (44_text_output R165). -/
theorem dropTrailingZeros_map_range (byte : Nat → Byte) {e n : Nat} (he : e < n) (hne : byte e ≠ 0)
    (hzero : ∀ i, e < i → i < n → byte i = 0) :
    dropTrailingZeros ((List.range n).map byte) = (List.range (e + 1)).map byte := by
  have hlast : dropTrailingZeros [byte e] = [byte e] := if_neg hne
  rw [map_range_split byte (Nat.succ_le_of_lt he),
    map_range_of_zero (fun i => byte (e + 1 + i)) _ fun i hi => hzero _ (by omega) (by omega), dropTrailingZeros_append,
    dropTrailingZeros_replicate, if_pos rfl, List.range_succ, List.map_append, List.map_singleton, dropTrailingZeros_append,
    hlast, if_neg (List.cons_ne_nil _ _)]

/-- The digits PRBCDF prints of a pair that is not all zero: both of every byte it keeps (44_text_output R165). -/
theorem fractionDigits_of_ne_nil (bs : List Byte) (h : dropTrailingZeros bs ≠ []) :
    fractionDigits bs = nibbles (dropTrailingZeros bs) := by
  unfold fractionDigits
  split
  · next hnil => exact absurd hnil h
  · next hcons => rw [hcons]

/-- Of an all-zero pair PRBCDF prints the first byte (44_text_output R165). -/
theorem fractionDigits_replicate (n : Nat) : fractionDigits (List.replicate (n + 1) 0#8) = [0, 0] := by
  rw [fractionDigits, dropTrailingZeros_replicate]
  rfl

/-- Settles O53: what PRBCDF prints ends with the last non-zero byte. -/
theorem prbcdfPrintsTheFraction : Obligations.PrbcdfPrintsTheFraction := by
  intro s ps1 hw hps1
  rw [exec_of_legal _ s (prbcdf_legal s.cfg ps1 hps1), effectOf, bytes_eq]
  refine ⟨fun hzero => ?_, fun e he hne hzero => ?_⟩
  · rw [map_range_of_zero _ _ hzero, show 16 * s.cfg.w = 16 * s.cfg.w - 1 + 1 by omega, fractionDigits_replicate]
  · have hkept := dropTrailingZeros_map_range (s.byte ps1) he hne hzero
    rw [fractionDigits_of_ne_nil _ (by simp [hkept]), hkept, ← nibbles_map_range]
    simp only [Nat.zero_add]

/-! ### One digit -/

/-- A digit that does not fill the line (44_text_output R163). -/
theorem printDigits_singleton_of_open (s : State) (d : Nibble)
    (h : ¬ (s.cfg.decLineDigits ≠ 0 ∧ s.cfg.decLineDigits ≤ (s.col + 1).toNat)) :
    printDigits s [d] = { s with txt := s.txt ++ [decChar d], col := s.col + 1 } := by
  simp only [printDigits, printedDigits, if_neg h, State.emit]

/-- A digit that fills the line (44_text_output R163). -/
theorem printDigits_singleton_of_full (s : State) (d : Nibble)
    (h : s.cfg.decLineDigits ≠ 0 ∧ s.cfg.decLineDigits ≤ (s.col + 1).toNat) :
    printDigits s [d] = { s with txt := s.txt ++ [decChar d, newline], col := 0 } := by
  simp only [printDigits, printedDigits, if_pos h, State.emit]

/-- COL counts modulo 2^32 (44_text_output R163). -/
theorem col_add_one_toNat (col : BitVec 32) : (col + 1).toNat = (col.toNat + 1) % 2 ^ 32 := BitVec.toNat_add col 1

theorem decChar_setWidth (v : Word) : decChar (v.setWidth 4) = BitVec.ofNat 8 (0x30 + v.toNat % 16) := by
  rw [decChar, BitVec.toNat_setWidth]

/-- Settles O51. -/
theorem prdigPrintsOneDigit : Obligations.PrdigPrintsOneDigit := by
  intro s c col
  have hcol : s.col + 1 = BitVec.ofNat 32 col := by
    rw [show col = (s.col + 1).toNat from (col_add_one_toNat s.col).symm, BitVec.ofNat_toNat, BitVec.setWidth_eq]
  rw [exec_of_legal _ s (prdig_legal s.cfg), effectOf]
  refine ⟨fun hfull => ?_, fun hopen => ?_⟩
  · rw [printDigits_singleton_of_full s _ (by rwa [col_add_one_toNat]), decChar_setWidth]
    rfl
  · rw [printDigits_singleton_of_open s _ (by rwa [col_add_one_toNat]), decChar_setWidth, hcol]

/-- PRDIG with a digit in OPA prints that digit (44_text_output R163). -/
theorem exec_prdig_of_digit (s : State) (d : Nibble) :
    exec .prdig { s with opa := d.setWidth 64 } = .next { printDigits s [d] with opa := d.setWidth 64 } := by
  rw [exec_of_legal _ _ (prdig_legal _), effectOf, BitVec.setWidth_setWidth_of_le _ (by decide), BitVec.setWidth_eq]
  rfl

/-- Settles O52: what PRBCDI prints begins with the first non-zero byte. -/
theorem prbcdiPrintsTheInteger : Obligations.PrbcdiPrintsTheInteger := by
  refine ⟨fun s ps1 hps1 => ?_, fun s d ds => ⟨exec_prdig_of_digit s d, printDigits_append s [d] ds⟩⟩
  rw [exec_of_legal _ s (prbcdi_legal s.cfg ps1 hps1), effectOf, bytes_eq]
  refine ⟨fun hzero => ?_, fun k hk hzero hne => ?_⟩
  · rw [map_range_of_zero _ _ hzero, integerDigits, dropLeadingZeros_replicate, printDigits_nil]
  · rw [integerDigits_map_range _ hk hzero hne]

end Sys2Proof.Machine
end

section
/-! PROOFS. The family 60_exceptions: what a write to CMD does as a function of the word's first failing check, which operands
make which check fail, and what the host can do while FAULT is 1. -/

namespace Sys2Proof.Machine

/-! ### The write to CMD, by the fault of its word -/

/-- A command that an operand check refuses takes that fault (60_exceptions R181, R182). -/
theorem faults_of_operandFault {s : State} {i : Instr} {code : FaultCode} (h : operandFault s.cfg i = some code) :
    s.faults i code := by
  rw [State.faults, exec_eq_perform_effectOf, perform_of_fault i s _ code h]
  rfl

/-- A word that passes every check is a command that no operand check refuses (60_exceptions R182). -/
theorem decode_of_wordFault_none {cfg : Config} {c : Word} (h : wordFault cfg c = none) :
    ∃ i, decode c = .ok i ∧ operandFault cfg i = none := by
  cases hd : decode c with
  | error code => simp [wordFault, hd] at h
  | ok i => exact ⟨i, rfl, by rwa [wordFault_of_decode cfg c i hd] at h⟩

/-- Settles O6: checks 1 and 2 keep the word as it was written, checks 3 to 5 the word of the decoded command, which is the
same one. -/
theorem faultEntryChangesOnlyTheRecord : Obligations.FaultEntryChangesOnlyTheRecord := by
  intro s c code hf hcode
  cases hd : decode c with
  | error code' =>
    obtain rfl : code' = code := by simpa [wordFault, hd] using hcode
    simp [issueCommand, hf, hd, raiseFault]
  | ok i =>
    rw [wordFault_of_decode _ c i hd] at hcode
    rw [issueCommand_of_decode c i s hf hd, faults_of_operandFault hcode, encode_of_decode c i hd]

/-- Settles O7: the effect of a command leaves the fault record alone. -/
theorem passedChecksNeverFault : Obligations.PassedChecksNeverFault := by
  intro s c hf hnone
  obtain ⟨i, hd, hlegal⟩ := decode_of_wordFault_none hnone
  exact ⟨i, effectOf i s, hd, hlegal, issueCommand_of_decode c i s hf hd, exec_of_legal i s hlegal,
    by rw [effectOf_fault, hf], effectOf_fcode i s, effectOf_fcmd i s⟩

/-- With FAULT 0, a write to CMD sets FAULT exactly if a check of the word fails, and then records that check and the word
(60_exceptions R181, R182). -/
theorem issueCommand_record {s t : State} {c : Word} (hf : s.fault = false) (h : issueCommand c s = .next t) :
    t.fault = (wordFault s.cfg c).isSome ∧ ∀ code ∈ wordFault s.cfg c, t.fcode = faultByte code ∧ t.fcmd = c := by
  cases hw : wordFault s.cfg c with
  | some code =>
    rw [faultEntryChangesOnlyTheRecord s c code hf hw] at h
    cases h
    simp
  | none =>
    obtain ⟨i, u, -, -, hissue, hexec, hfault, -, -⟩ := passedChecksNeverFault s c hf hw
    obtain rfl : u = t := by simpa [hissue, hexec] using h
    simp [hfault]

/-- Settles O8: the fault of the word is a function of the parameters and the word. -/
theorem faultsDependOnWordAndParametersOnly : Obligations.FaultsDependOnWordAndParametersOnly := by
  intro s u s' u' c hcfg hs hu hissue hissue'
  obtain ⟨hfault, hrecord⟩ := issueCommand_record hs hissue
  obtain ⟨hfault', hrecord'⟩ := issueCommand_record hu hissue'
  rw [← hcfg] at hfault' hrecord'
  refine ⟨hfault.trans hfault'.symm, fun hset => ?_⟩
  obtain ⟨code, hcode⟩ := Option.isSome_iff_exists.1 (hfault.symm.trans hset)
  obtain ⟨hfcode, hfcmd⟩ := hrecord code hcode
  obtain ⟨hfcode', hfcmd'⟩ := hrecord' code hcode
  exact ⟨hfcode.trans hfcode'.symm, hfcmd.trans hfcmd'.symm⟩

/-! ### While FAULT is 1 -/

/-- The two states hold the same FAULT, FCODE and FCMD (10_state R36, R37). -/
def State.sameRecord (s t : State) : Prop := t.fault = s.fault ∧ t.fcode = s.fcode ∧ t.fcmd = s.fcmd

theorem State.sameRecord_refl (s : State) : s.sameRecord s := ⟨rfl, rfl, rfl⟩

/-- A write to CMD while FAULT is 1 is ignored entirely (60_exceptions R186). -/
theorem issueCommand_of_faulted (c : Word) {s : State} (hf : s.fault = true) : issueCommand c s = .next s := by
  simp [issueCommand, hf]

/-- A write of STATUS with bit 0 = 0 does nothing (10_state R36). -/
theorem writeStatus_of_bit_clear {v : Word} (s : State) (hv : v.getLsbD 0 = false) : writeControl 4 v s = .next s := by
  rw [writeControl, hv]; rfl

/-- A write of STATUS with bit 0 = 1 is the fault return (10_state R36). -/
theorem writeStatus_of_bit_set {v : Word} (s : State) (hv : v.getLsbD 0 = true) :
    writeControl 4 v s = .next (faultReturn s) := by
  rw [writeControl, hv]; rfl

theorem writeControl_keeps_record {s t : State} (hf : s.fault = true) :
    ∀ (n : Nat) (v : Word), (n = 4 → v.getLsbD 0 = false) → writeControl n v s = .next t → s.sameRecord t
  | 0, v, _, h => by
    obtain rfl : s = t := by simpa [writeControl, issueCommand_of_faulted v hf] using h
    exact s.sameRecord_refl
  | 4, v, hv, h => by
    obtain rfl : s = t := by simpa [writeStatus_of_bit_clear s (hv rfl)] using h
    exact s.sameRecord_refl
  | 1, _, _, h | 2, _, _, h | 3, _, _, h | 5, _, _, h | 6, _, _, h | 7, _, _, h => by cases h; exact ⟨rfl, rfl, rfl⟩
  | _ + 8, _, _, h => by cases h

/-- While FAULT is 1 only the fault return and the reset event change the fault record (60_exceptions R186). -/
theorem transact_keeps_record {tr : HostTransaction} {s t : State} (hf : s.fault = true) (h : transact tr s = .next t)
    (hreset : tr ≠ .reset) (hreturn : ∀ v, tr = .writeControl 4 v → v.getLsbD 0 = false) : s.sameRecord t := by
  cases tr with
  | writeControl n v => exact writeControl_keeps_record hf n v (fun hn => hreturn v (by rw [hn])) h
  | reset => exact absurd rfl hreset
  | readControl | writeWord | readWord | writeByte | readByte =>
    simp only [transact] at h
    split at h
    · cases h; exact ⟨rfl, rfl, rfl⟩
    · cases h

/-- Settles O9. -/
theorem faultedEngineIgnoresCommands : Obligations.FaultedEngineIgnoresCommands := by
  intro s hf
  refine ⟨fun c => issueCommand_of_faulted c hf, fun tr u h hreset hreturn => ?_, fun _ => rfl, fun _ => rfl, fun _ => rfl,
    fun a v ha => ⟨_, transact_writeWord s a v ha, rfl, ?_, fun b hb => ?_⟩,
    fun p b hp => ⟨_, transact_writeByte s p b hp, rfl, ?_, fun q hq => ?_⟩, ?_, fun n hn => ?_,
    transact_readWord s, transact_readByte s⟩
  · obtain ⟨hfault, hcode, hcmd⟩ := transact_keeps_record hf h hreset hreturn
    exact ⟨hfault.trans hf, hcode, hcmd⟩
  · exact (readWord_writeWord s.rf a a v).trans (if_pos rfl)
  · exact (readWord_writeWord s.rf a b v).trans (if_neg hb)
  · exact (readByte_writeByte s.rf p p b).trans (if_pos rfl)
  · exact (readByte_writeByte s.rf p q b).trans (if_neg hq)
  · rintro n v (rfl | rfl | rfl) <;> rfl
  · obtain ⟨x, hx⟩ := controlValue_exists s n hn
    exact ⟨x, hx, transact_readControl n s x hx⟩

/-- Settles O10. -/
theorem faultReturnClearsTheRecord : Obligations.FaultReturnClearsTheRecord := by
  intro s v rest hp
  rw [step_of_pending_cons s _ rest hp, transact]
  refine ⟨fun hv hf => ?_, fun hv hf => ?_, writeStatus_of_bit_clear _⟩
  · rw [writeStatus_of_bit_set _ hv, faultReturn, if_pos hf]
  · rw [writeStatus_of_bit_set _ hv, faultReturn, if_neg (by simp [hf])]

/-! ### Counts out of range -/

/-- Check 3 comes before the checks of the registers (60_exceptions R182). -/
theorem faults_of_count {s : State} {i : Instr} (h : countInRange s.cfg i = false) : s.faults i .badLength :=
  faults_of_operandFault (operandFault_of_count s.cfg i h)

/-- Settles O11. -/
theorem countsOutOfRangeFaultBadLength : Obligations.CountsOutOfRangeFaultBadLength := by
  intro s rd rs1 n
  refine ⟨fun hn => ?_, fun hn => ?_, fun hn => ?_, fun hn => ?_⟩
  · have hlen : decide (n ≤ 2 * s.cfg.w) = false := decide_eq_false (Nat.not_le.2 hn)
    exact ⟨faults_of_count hlen, faults_of_count hlen, faults_of_count hlen, faults_of_count hlen, faults_of_count hlen,
      faults_of_count hlen⟩
  · have hidx : decide (n < 16 * s.cfg.w) = false := decide_eq_false (Nat.not_lt.2 hn)
    exact ⟨faults_of_count hidx, faults_of_count hidx⟩
  · exact faults_of_count (decide_eq_false (Nat.not_lt.2 hn))
  · have hbytes : decide (n ≤ 16 * s.cfg.w) = false := decide_eq_false (Nat.not_le.2 hn)
    exact ⟨faults_of_count hbytes, faults_of_count hbytes⟩

/-! ### Operands that do not exist -/

/-- An operand that is not wholly in the register file faults BAD_REGISTER when N is in range (60_exceptions R183). -/
theorem faults_of_missing {s : State} {i : Instr} {r E : Nat} (hr : ¬ s.holds r E) (hcount : countInRange s.cfg i = true)
    (hmem : ⟨r, E⟩ ∈ operandsOf s.cfg i) : s.faults i .badRegister := by
  refine faults_of_operandFault (operandFault_of_register s.cfg i hcount (List.all_eq_false.2 ⟨_, hmem, ?_⟩))
  rwa [operandExists_iff]

theorem not_holds_of_nreg_le {s : State} {r : Nat} (E : Nat) (hr : s.cfg.nreg ≤ r) : ¬ s.holds r E :=
  fun ⟨hlt, _⟩ => absurd hlt (Nat.not_lt.2 hr)

/-- The last register is not the first of a pair (60_exceptions R183). -/
theorem not_holds_pair_of_nreg_le {s : State} {r : Nat} (hw : 1 ≤ s.cfg.w) (hr : s.cfg.nreg ≤ r + 1) :
    ¬ s.holds r (2 * s.cfg.w) := by
  rintro ⟨-, hinside⟩
  have hfile : s.cfg.nreg * s.cfg.w ≤ r * s.cfg.w + s.cfg.w := by
    rw [← Nat.succ_mul]; exact Nat.mul_le_mul_right _ hr
  omega

/-- Settles O12: each clause names an operand of the table of extents that is not in the register file. -/
theorem missingOperandsFaultBadRegister : Obligations.MissingOperandsFaultBadRegister := by
  intro s r x y n b k hw
  refine ⟨fun hr => ?_, fun hr => ?_, fun hn hr => ?_, fun hn hr => ?_, fun hn hr => ?_, fun hn hr => ?_⟩
  · have hmissing := not_holds_of_nreg_le s.cfg.w hr
    refine ⟨?_, ?_, ?_, ?_, ?_, ?_, ?_, ?_, ?_, ?_, ?_, ?_, ?_⟩ <;>
      exact faults_of_missing hmissing rfl (by simp [operandsOf])
  · have hmissing := not_holds_pair_of_nreg_le hw hr
    refine ⟨?_, ?_, ?_, ?_, ?_, ?_⟩ <;> exact faults_of_missing hmissing rfl (by simp [operandsOf])
  · have hlen : decide (n ≤ 2 * s.cfg.w) = true := decide_eq_true hn
    refine ⟨?_, ?_, ?_, ?_, ?_, ?_, ?_, ?_, ?_, ?_⟩ <;> exact faults_of_missing hr hlen (by simp [operandsOf])
  · exact faults_of_missing hr (decide_eq_true hn) (by simp [operandsOf])
  · have hidx : decide (n < 16 * s.cfg.w) = true := decide_eq_true hn
    constructor <;> exact faults_of_missing hr hidx (by simp [operandsOf])
  · have hbytes : decide (n ≤ 16 * s.cfg.w) = true := decide_eq_true hn
    constructor <;> exact faults_of_missing hr hbytes (by simp [operandsOf])

/-! ### Overlap -/

/-- Operands that clash fault OVERLAP when N is in range and all of them exist (60_exceptions R182, R184). -/
theorem operandFault_eq_overlap {s : State} {i : Instr} (hcount : countInRange s.cfg i = true)
    (hops : ∀ o ∈ operandsOf s.cfg i, s.holds o.reg o.extent) (hclash : operandsClash s.cfg i = true) :
    operandFault s.cfg i = some .overlap :=
  operandFault_of_clash s.cfg i hcount (List.all_eq_true.2 fun o ho => (operandExists_iff s.cfg o).2 (hops o ho)) hclash

/-- L words from one register on end before a later register, unless they reach into the next one (60_exceptions R184). -/
theorem buffers_apart_of_lt {w a b L : Nat} (hlt : a < b) (hL : L ≤ 2 * w) (hreach : ¬ (w < L ∧ b = a + 1)) :
    a * w + L ≤ b * w := by
  obtain rfl | hfar : b = a + 1 ∨ a + 2 ≤ b := by omega
  · rw [Nat.succ_mul]
    omega
  · calc
      a * w + L ≤ a * w + 2 * w := by omega
      _ = (a + 2) * w := (Nat.add_mul a 2 w).symm
      _ ≤ b * w := Nat.mul_le_mul_right w hfar

theorem sameOrApart_of_not_adjacent {s : State} {rd rs1 L : Nat} (hL : L ≤ 2 * s.cfg.w)
    (h : ¬ (s.cfg.w < L ∧ (rd = rs1 + 1 ∨ rs1 = rd + 1))) : s.sameOrApart rd rs1 L := by
  rcases Nat.lt_trichotomy rd rs1 with hlt | heq | hgt
  · exact .inr (.inl (buffers_apart_of_lt hlt hL fun ⟨hlen, hnext⟩ => h ⟨hlen, .inr hnext⟩))
  · exact .inl heq
  · exact .inr (.inr (buffers_apart_of_lt hgt hL fun ⟨hlen, hnext⟩ => h ⟨hlen, .inl hnext⟩))

/-- Adjacent registers clash when L > W (60_exceptions R184). -/
theorem prefixesClash_of_adjacent {cfg : Config} {rd rs1 L : Nat} (hlen : cfg.w < L) (hadj : rd = rs1 + 1 ∨ rs1 = rd + 1) :
    prefixesClash cfg rd rs1 L = true := by
  simp only [prefixesClash, rangesMeet, Bool.and_eq_true, decide_eq_true_eq]
  rcases hadj with rfl | rfl <;> rw [Nat.succ_mul] <;> omega

/-- The overlap of an in-place command, which is that of ADD, ADC, SUB and SBB (60_exceptions R184). -/
theorem inPlace_overlap {s : State} {rd rs1 L : Nat} (hL : L ≤ 2 * s.cfg.w) (hrd : s.holds rd L) (hrs1 : s.holds rs1 L)
    (hlen : s.cfg.w < L) (hadj : rd = rs1 + 1 ∨ rs1 = rd + 1) : operandFault s.cfg (.add rd rs1 L) = some .overlap :=
  operandFault_eq_overlap (decide_eq_true hL) (by simpa [operandsOf] using ⟨hrd, hrs1⟩) (prefixesClash_of_adjacent hlen hadj)

theorem insidePair_iff (pd r : Nat) : insidePair pd r = true ↔ ¬ outsidePair pd r := by
  simp only [insidePair, decide_eq_true_eq]
  omega

theorem holds_register {s : State} {r : Nat} (hr : r < s.cfg.nreg) : s.holds r s.cfg.w :=
  ⟨hr, register_inside s.cfg r hr⟩

theorem holds_pair {s : State} {pd : Nat} (hpd : pd + 1 < s.cfg.nreg) : s.holds pd (2 * s.cfg.w) :=
  ⟨Nat.lt_of_succ_lt hpd, pair_inside s.cfg pd hpd⟩

/-- The overlap of MUL, which is that of DIV too (60_exceptions R184). -/
theorem mul_overlap {s : State} {pd rs1 rs2 : Nat} (hpd : pd + 1 < s.cfg.nreg) (hrs1 : rs1 < s.cfg.nreg)
    (hrs2 : rs2 < s.cfg.nreg) (hin : ¬ outsidePair pd rs1 ∨ ¬ outsidePair pd rs2) :
    operandFault s.cfg (.mul pd rs1 rs2) = some .overlap := by
  refine operandFault_eq_overlap rfl
    (by simpa [operandsOf] using ⟨holds_pair hpd, holds_register hrs1, holds_register hrs2⟩) ?_
  rw [operandsClash, Bool.or_eq_true, insidePair_iff, insidePair_iff]
  exact hin

/-- The overlap of I2BCD, which is that of F2BCD too (60_exceptions R184). -/
theorem i2bcd_overlap {s : State} {pd rs1 : Nat} (hpd : pd + 1 < s.cfg.nreg) (hrs1 : rs1 < s.cfg.nreg)
    (hin : ¬ outsidePair pd rs1) : operandFault s.cfg (.i2bcd pd rs1) = some .overlap :=
  operandFault_eq_overlap rfl (by simpa [operandsOf] using ⟨holds_pair hpd, holds_register hrs1⟩)
    ((insidePair_iff pd rs1).2 hin)

/-- Settles O13. -/
theorem partialOverlapFaults : Obligations.PartialOverlapFaults := by
  intro s rd rs1 rs2 L _
  refine ⟨fun hL hrd hrs1 hadj => ?_, fun hL hrd hrs1 hadj => ?_, fun hpd hrs1 hrs2 => ⟨fun hin => ?_, fun hin => ?_,
    fun hout1 hout2 => ?_, fun hout => ?_⟩⟩
  · obtain ⟨hlen, hadj⟩ := hadj
    have hoverlap := inPlace_overlap hL hrd hrs1 hlen hadj
    exact ⟨faults_of_operandFault hoverlap, faults_of_operandFault hoverlap, faults_of_operandFault hoverlap,
      faults_of_operandFault hoverlap⟩
  · have hapart := sameOrApart_of_not_adjacent hL hadj
    have hlegal := inPlace_legal s rd rs1 L hL hrd hrs1 hapart
    exact ⟨hapart, hlegal, hlegal, hlegal, hlegal⟩
  · have hoverlap := mul_overlap hpd hrs1 hrs2 hin
    exact ⟨faults_of_operandFault hoverlap, faults_of_operandFault hoverlap⟩
  · have hoverlap := i2bcd_overlap hpd hrs1 hin
    exact ⟨faults_of_operandFault hoverlap, faults_of_operandFault hoverlap⟩
  · exact ⟨mul_legal s.cfg rd rs1 rs2 hpd hrs1 hrs2 hout1 hout2, div_legal s.cfg rd rs1 rs2 hpd hrs1 hrs2 hout1 hout2⟩
  · exact ⟨i2bcd_legal s.cfg rd rs1 hpd hrs1 hout, f2bcd_legal s.cfg rd rs1 hpd hrs1 hout⟩

end Sys2Proof.Machine
end

section
/-! PROOFS. The family 70_reset_and_hazards: what the reset event leaves. -/

namespace Sys2Proof.Machine

/-- When the host's next transaction is the reset event, the step is that event, with the rest of the list still to do. -/
theorem step_of_pending_reset (s : State) (rest : List HostTransaction) (hp : s.pending = .reset :: rest) :
    step s = .next (resetEvent { s with pending := rest }) := by
  rw [step_of_pending_cons s .reset rest hp, transact]

/-- Settles O16: the fields are those of the reset table, and the parameters and the host's list are carried over. -/
theorem resetEventLeavesItsValues : Obligations.ResetEventLeavesItsValues := by
  intro s rest hp
  exact ⟨_, step_of_pending_reset s rest hp, resetEvent_opa _, resetEvent_res _, resetEvent_cf _, resetEvent_zf _,
    resetEvent_ge _, resetEvent_fault _, resetEvent_fcode _, resetEvent_fcmd _, resetEvent_col _, resetEvent_txt _,
    resetEvent_cfg _, resetEvent_pending _⟩

end Sys2Proof.Machine
end
